-- ==== Sys2Proof/Word.lean ====
section
/-! DEFINITION. The two data widths of the hardware: an 8-bit Byte and a 16-bit Word (R5, R8, R10). -/
namespace Sys2Proof

/-- A raw 8-bit value, unsigned in every ALU rule (R8, R160). -/
abbrev Byte := BitVec 8

/-- An unsigned 16-bit value; every address is one (R5, R10). -/
abbrev Word := BitVec 16

end Sys2Proof
end

