-- ==== Sys2Proof/Machine/Bits.lean ====
section
/-! DEFINITION. The 8/16-bit numeric model of 00_scope.md section 5: words made of bytes, zero and sign extension,
the signed reading of a byte, complements, and the bounds-checked constructors and bit operations. -/
namespace Sys2Proof

/-- `word(hi, lo) = hi * 256 + lo` (R10). -/
def word (hi lo : Byte) : Word := BitVec.ofNat 16 (hi.toNat * 256 + lo.toNat)

/-- `hi(w) = w[15:8]` (R10). -/
def hiByte (w : Word) : Byte := w.extractLsb' 8 8

/-- `lo(w) = w[7:0]` (R10). -/
def loByte (w : Word) : Byte := w.extractLsb' 0 8

/-- `zext_16(b)`: the Byte as a Word with high byte 0 (R12). -/
def zext (b : Byte) : Word := b.setWidth 16

/-- `sext_16(b)`: `signed(b) mod 65536` (R12). -/
def sext (b : Byte) : Word := b.signExtend 16

/-- The signed interpretation of a Byte, in [-128,127] (R9). -/
def signed (b : Byte) : Int := if b.getLsbD 7 then -((~~~b + 1).toNat : Int) else (b.toNat : Int)

/-- The two's complement of a Byte (R11). -/
def negate (b : Byte) : Byte := ~~~b + 1

/-- The signed constructor: fails (none) outside [-128,127] (R13). No rule of the core uses it. -/
def signedByte (v : Int) : Option Byte := if -128 ≤ v ∧ v ≤ 127 then some (BitVec.ofInt 8 v) else none

/-- `isBitSet(i)`: fails (none) on an index outside [0,7] (R7, R13). -/
def isBitSet (b : Byte) (i : Nat) : Option Bool := if i < 8 then some (b.getLsbD i) else none

/-- `withBit(i)`: fails (none) on an index outside [0,7] (R7, R13). -/
def withBit (b : Byte) (i : Nat) : Option Byte := if i < 8 then some (b ||| (1#8 <<< i)) else none

/-- `withoutBit(i)`: fails (none) on an index outside [0,7] (R7, R13). -/
def withoutBit (b : Byte) (i : Nat) : Option Byte := if i < 8 then some (b &&& ~~~(1#8 <<< i)) else none

end Sys2Proof
end

