-- ==== Sys2Proof/Config.lean ====
section
/-! DEFINITION. The parameters of R6, which an implementation fixes and no instruction changes, and the free values.
`MEM` and `MEM_SIZE` are the memory field of State and its stores' sizes. See log entries 1, 2, 8 and 19. -/
namespace Sys2Proof

/-- `JSR_RETURN_CONVENTION` (R6, R246, R247, D10). -/
inductive ReturnConvention where
  /-- JSR pushes the next instruction's address minus 1 and RTS adds 1. -/
  | hw
  /-- JSR pushes the next instruction's address and RTS adds nothing. -/
  | literal
deriving DecidableEq, Repr

/-- The parameter table of R6. A default given here is the spec's own choice, but for `resetA`, `resetX`, `resetY`:
the spec leaves them OPEN (D22) and zero is a DESIGN CHOICE (log entry 2, unsafe). -/
structure Config where
  resetVector    : Word := 0xFFFC
  brkVector      : Word := 0xFFFE
  resetP         : Byte := 0x34
  resetA         : Byte := 0
  resetX         : Byte := 0
  resetY         : Byte := 0
  jmpIndPageWrap : Bool := true
  jsrReturn      : ReturnConvention := .hw
  hasIrqNmi      : Bool := false
deriving DecidableEq, Repr

/-- The bytes a fault leaves behind are any value (R303, U2): an opaque constant, one value per number (log entry 8). -/
opaque Config.freeByte : Nat → Byte

/-- PC after a fault or a failing reset is any value (R303, R341, U2): an opaque constant (log entry 8). -/
opaque Config.freeWord : Nat → Word

/-- The total addressable size a composite reports is not stated (R67): an opaque constant of its stores' sizes, its
default and its overrides (log entry 19). -/
opaque Config.compositeSize : List Nat → Option Nat → List (Nat × Nat) → Nat

end Sys2Proof
end

