-- ==== Sys2Proof/Machine/State.lean ====
section
/-! DEFINITION. Everything the spec gives the machine, as plain data: the register file, the fault mark, the memory
behind the port, the interrupt inputs of the optional extension and the parameters; the faults; the state after reset. -/
namespace Sys2Proof.Machine

/-- The kind of a port access, and of the failure it can have (R63, R64, R300). -/
inductive AccessKind where
  | read
  | write
deriving DecidableEq, Repr

/-- One byte-wide access the core asks of its memory port (R62). A failing access is reported by itself. -/
structure Access where
  addr : Word
  kind : AccessKind
deriving DecidableEq, Repr

/-- The two leaf stores of the memory contract (R70, R71). -/
inductive StoreKind where
  /-- A flat store: reads and writes within its size (R70). -/
  | flat
  /-- A read-only store: every write fails (R71). -/
  | readOnly
deriving DecidableEq, Repr

/-- A backing store: its kind, its total addressable size (R61) and its bytes in canonical form: addresses strictly
rising, and no entry equal to what an unlisted address reads as ($00; log entry 3). -/
structure Store where
  kind  : StoreKind
  size  : Nat
  cells : List Host.Cell
deriving DecidableEq, Repr

/-- `MEM`: a composite of backing stores (R72). Each override names the store (by its place in `stores`) that answers one address;
`base` is the optional default store for all other addresses. A single flat or read-only store is the
composite with no override and that store as default. -/
structure Memory where
  stores    : List Store
  base      : Option Nat
  overrides : List (Nat × Nat)
deriving DecidableEq, Repr

/-- The default `MEM` of R6: a flat store of 65536 bytes, here with no byte listed (log entry 3). -/
def Memory.blank : Memory := { stores := [{ kind := .flat, size := 65536, cells := [] }], base := some 0, overrides := [] }

/-- The faults a step can raise (R300). Both are the spec's own and fatal until reset, so stopping is safe. -/
inductive Fault where
  /-- Raised by the decode of a step when the opcode byte has no catalog entry (R301); safe. `pc0` is the opcode's address. -/
  | unknownOpcode (op : Byte) (pc0 : Word)
  /-- Raised by the first failing memory access of a step: out of the answering store's range, no store answers,
  or a write to a read-only store (R302); safe. `pc0` is the opcode's address. -/
  | memoryFault (addr : Word) (kind : AccessKind) (pc0 : Word)
deriving DecidableEq, Repr

/-- Why the model gives no meaning. -/
inductive Refusal where
  /-- Raised by `exec` for an instruction that has no meaning yet; safe. No arm of this model raises it. -/
  | notModelled (mnemonic : String)
deriving DecidableEq, Repr

/-- The machine's state: R30's register file and fault mark, `MEM`, the inputs of R311, the parameters of R6, and the
model's own counter of free values. -/
structure State where
  /-- The accumulator A (R32). -/
  a         : Byte
  /-- The X index register (R33). -/
  x         : Byte
  /-- The Y index register (R34). -/
  y         : Byte
  /-- The stack pointer S: the next free byte is at $0100 + S (R35). -/
  sp        : Byte
  /-- The program counter (R43). -/
  pc        : Word
  /-- The status register P as one raw byte (R36, R37). -/
  p         : Byte
  /-- The fault mark (R44). -/
  faulted   : Bool
  /-- The memory behind the port (R6, R60 to R75). -/
  mem       : Memory
  /-- The level-sensitive IRQ input (R311); read only when `cfg.hasIrqNmi`. -/
  irq       : Bool
  /-- A pending NMI request (R311); read only when `cfg.hasIrqNmi`. -/
  nmi       : Bool
  /-- The parameters of R6. -/
  cfg       : Config
  /-- The MODEL'S OWN: the number of the next free value (log entry 8). -/
  freeCount : Nat
deriving DecidableEq, Repr

/-- The machine right after `reset()` with the default parameters and no byte of memory loaded (R47, R340): S = $FF,
P = `RESET_P OR $20` = $34, PC the word at the reset vector (which reads $0000 here), not faulted. A, X and Y are the
model's choice (log entry 2). `hostReset` performs the operation on any memory; a program's image is loaded before it. -/
def State.reset : State where
  a         := 0
  x         := 0
  y         := 0
  sp        := 0xFF
  pc        := 0x0000
  p         := 0x34
  faulted   := false
  mem       := Memory.blank
  irq       := false
  nmi       := false
  cfg       := {}
  freeCount := 0

end Sys2Proof.Machine
end

