-- ==== Sys2Proof/Machine/Flags.lean ====
section
/-! DEFINITION. The status register P and every flag computation of files 41 to 45: the bit accessors of R36 and R37,
setZN, the adder of ADC and SBC, the shifters, and the comparison. -/
namespace Sys2Proof.Machine

/-- The eight flags of P, in bit order (R37). -/
inductive Flag where
  | C
  | Z
  | I
  | D
  | B
  | U
  | V
  | N
deriving DecidableEq, Repr

/-- The flag's bit number in P (R37). -/
def Flag.bit : Flag → Nat
  | .C => 0
  | .Z => 1
  | .I => 2
  | .D => 3
  | .B => 4
  | .U => 5
  | .V => 6
  | .N => 7

/-- The byte with only the flag's bit set. -/
def Flag.mask (f : Flag) : Byte := 1#8 <<< f.bit

/-- Read one flag of a status byte (R36). -/
def getFlag (p : Byte) (f : Flag) : Bool := p.getLsbD f.bit

/-- The status byte with one flag replaced (R36). -/
def setFlag (f : Flag) (v : Bool) (p : Byte) : Byte := if v then p ||| f.mask else p &&& ~~~f.mask

/-- `setZN(v)`: Z is whether v = 0, N is bit 7 of v (R12). -/
def setZN (v p : Byte) : Byte := setFlag .N (v.getLsbD 7) (setFlag .Z (v == 0) p)

/-- The byte PHP and BRK push: bits 4 and 5 are 1 (R39, R244, R248). -/
def pushedByProgram (p : Byte) : Byte := p ||| 0x30

/-- The byte an IRQ or NMI entry pushes: bit 4 is 0 and bit 5 is 1 (R311). -/
def pushedByInterrupt (p : Byte) : Byte := (p &&& 0xEF) ||| 0x20

/-- P after PLP or RTI pulled `v`: bit 4 keeps the register's value and bit 5 is 1 (R38, R39, R245, R249). -/
def pulledStatus (v p : Byte) : Byte := (v &&& 0xCF) ||| (p &&& 0x10) ||| 0x20

/-- P as an accessor shows it: bit 5 always reads 1 (R38, R45). -/
def State.statusRead (s : State) : Byte := s.p ||| 0x20

/-- What the binary adder gives: the result byte, carry and signed overflow. -/
structure AluSum where
  value    : Byte
  carry    : Bool
  overflow : Bool
deriving DecidableEq, Repr

/-- The adder of ADC (R170): the sum is an exact integer 0..511; carry when it exceeds 255; overflow from the sign bits.
The Decimal flag plays no part (R161). -/
def addWithCarry (a m : Byte) (c : Bool) : AluSum :=
  let sum := a.toNat + m.toNat + c.toNat
  let r := BitVec.ofNat 8 sum
  { value := r, carry := decide (sum > 255), overflow := ((a ^^^ r) &&& (m ^^^ r)).getLsbD 7 }

/-- P after an addition: C, V, Z, N (R170). -/
def sumFlags (r : AluSum) (p : Byte) : Byte := setZN r.value (setFlag .V r.overflow (setFlag .C r.carry p))

/-- A byte computed for a read-modify-write target, and P after it. -/
structure Shifted where
  value  : Byte
  status : Byte
deriving DecidableEq, Repr

/-- A shift's result byte `r` and carry `c` as R180 writes them to P: C, then Z and N. -/
def shifted (r : Byte) (c : Bool) (p : Byte) : Shifted := { value := r, status := setZN r (setFlag .C c p) }

/-- ASL: bit 7 to carry, 0 into bit 0 (R181). -/
def shiftLeft (t p : Byte) : Shifted := shifted (t <<< 1) (t.getLsbD 7) p

/-- LSR: bit 0 to carry, 0 into bit 7 (R182). -/
def shiftRight (t p : Byte) : Shifted := shifted (t >>> 1) (t.getLsbD 0) p

/-- ROL: bit 7 to carry, the old carry into bit 0 (R183). -/
def rotateLeft (t p : Byte) : Shifted := shifted ((t <<< 1) ||| (if getFlag p .C then 0x01 else 0x00)) (t.getLsbD 7) p

/-- ROR: bit 0 to carry, the old carry into bit 7 (R184). -/
def rotateRight (t p : Byte) : Shifted := shifted ((t >>> 1) ||| (if getFlag p .C then 0x80 else 0x00)) (t.getLsbD 0) p

/-- INC's byte and flags: Z and N only (R210). -/
def incremented (t p : Byte) : Shifted := { value := t + 1, status := setZN (t + 1) p }

/-- DEC's byte and flags: Z and N only (R211). -/
def decremented (t p : Byte) : Shifted := { value := t - 1, status := setZN (t - 1) p }

/-- `Compare(reg, m)`: C when reg >= m unsigned, Z when equal, N bit 7 of the difference; V is not written (R200). -/
def compareFlags (reg m p : Byte) : Byte :=
  setFlag .N ((reg - m).getLsbD 7) (setFlag .Z (reg == m) (setFlag .C (decide (m.toNat ≤ reg.toNat)) p))

/-- BIT's flags: Z from A AND m, N and V from the operand (R193). -/
def bitTestFlags (a m p : Byte) : Byte := setFlag .V (m.getLsbD 6) (setFlag .N (m.getLsbD 7) (setFlag .Z ((a &&& m) == 0) p))

end Sys2Proof.Machine
end

