-- ==== Sys2Proof/Machine/Memory.lean ====
section
/-! DEFINITION. The Addressable Memory contract (R67) over the stores behind the port: flat (R70), read-only (R71) and
composite (R72 to R74), with the canonical form of the bytes they list. Every failure is `none`. -/
namespace Sys2Proof.Machine

/-- What a byte that no store lists reads as: `reset` of a flat store zeroes every cell (R70). DESIGN CHOICE for a store
nothing was loaded into (log entry 3, unsafe). -/
def unlistedByte : Byte := 0

/-- The byte a list of cells gives at an address. -/
def cellsRead : List Host.Cell → Nat → Byte
  | [], _ => unlistedByte
  | (k, v) :: r, a => if a < k then unlistedByte else if a = k then v else cellsRead r a

/-- The cells after a byte is written: sorted, and unlisted when the byte is what an unlisted address reads as. -/
def cellsWrite : List Host.Cell → Nat → Byte → List Host.Cell
  | [], a, v => if v = unlistedByte then [] else [(a, v)]
  | (k, w) :: r, a, v =>
    if a < k then (if v = unlistedByte then (k, w) :: r else (a, v) :: (k, w) :: r)
    else if a = k then (if v = unlistedByte then r else (a, v) :: r)
    else (k, w) :: cellsWrite r a v

/-- The canonical form: every address at least `lo` and strictly rising, no entry equal to an unlisted byte. -/
def cellsWf : Nat → List Host.Cell → Bool
  | _, [] => true
  | lo, (k, v) :: r => decide (lo ≤ k) && (v != unlistedByte) && cellsWf (k + 1) r

/-- Every listed address lies in the store's range. -/
def cellsBelow (n : Nat) (cells : List Host.Cell) : Bool := cells.all fun c => decide (c.1 < n)

/-- A store is well formed when its size is one R6 allows and its cells are canonical and in range. -/
def Store.wf (st : Store) : Bool :=
  decide (1 ≤ st.size) && decide (st.size ≤ 65536) && cellsWf 0 st.cells && cellsBelow st.size st.cells

/-- Strictly rising keys: one override per address. -/
def overridesWf : Nat → List (Nat × Nat) → Bool
  | _, [] => true
  | lo, (k, _) :: r => decide (lo ≤ k) && overridesWf (k + 1) r

/-- The memory's invariant: every store is well formed, each address has at most one override, and every mapping names
a store that exists (R72). -/
def Memory.wf (m : Memory) : Bool :=
  m.stores.all Store.wf && overridesWf 0 m.overrides
    && m.overrides.all (fun o => decide (o.2 < m.stores.length))
    && (match m.base with | none => true | some i => decide (i < m.stores.length))

/-- Byte read of a leaf store: bounds-checked (R61, R70, R71). -/
def Store.read (st : Store) (a : Nat) : Option Byte := if a < st.size then some (cellsRead st.cells a) else none

/-- Whether a byte write to a leaf store succeeds (R61, R70, R71). -/
def Store.writable (st : Store) (a : Nat) : Bool := (st.kind == .flat) && decide (a < st.size)

/-- The store with one byte replaced, whatever its kind: what a write and the image loader share. -/
def Store.put (st : Store) (a : Nat) (v : Byte) : Store := { st with cells := cellsWrite st.cells a v }

/-- Byte write of a leaf store: fails out of range and on a read-only store (R70, R71). -/
def Store.write (st : Store) (a : Nat) (v : Byte) : Option Store := if st.writable a then some (st.put a v) else none

/-- Contract reset of a leaf store: a flat store zeroes every cell, a read-only store does nothing (R70, R71). -/
def Store.clear (st : Store) : Store := match st.kind with
  | .flat => { st with cells := [] }
  | .readOnly => st

/-- The override of an address, if it has one (R72). -/
def overrideAt : List (Nat × Nat) → Nat → Option Nat
  | [], _ => none
  | (k, i) :: r, a => if k = a then some i else overrideAt r a

/-- The one backing store that answers an address: its override, else the default (R72). -/
def Memory.route (m : Memory) (a : Nat) : Option Nat := match overrideAt m.overrides a with
  | some i => some i
  | none => m.base

/-- The answering store itself. -/
def Memory.answering (m : Memory) (a : Nat) : Option Store := match m.route a with
  | some i => m.stores[i]?
  | none => none

/-- Byte read through the composite: the answering store is given the same address (R72, D28). -/
def Memory.read (m : Memory) (a : Nat) : Option Byte := match m.answering a with
  | some st => st.read a
  | none => none

/-- Whether a byte write at an address succeeds (R64, R71, R72). -/
def Memory.writable (m : Memory) (a : Nat) : Bool := match m.answering a with
  | some st => st.writable a
  | none => false

/-- The memory with one backing store replaced by its image under `f`. -/
def Memory.modify (m : Memory) (i : Nat) (f : Store → Store) : Memory := { m with stores := m.stores.modify i f }

/-- The memory with one byte replaced in the answering store, whatever its kind (the image loader's write, R319, R344). -/
def Memory.put (m : Memory) (a : Nat) (v : Byte) : Memory := match m.route a with
  | some i => m.modify i fun st => if a < st.size then st.put a v else st
  | none => m

/-- Byte write through the composite: only the answering store changes (R72, R73). -/
def Memory.write (m : Memory) (a : Nat) (v : Byte) : Option Memory := if m.writable a then some (m.put a v) else none

/-- Whether an access the core asks for succeeds (R63, R64). -/
def Memory.allows (m : Memory) (acc : Access) : Bool := match acc.kind with
  | .read => (m.read acc.addr.toNat).isSome
  | .write => m.writable acc.addr.toNat

/-- `getWord(a)` of the contract: big-endian, each byte through its own store (R68, R73). The core never uses it. -/
def Memory.getWord (m : Memory) (a : Nat) : Option Word := match m.read a, m.read (a + 1) with
  | some hi, some lo => some (word hi lo)
  | _, _ => none

/-- `setBlock(a, bytes)`: byte i at address a + i, in order, each routed by itself; fails at the first failing byte
(R69, R73; log entry 18). DESIGN CHOICE: a block of no bytes writes nothing and succeeds on every memory, a read-only store
among them (log entry 27). -/
def Memory.setBlock (m : Memory) (a : Nat) : List Byte → Option Memory
  | [] => some m
  | v :: r => match m.write a v with
    | some m' => m'.setBlock (a + 1) r
    | none => none

/-- `n` consecutive bytes from `a`. -/
def Memory.readRange (m : Memory) (a : Nat) : Nat → Option (List Byte)
  | 0 => some []
  | n + 1 => match m.read a, m.readRange (a + 1) n with
    | some v, some r => some (v :: r)
    | _, _ => none

/-- `getBlock(from, to)`: the bytes at `from` up to but not including `to` (R69). DESIGN CHOICE: when `to` lies below `from`
the range is empty and the answer is no bytes (log entry 26). -/
def Memory.getBlock (m : Memory) (lo hi : Nat) : Option (List Byte) := m.readRange lo (hi - lo)

/-- "report total addressable size" (R67): that of the answering store for a lone store, which is the composite of one
default and no override; the spec states none for another composite, so that one is a free value (log entry 19). -/
def Memory.size (m : Memory) : Nat := match m.overrides, m.base.bind ((m.stores.map Store.size)[·]?) with
  | [], some n => n
  | _, _ => Config.compositeSize (m.stores.map Store.size) m.base m.overrides

/-- The distinct backing stores a composite names: the default and every override's store, each once (R74). -/
def Memory.backing (m : Memory) : List Nat := (m.base.toList ++ m.overrides.map Prod.snd).dedup

/-- Contract reset of the composite: each distinct backing store is reset exactly once (R74). The core's own reset never
calls it (R75). -/
def Memory.clear (m : Memory) : Memory := m.backing.foldl (fun acc i => acc.modify i Store.clear) m

/-- Insert an override in address order, replacing an earlier one of the same address. -/
def insertOverride : List (Nat × Nat) → Nat → Nat → List (Nat × Nat)
  | [], a, i => [(a, i)]
  | (k, j) :: r, a, i =>
    if a < k then (a, i) :: (k, j) :: r
    else if a = k then (a, i) :: r
    else (k, j) :: insertOverride r a i

/-- Adding an override gives a new composite that shares every other entry (R74); a store that does not exist is refused
(DESIGN CHOICE, log entry 4). -/
def Memory.addOverride (m : Memory) (a i : Nat) : Option Memory :=
  if i < m.stores.length then some { m with overrides := insertOverride m.overrides a i } else none

/-- Bytes of an image stored at consecutive 16-bit addresses by the loader (R319, R344), wrapping at $FFFF. -/
def Memory.load (m : Memory) (a : Word) : List Byte → Memory
  | [] => m
  | v :: r => (m.put a.toNat v).load (a + 1) r

end Sys2Proof.Machine
end

