-- ==== Sys2Proof/Machine/Ops.lean ====
section
/-! DEFINITION. The named operations over memory and registers: the register updates, the two operations of the memory port, the stack
primitives, entering a handler (BRK, and the optional IRQ and NMI) and the return from one, and how an operation that
can fail ends a step. -/
namespace Sys2Proof.Machine

/-- `PC <- w`. -/
def setPc (w : Word) (s : State) : State := { s with pc := w }

/-- `S <- v`. -/
def setSp (v : Byte) (s : State) : State := { s with sp := v }

/-- `P <- q`. -/
def setStatus (q : Byte) (s : State) : State := { s with p := q }

/-- The memory behind the port replaced. -/
def setMem (m : Memory) (s : State) : State := { s with mem := m }

/-- `A <- v; P <- q`. -/
def setAStatus (v q : Byte) (s : State) : State := { s with a := v, p := q }

/-- `A <- v; setZN(v)` (R12). -/
def writeA (v : Byte) (s : State) : State := { s with a := v, p := setZN v s.p }

/-- `X <- v; setZN(v)` (R12). -/
def writeX (v : Byte) (s : State) : State := { s with x := v, p := setZN v s.p }

/-- `Y <- v; setZN(v)` (R12). -/
def writeY (v : Byte) (s : State) : State := { s with y := v, p := setZN v s.p }

/-- `MemRead(addr, 1)`: the byte, or the failing access (R63). It changes nothing (R65). -/
def memRead (s : State) (a : Word) : Except Access Byte := match s.mem.read a.toNat with
  | some v => .ok v
  | none => .error { addr := a, kind := .read }

/-- `MemWrite(addr, 1, v)`: the state with the byte stored, or the failing access (R64). -/
def memWrite (s : State) (a : Word) (v : Byte) : Except Access State := match s.mem.write a.toNat v with
  | some m => .ok (setMem m s)
  | none => .error { addr := a, kind := .write }

/-- The address of the stack byte a stack pointer value names: `$0100 + S` (R35, D43). -/
def stackAddr (sp : Byte) : Word := 0x0100 + zext sp

/-- `Push(v)`: write at `$0100 + S`, then decrement S modulo 256 (R240). -/
def push (v : Byte) (s : State) : Except Access State := match memWrite s (stackAddr s.sp) v with
  | .ok t => .ok (setSp (s.sp - 1) t)
  | .error e => .error e

/-- `Pull()`: increment S modulo 256, then read the byte at `$0100 + S` (R241). -/
def pull (s : State) : Except Access (Byte × State) := match memRead s (stackAddr (s.sp + 1)) with
  | .ok v => .ok (v, setSp (s.sp + 1) s)
  | .error e => .error e

/-- Push a Word, high byte first, so that it lies little-endian in memory (R76, R246). -/
def pushWord (w : Word) (s : State) : Except Access State := match push (hiByte w) s with
  | .ok t => push (loByte w) t
  | .error e => .error e

/-- Pull a Word, low byte first (R247, R249). -/
def pullWord (s : State) : Except Access (Word × State) := match pull s with
  | .ok (lo, t) => match pull t with
    | .ok (hi, u) => .ok (word hi lo, u)
    | .error e => .error e
  | .error e => .error e

/-- The little-endian Word whose low byte is at `lo` and high byte at `hi`, read low byte first (R76, R157). -/
def readPair (s : State) (lo hi : Word) : Except Access Word := match memRead s lo with
  | .ok l => match memRead s hi with
    | .ok h => .ok (word h l)
    | .error e => .error e
  | .error e => .error e

/-- Entering a handler, shared by BRK (R248) and the IRQ and NMI entries (R311): push the return address and the given
status byte, set I, and load PC from the vector, low byte first. B and D of the register are not written. -/
def enterHandler (ret : Word) (status : Byte) (vector : Word) (s : State) : Except Access State :=
  match pushWord ret s with
  | .error e => .error e
  | .ok t => match push status t with
    | .error e => .error e
    | .ok u => match readPair u vector (vector + 1) with
      | .error e => .error e
      | .ok target => .ok (setPc target (setStatus (setFlag .I true u.p) u))

/-- Returning from a handler (R249): pull P (bit 4 kept, bit 5 set), then PC; nothing is added to PC. -/
def returnFromHandler (s : State) : Except Access State := match pull s with
  | .error e => .error e
  | .ok (v, t) => match pullWord t with
    | .error e => .error e
    | .ok (target, u) => .ok (setPc target (setStatus (pulledStatus v u.p) u))

/-- How an operation ends a step: its next state, or `MemoryFault` for the access that failed, with the opcode's address
(R300, R302; log entry 12). -/
def conclude (pc0 : Word) : Except Access State → Host.Outcome State Fault Refusal
  | .ok t => .next t
  | .error e => .fault (.memoryFault e.addr e.kind pc0)

end Sys2Proof.Machine
end

