-- ==== Sys2Proof/Syntax.lean ====
section
/-! DEFINITION. The instruction set as syntax: the 151 entries of the catalog (R104), one constructor of Instr each, with
the mnemonics, the addressing modes (R101) and the operand each entry carries. -/
namespace Sys2Proof

/-- The 56 mnemonics of R104. -/
inductive Mnemonic where
  | ADC
  | SBC
  | ASL
  | LSR
  | ROL
  | ROR
  | AND
  | ORA
  | EOR
  | BIT
  | CMP
  | CPX
  | CPY
  | INC
  | DEC
  | INX
  | INY
  | DEX
  | DEY
  | BCC
  | BCS
  | BEQ
  | BNE
  | BMI
  | BPL
  | BVC
  | BVS
  | JMP
  | PHA
  | PLA
  | PHP
  | PLP
  | JSR
  | RTS
  | BRK
  | RTI
  | CLC
  | SEC
  | CLI
  | SEI
  | CLD
  | SED
  | CLV
  | NOP
  | LDA
  | LDX
  | LDY
  | STA
  | STX
  | STY
  | TAX
  | TAY
  | TXA
  | TYA
  | TSX
  | TXS
deriving DecidableEq, Repr

/-- The 13 addressing modes, by the spec's names (R101). -/
inductive Mode where
  | IMP
  | ACC
  | IMM
  | ZP
  | ZPX
  | ZPY
  | ABS
  | ABSX
  | ABSY
  | IND
  | INDX
  | INDY
  | REL
deriving DecidableEq, Repr

/-- Total instruction length of each mode in bytes (R101). -/
def Mode.length : Mode → Nat
  | .IMP => 1
  | .ACC => 1
  | .IMM => 2
  | .ZP => 2
  | .ZPX => 2
  | .ZPY => 2
  | .ABS => 3
  | .ABSX => 3
  | .ABSY => 3
  | .IND => 3
  | .INDX => 2
  | .INDY => 2
  | .REL => 2

/-- A memory operand: its addressing mode with the operand bytes (R143 to R148, R150, R151). -/
inductive MemArg where
  | zp (b : Byte)
  | zpx (b : Byte)
  | zpy (b : Byte)
  | abs (w : Word)
  | absx (w : Word)
  | absy (w : Word)
  | indx (b : Byte)
  | indy (b : Byte)
deriving DecidableEq, Repr

/-- What follows the opcode byte, by mode (R102, R133): nothing, the accumulator, an immediate byte, a memory operand,
the pointer of an indirect JMP (R149), or a branch displacement (R152). -/
inductive Operand where
  | imp
  | acc
  | imm (v : Byte)
  | mem (m : MemArg)
  | ind (w : Word)
  | rel (d : Byte)
deriving DecidableEq, Repr

/-- The mode of a memory operand. -/
def MemArg.mode : MemArg → Mode
  | .zp _ => .ZP
  | .zpx _ => .ZPX
  | .zpy _ => .ZPY
  | .abs _ => .ABS
  | .absx _ => .ABSX
  | .absy _ => .ABSY
  | .indx _ => .INDX
  | .indy _ => .INDY

/-- The mode of an operand. -/
def Operand.mode : Operand → Mode
  | .imp => .IMP
  | .acc => .ACC
  | .imm _ => .IMM
  | .mem m => m.mode
  | .ind _ => .IND
  | .rel _ => .REL

/-- One constructor per row of the opcode table: the mnemonic and the mode name it, the arguments are its operand bytes
(`v` an immediate, `b` a zero-page byte, `w` a 16-bit operand, `d` a displacement byte). -/
inductive Instr where
  /-- $69 ADC Immediate (R170) -/
  | adcImm (v : Byte)
  /-- $65 ADC Zero Page (R170) -/
  | adcZp (b : Byte)
  /-- $75 ADC Zero Page,X (R170) -/
  | adcZpx (b : Byte)
  /-- $6D ADC Absolute (R170) -/
  | adcAbs (w : Word)
  /-- $7D ADC Absolute,X (R170) -/
  | adcAbsx (w : Word)
  /-- $79 ADC Absolute,Y (R170) -/
  | adcAbsy (w : Word)
  /-- $61 ADC Indirect,X (R170) -/
  | adcIndx (b : Byte)
  /-- $71 ADC Indirect,Y (R170) -/
  | adcIndy (b : Byte)
  /-- $E9 SBC Immediate (R171) -/
  | sbcImm (v : Byte)
  /-- $E5 SBC Zero Page (R171) -/
  | sbcZp (b : Byte)
  /-- $F5 SBC Zero Page,X (R171) -/
  | sbcZpx (b : Byte)
  /-- $ED SBC Absolute (R171) -/
  | sbcAbs (w : Word)
  /-- $FD SBC Absolute,X (R171) -/
  | sbcAbsx (w : Word)
  /-- $F9 SBC Absolute,Y (R171) -/
  | sbcAbsy (w : Word)
  /-- $E1 SBC Indirect,X (R171) -/
  | sbcIndx (b : Byte)
  /-- $F1 SBC Indirect,Y (R171) -/
  | sbcIndy (b : Byte)
  /-- $0A ASL Accumulator (R181) -/
  | aslAcc
  /-- $06 ASL Zero Page (R181) -/
  | aslZp (b : Byte)
  /-- $16 ASL Zero Page,X (R181) -/
  | aslZpx (b : Byte)
  /-- $0E ASL Absolute (R181) -/
  | aslAbs (w : Word)
  /-- $1E ASL Absolute,X (R181) -/
  | aslAbsx (w : Word)
  /-- $4A LSR Accumulator (R182) -/
  | lsrAcc
  /-- $46 LSR Zero Page (R182) -/
  | lsrZp (b : Byte)
  /-- $56 LSR Zero Page,X (R182) -/
  | lsrZpx (b : Byte)
  /-- $4E LSR Absolute (R182) -/
  | lsrAbs (w : Word)
  /-- $5E LSR Absolute,X (R182) -/
  | lsrAbsx (w : Word)
  /-- $2A ROL Accumulator (R183) -/
  | rolAcc
  /-- $26 ROL Zero Page (R183) -/
  | rolZp (b : Byte)
  /-- $36 ROL Zero Page,X (R183) -/
  | rolZpx (b : Byte)
  /-- $2E ROL Absolute (R183) -/
  | rolAbs (w : Word)
  /-- $3E ROL Absolute,X (R183) -/
  | rolAbsx (w : Word)
  /-- $6A ROR Accumulator (R184) -/
  | rorAcc
  /-- $66 ROR Zero Page (R184) -/
  | rorZp (b : Byte)
  /-- $76 ROR Zero Page,X (R184) -/
  | rorZpx (b : Byte)
  /-- $6E ROR Absolute (R184) -/
  | rorAbs (w : Word)
  /-- $7E ROR Absolute,X (R184) -/
  | rorAbsx (w : Word)
  /-- $29 AND Immediate (R190) -/
  | andImm (v : Byte)
  /-- $25 AND Zero Page (R190) -/
  | andZp (b : Byte)
  /-- $35 AND Zero Page,X (R190) -/
  | andZpx (b : Byte)
  /-- $2D AND Absolute (R190) -/
  | andAbs (w : Word)
  /-- $3D AND Absolute,X (R190) -/
  | andAbsx (w : Word)
  /-- $39 AND Absolute,Y (R190) -/
  | andAbsy (w : Word)
  /-- $21 AND Indirect,X (R190) -/
  | andIndx (b : Byte)
  /-- $31 AND Indirect,Y (R190) -/
  | andIndy (b : Byte)
  /-- $09 ORA Immediate (R191) -/
  | oraImm (v : Byte)
  /-- $05 ORA Zero Page (R191) -/
  | oraZp (b : Byte)
  /-- $15 ORA Zero Page,X (R191) -/
  | oraZpx (b : Byte)
  /-- $0D ORA Absolute (R191) -/
  | oraAbs (w : Word)
  /-- $1D ORA Absolute,X (R191) -/
  | oraAbsx (w : Word)
  /-- $19 ORA Absolute,Y (R191) -/
  | oraAbsy (w : Word)
  /-- $01 ORA Indirect,X (R191) -/
  | oraIndx (b : Byte)
  /-- $11 ORA Indirect,Y (R191) -/
  | oraIndy (b : Byte)
  /-- $49 EOR Immediate (R192) -/
  | eorImm (v : Byte)
  /-- $45 EOR Zero Page (R192) -/
  | eorZp (b : Byte)
  /-- $55 EOR Zero Page,X (R192) -/
  | eorZpx (b : Byte)
  /-- $4D EOR Absolute (R192) -/
  | eorAbs (w : Word)
  /-- $5D EOR Absolute,X (R192) -/
  | eorAbsx (w : Word)
  /-- $59 EOR Absolute,Y (R192) -/
  | eorAbsy (w : Word)
  /-- $41 EOR Indirect,X (R192) -/
  | eorIndx (b : Byte)
  /-- $51 EOR Indirect,Y (R192) -/
  | eorIndy (b : Byte)
  /-- $24 BIT Zero Page (R193) -/
  | bitZp (b : Byte)
  /-- $2C BIT Absolute (R193) -/
  | bitAbs (w : Word)
  /-- $C9 CMP Immediate (R201) -/
  | cmpImm (v : Byte)
  /-- $C5 CMP Zero Page (R201) -/
  | cmpZp (b : Byte)
  /-- $D5 CMP Zero Page,X (R201) -/
  | cmpZpx (b : Byte)
  /-- $CD CMP Absolute (R201) -/
  | cmpAbs (w : Word)
  /-- $DD CMP Absolute,X (R201) -/
  | cmpAbsx (w : Word)
  /-- $D9 CMP Absolute,Y (R201) -/
  | cmpAbsy (w : Word)
  /-- $C1 CMP Indirect,X (R201) -/
  | cmpIndx (b : Byte)
  /-- $D1 CMP Indirect,Y (R201) -/
  | cmpIndy (b : Byte)
  /-- $E0 CPX Immediate (R202) -/
  | cpxImm (v : Byte)
  /-- $E4 CPX Zero Page (R202) -/
  | cpxZp (b : Byte)
  /-- $EC CPX Absolute (R202) -/
  | cpxAbs (w : Word)
  /-- $C0 CPY Immediate (R203) -/
  | cpyImm (v : Byte)
  /-- $C4 CPY Zero Page (R203) -/
  | cpyZp (b : Byte)
  /-- $CC CPY Absolute (R203) -/
  | cpyAbs (w : Word)
  /-- $E6 INC Zero Page (R210) -/
  | incZp (b : Byte)
  /-- $F6 INC Zero Page,X (R210) -/
  | incZpx (b : Byte)
  /-- $EE INC Absolute (R210) -/
  | incAbs (w : Word)
  /-- $FE INC Absolute,X (R210) -/
  | incAbsx (w : Word)
  /-- $C6 DEC Zero Page (R211) -/
  | decZp (b : Byte)
  /-- $D6 DEC Zero Page,X (R211) -/
  | decZpx (b : Byte)
  /-- $CE DEC Absolute (R211) -/
  | decAbs (w : Word)
  /-- $DE DEC Absolute,X (R211) -/
  | decAbsx (w : Word)
  /-- $E8 INX Implied (R212) -/
  | inx
  /-- $C8 INY Implied (R213) -/
  | iny
  /-- $CA DEX Implied (R214) -/
  | dex
  /-- $88 DEY Implied (R215) -/
  | dey
  /-- $90 BCC Relative (R221) -/
  | bcc (d : Byte)
  /-- $B0 BCS Relative (R222) -/
  | bcs (d : Byte)
  /-- $F0 BEQ Relative (R223) -/
  | beq (d : Byte)
  /-- $D0 BNE Relative (R224) -/
  | bne (d : Byte)
  /-- $30 BMI Relative (R225) -/
  | bmi (d : Byte)
  /-- $10 BPL Relative (R226) -/
  | bpl (d : Byte)
  /-- $50 BVC Relative (R227) -/
  | bvc (d : Byte)
  /-- $70 BVS Relative (R228) -/
  | bvs (d : Byte)
  /-- $4C JMP Absolute (R229) -/
  | jmpAbs (w : Word)
  /-- $6C JMP Indirect (R229) -/
  | jmpInd (w : Word)
  /-- $48 PHA Implied (R242) -/
  | pha
  /-- $68 PLA Implied (R243) -/
  | pla
  /-- $08 PHP Implied (R244) -/
  | php
  /-- $28 PLP Implied (R245) -/
  | plp
  /-- $20 JSR Absolute (R246) -/
  | jsr (w : Word)
  /-- $60 RTS Implied (R247) -/
  | rts
  /-- $00 BRK Implied (R248) -/
  | brk
  /-- $40 RTI Implied (R249) -/
  | rti
  /-- $18 CLC Implied (R260) -/
  | clc
  /-- $38 SEC Implied (R261) -/
  | sec
  /-- $58 CLI Implied (R262) -/
  | cli
  /-- $78 SEI Implied (R263) -/
  | sei
  /-- $D8 CLD Implied (R264) -/
  | cld
  /-- $F8 SED Implied (R265) -/
  | sed
  /-- $B8 CLV Implied (R266) -/
  | clv
  /-- $EA NOP Implied (R267) -/
  | nop
  /-- $A9 LDA Immediate (R270) -/
  | ldaImm (v : Byte)
  /-- $A5 LDA Zero Page (R270) -/
  | ldaZp (b : Byte)
  /-- $B5 LDA Zero Page,X (R270) -/
  | ldaZpx (b : Byte)
  /-- $AD LDA Absolute (R270) -/
  | ldaAbs (w : Word)
  /-- $BD LDA Absolute,X (R270) -/
  | ldaAbsx (w : Word)
  /-- $B9 LDA Absolute,Y (R270) -/
  | ldaAbsy (w : Word)
  /-- $A1 LDA Indirect,X (R270) -/
  | ldaIndx (b : Byte)
  /-- $B1 LDA Indirect,Y (R270) -/
  | ldaIndy (b : Byte)
  /-- $A2 LDX Immediate (R271) -/
  | ldxImm (v : Byte)
  /-- $A6 LDX Zero Page (R271) -/
  | ldxZp (b : Byte)
  /-- $B6 LDX Zero Page,Y (R271) -/
  | ldxZpy (b : Byte)
  /-- $AE LDX Absolute (R271) -/
  | ldxAbs (w : Word)
  /-- $BE LDX Absolute,Y (R271) -/
  | ldxAbsy (w : Word)
  /-- $A0 LDY Immediate (R272) -/
  | ldyImm (v : Byte)
  /-- $A4 LDY Zero Page (R272) -/
  | ldyZp (b : Byte)
  /-- $B4 LDY Zero Page,X (R272) -/
  | ldyZpx (b : Byte)
  /-- $AC LDY Absolute (R272) -/
  | ldyAbs (w : Word)
  /-- $BC LDY Absolute,X (R272) -/
  | ldyAbsx (w : Word)
  /-- $85 STA Zero Page (R273) -/
  | staZp (b : Byte)
  /-- $95 STA Zero Page,X (R273) -/
  | staZpx (b : Byte)
  /-- $8D STA Absolute (R273) -/
  | staAbs (w : Word)
  /-- $9D STA Absolute,X (R273) -/
  | staAbsx (w : Word)
  /-- $99 STA Absolute,Y (R273) -/
  | staAbsy (w : Word)
  /-- $81 STA Indirect,X (R273) -/
  | staIndx (b : Byte)
  /-- $91 STA Indirect,Y (R273) -/
  | staIndy (b : Byte)
  /-- $86 STX Zero Page (R274) -/
  | stxZp (b : Byte)
  /-- $96 STX Zero Page,Y (R274) -/
  | stxZpy (b : Byte)
  /-- $8E STX Absolute (R274) -/
  | stxAbs (w : Word)
  /-- $84 STY Zero Page (R275) -/
  | styZp (b : Byte)
  /-- $94 STY Zero Page,X (R275) -/
  | styZpx (b : Byte)
  /-- $8C STY Absolute (R275) -/
  | styAbs (w : Word)
  /-- $AA TAX Implied (R276) -/
  | tax
  /-- $A8 TAY Implied (R277) -/
  | tay
  /-- $8A TXA Implied (R278) -/
  | txa
  /-- $98 TYA Implied (R279) -/
  | tya
  /-- $BA TSX Implied (R280) -/
  | tsx
  /-- $9A TXS Implied (R281) -/
  | txs
deriving DecidableEq, Repr

/-- The mnemonic of an entry (R103). -/
def Instr.mnemonic : Instr → Mnemonic
  | .adcImm _ => .ADC
  | .adcZp _ => .ADC
  | .adcZpx _ => .ADC
  | .adcAbs _ => .ADC
  | .adcAbsx _ => .ADC
  | .adcAbsy _ => .ADC
  | .adcIndx _ => .ADC
  | .adcIndy _ => .ADC
  | .sbcImm _ => .SBC
  | .sbcZp _ => .SBC
  | .sbcZpx _ => .SBC
  | .sbcAbs _ => .SBC
  | .sbcAbsx _ => .SBC
  | .sbcAbsy _ => .SBC
  | .sbcIndx _ => .SBC
  | .sbcIndy _ => .SBC
  | .aslAcc => .ASL
  | .aslZp _ => .ASL
  | .aslZpx _ => .ASL
  | .aslAbs _ => .ASL
  | .aslAbsx _ => .ASL
  | .lsrAcc => .LSR
  | .lsrZp _ => .LSR
  | .lsrZpx _ => .LSR
  | .lsrAbs _ => .LSR
  | .lsrAbsx _ => .LSR
  | .rolAcc => .ROL
  | .rolZp _ => .ROL
  | .rolZpx _ => .ROL
  | .rolAbs _ => .ROL
  | .rolAbsx _ => .ROL
  | .rorAcc => .ROR
  | .rorZp _ => .ROR
  | .rorZpx _ => .ROR
  | .rorAbs _ => .ROR
  | .rorAbsx _ => .ROR
  | .andImm _ => .AND
  | .andZp _ => .AND
  | .andZpx _ => .AND
  | .andAbs _ => .AND
  | .andAbsx _ => .AND
  | .andAbsy _ => .AND
  | .andIndx _ => .AND
  | .andIndy _ => .AND
  | .oraImm _ => .ORA
  | .oraZp _ => .ORA
  | .oraZpx _ => .ORA
  | .oraAbs _ => .ORA
  | .oraAbsx _ => .ORA
  | .oraAbsy _ => .ORA
  | .oraIndx _ => .ORA
  | .oraIndy _ => .ORA
  | .eorImm _ => .EOR
  | .eorZp _ => .EOR
  | .eorZpx _ => .EOR
  | .eorAbs _ => .EOR
  | .eorAbsx _ => .EOR
  | .eorAbsy _ => .EOR
  | .eorIndx _ => .EOR
  | .eorIndy _ => .EOR
  | .bitZp _ => .BIT
  | .bitAbs _ => .BIT
  | .cmpImm _ => .CMP
  | .cmpZp _ => .CMP
  | .cmpZpx _ => .CMP
  | .cmpAbs _ => .CMP
  | .cmpAbsx _ => .CMP
  | .cmpAbsy _ => .CMP
  | .cmpIndx _ => .CMP
  | .cmpIndy _ => .CMP
  | .cpxImm _ => .CPX
  | .cpxZp _ => .CPX
  | .cpxAbs _ => .CPX
  | .cpyImm _ => .CPY
  | .cpyZp _ => .CPY
  | .cpyAbs _ => .CPY
  | .incZp _ => .INC
  | .incZpx _ => .INC
  | .incAbs _ => .INC
  | .incAbsx _ => .INC
  | .decZp _ => .DEC
  | .decZpx _ => .DEC
  | .decAbs _ => .DEC
  | .decAbsx _ => .DEC
  | .inx => .INX
  | .iny => .INY
  | .dex => .DEX
  | .dey => .DEY
  | .bcc _ => .BCC
  | .bcs _ => .BCS
  | .beq _ => .BEQ
  | .bne _ => .BNE
  | .bmi _ => .BMI
  | .bpl _ => .BPL
  | .bvc _ => .BVC
  | .bvs _ => .BVS
  | .jmpAbs _ => .JMP
  | .jmpInd _ => .JMP
  | .pha => .PHA
  | .pla => .PLA
  | .php => .PHP
  | .plp => .PLP
  | .jsr _ => .JSR
  | .rts => .RTS
  | .brk => .BRK
  | .rti => .RTI
  | .clc => .CLC
  | .sec => .SEC
  | .cli => .CLI
  | .sei => .SEI
  | .cld => .CLD
  | .sed => .SED
  | .clv => .CLV
  | .nop => .NOP
  | .ldaImm _ => .LDA
  | .ldaZp _ => .LDA
  | .ldaZpx _ => .LDA
  | .ldaAbs _ => .LDA
  | .ldaAbsx _ => .LDA
  | .ldaAbsy _ => .LDA
  | .ldaIndx _ => .LDA
  | .ldaIndy _ => .LDA
  | .ldxImm _ => .LDX
  | .ldxZp _ => .LDX
  | .ldxZpy _ => .LDX
  | .ldxAbs _ => .LDX
  | .ldxAbsy _ => .LDX
  | .ldyImm _ => .LDY
  | .ldyZp _ => .LDY
  | .ldyZpx _ => .LDY
  | .ldyAbs _ => .LDY
  | .ldyAbsx _ => .LDY
  | .staZp _ => .STA
  | .staZpx _ => .STA
  | .staAbs _ => .STA
  | .staAbsx _ => .STA
  | .staAbsy _ => .STA
  | .staIndx _ => .STA
  | .staIndy _ => .STA
  | .stxZp _ => .STX
  | .stxZpy _ => .STX
  | .stxAbs _ => .STX
  | .styZp _ => .STY
  | .styZpx _ => .STY
  | .styAbs _ => .STY
  | .tax => .TAX
  | .tay => .TAY
  | .txa => .TXA
  | .tya => .TYA
  | .tsx => .TSX
  | .txs => .TXS

/-- The operand an entry carries. -/
def Instr.operand : Instr → Operand
  | .adcImm v => .imm v
  | .adcZp b => .mem (.zp b)
  | .adcZpx b => .mem (.zpx b)
  | .adcAbs w => .mem (.abs w)
  | .adcAbsx w => .mem (.absx w)
  | .adcAbsy w => .mem (.absy w)
  | .adcIndx b => .mem (.indx b)
  | .adcIndy b => .mem (.indy b)
  | .sbcImm v => .imm v
  | .sbcZp b => .mem (.zp b)
  | .sbcZpx b => .mem (.zpx b)
  | .sbcAbs w => .mem (.abs w)
  | .sbcAbsx w => .mem (.absx w)
  | .sbcAbsy w => .mem (.absy w)
  | .sbcIndx b => .mem (.indx b)
  | .sbcIndy b => .mem (.indy b)
  | .aslAcc => .acc
  | .aslZp b => .mem (.zp b)
  | .aslZpx b => .mem (.zpx b)
  | .aslAbs w => .mem (.abs w)
  | .aslAbsx w => .mem (.absx w)
  | .lsrAcc => .acc
  | .lsrZp b => .mem (.zp b)
  | .lsrZpx b => .mem (.zpx b)
  | .lsrAbs w => .mem (.abs w)
  | .lsrAbsx w => .mem (.absx w)
  | .rolAcc => .acc
  | .rolZp b => .mem (.zp b)
  | .rolZpx b => .mem (.zpx b)
  | .rolAbs w => .mem (.abs w)
  | .rolAbsx w => .mem (.absx w)
  | .rorAcc => .acc
  | .rorZp b => .mem (.zp b)
  | .rorZpx b => .mem (.zpx b)
  | .rorAbs w => .mem (.abs w)
  | .rorAbsx w => .mem (.absx w)
  | .andImm v => .imm v
  | .andZp b => .mem (.zp b)
  | .andZpx b => .mem (.zpx b)
  | .andAbs w => .mem (.abs w)
  | .andAbsx w => .mem (.absx w)
  | .andAbsy w => .mem (.absy w)
  | .andIndx b => .mem (.indx b)
  | .andIndy b => .mem (.indy b)
  | .oraImm v => .imm v
  | .oraZp b => .mem (.zp b)
  | .oraZpx b => .mem (.zpx b)
  | .oraAbs w => .mem (.abs w)
  | .oraAbsx w => .mem (.absx w)
  | .oraAbsy w => .mem (.absy w)
  | .oraIndx b => .mem (.indx b)
  | .oraIndy b => .mem (.indy b)
  | .eorImm v => .imm v
  | .eorZp b => .mem (.zp b)
  | .eorZpx b => .mem (.zpx b)
  | .eorAbs w => .mem (.abs w)
  | .eorAbsx w => .mem (.absx w)
  | .eorAbsy w => .mem (.absy w)
  | .eorIndx b => .mem (.indx b)
  | .eorIndy b => .mem (.indy b)
  | .bitZp b => .mem (.zp b)
  | .bitAbs w => .mem (.abs w)
  | .cmpImm v => .imm v
  | .cmpZp b => .mem (.zp b)
  | .cmpZpx b => .mem (.zpx b)
  | .cmpAbs w => .mem (.abs w)
  | .cmpAbsx w => .mem (.absx w)
  | .cmpAbsy w => .mem (.absy w)
  | .cmpIndx b => .mem (.indx b)
  | .cmpIndy b => .mem (.indy b)
  | .cpxImm v => .imm v
  | .cpxZp b => .mem (.zp b)
  | .cpxAbs w => .mem (.abs w)
  | .cpyImm v => .imm v
  | .cpyZp b => .mem (.zp b)
  | .cpyAbs w => .mem (.abs w)
  | .incZp b => .mem (.zp b)
  | .incZpx b => .mem (.zpx b)
  | .incAbs w => .mem (.abs w)
  | .incAbsx w => .mem (.absx w)
  | .decZp b => .mem (.zp b)
  | .decZpx b => .mem (.zpx b)
  | .decAbs w => .mem (.abs w)
  | .decAbsx w => .mem (.absx w)
  | .inx => .imp
  | .iny => .imp
  | .dex => .imp
  | .dey => .imp
  | .bcc d => .rel d
  | .bcs d => .rel d
  | .beq d => .rel d
  | .bne d => .rel d
  | .bmi d => .rel d
  | .bpl d => .rel d
  | .bvc d => .rel d
  | .bvs d => .rel d
  | .jmpAbs w => .mem (.abs w)
  | .jmpInd w => .ind w
  | .pha => .imp
  | .pla => .imp
  | .php => .imp
  | .plp => .imp
  | .jsr w => .mem (.abs w)
  | .rts => .imp
  | .brk => .imp
  | .rti => .imp
  | .clc => .imp
  | .sec => .imp
  | .cli => .imp
  | .sei => .imp
  | .cld => .imp
  | .sed => .imp
  | .clv => .imp
  | .nop => .imp
  | .ldaImm v => .imm v
  | .ldaZp b => .mem (.zp b)
  | .ldaZpx b => .mem (.zpx b)
  | .ldaAbs w => .mem (.abs w)
  | .ldaAbsx w => .mem (.absx w)
  | .ldaAbsy w => .mem (.absy w)
  | .ldaIndx b => .mem (.indx b)
  | .ldaIndy b => .mem (.indy b)
  | .ldxImm v => .imm v
  | .ldxZp b => .mem (.zp b)
  | .ldxZpy b => .mem (.zpy b)
  | .ldxAbs w => .mem (.abs w)
  | .ldxAbsy w => .mem (.absy w)
  | .ldyImm v => .imm v
  | .ldyZp b => .mem (.zp b)
  | .ldyZpx b => .mem (.zpx b)
  | .ldyAbs w => .mem (.abs w)
  | .ldyAbsx w => .mem (.absx w)
  | .staZp b => .mem (.zp b)
  | .staZpx b => .mem (.zpx b)
  | .staAbs w => .mem (.abs w)
  | .staAbsx w => .mem (.absx w)
  | .staAbsy w => .mem (.absy w)
  | .staIndx b => .mem (.indx b)
  | .staIndy b => .mem (.indy b)
  | .stxZp b => .mem (.zp b)
  | .stxZpy b => .mem (.zpy b)
  | .stxAbs w => .mem (.abs w)
  | .styZp b => .mem (.zp b)
  | .styZpx b => .mem (.zpx b)
  | .styAbs w => .mem (.abs w)
  | .tax => .imp
  | .tay => .imp
  | .txa => .imp
  | .tya => .imp
  | .tsx => .imp
  | .txs => .imp

/-- The addressing mode of an entry (R103). -/
def Instr.mode (i : Instr) : Mode := i.operand.mode

/-- The instruction's total length in bytes (R100, R101). -/
def Instr.length (i : Instr) : Nat := i.mode.length

end Sys2Proof
end

