-- ==== Sys2Proof/Machine/Operands.lean ====
section
/-! DEFINITION. The addressing-mode resolver (R143 to R151) and the operand helpers Load, Store and the read-modify-write
target (R153 to R155), each ending the step with the next state or the first access that failed. -/
namespace Sys2Proof.Machine

/-- The effective address of a memory operand, from the state in which the instruction executes (R143 to R148, R150,
R151). Zero-page sums wrap modulo 256 and 16-bit sums modulo 65536; INDX and INDY read their pointer from the zero page,
low byte first. -/
def effAddr (m : MemArg) (s : State) : Except Access Word := match m with
  | .zp b => .ok (zext b)
  | .zpx b => .ok (zext (b + s.x))
  | .zpy b => .ok (zext (b + s.y))
  | .abs w => .ok w
  | .absx w => .ok (w + zext s.x)
  | .absy w => .ok (w + zext s.y)
  | .indx b => readPair s (zext (b + s.x)) (zext (b + s.x + 1))
  | .indy b => match readPair s (zext b) (zext (b + 1)) with
    | .ok ptr => .ok (ptr + zext s.y)
    | .error e => .error e

/-- `Load()` of a memory operand: the pointer reads, then one read of ea (R153). -/
def load (m : MemArg) (s : State) : Except Access Byte := match effAddr m s with
  | .ok ea => memRead s ea
  | .error e => .error e

/-- `Store(v)`: the pointer reads, then one write of ea, no read of ea first (R154). -/
def store (m : MemArg) (v : Byte) (s : State) : Except Access State := match effAddr m s with
  | .ok ea => memWrite s ea v
  | .error e => .error e

/-- Read-modify-write of a memory target: read ea once, write ea once, then P (R155). `f` gives the new byte and status
from the byte read and P. -/
def modifyTarget (m : MemArg) (f : Byte → Byte → Shifted) (s : State) : Except Access State := match effAddr m s with
  | .error e => .error e
  | .ok ea => match memRead s ea with
    | .error e => .error e
    | .ok t => match memWrite s ea (f t s.p).value with
      | .error e => .error e
      | .ok u => .ok (setStatus (f t s.p).status u)

/-- The opcode's address PC0 of an instruction with this memory operand, PC being the fall-through address (R134). -/
def opcodeAddr (m : MemArg) (s : State) : Word := s.pc - BitVec.ofNat 16 m.mode.length

/-- An instruction that reads a memory operand and then acts on registers and flags. -/
def execRead (m : MemArg) (f : Byte → State → State) (s : State) : Host.Outcome State Fault Refusal :=
  conclude (opcodeAddr m s) (match load m s with
    | .ok v => .ok (f v s)
    | .error e => .error e)

/-- An instruction that stores a byte to a memory operand. -/
def execStore (m : MemArg) (v : Byte) (s : State) : Host.Outcome State Fault Refusal :=
  conclude (opcodeAddr m s) (store m v s)

/-- A read-modify-write instruction on memory. -/
def execModify (m : MemArg) (f : Byte → Byte → Shifted) (s : State) : Host.Outcome State Fault Refusal :=
  conclude (opcodeAddr m s) (modifyTarget m f s)

/-- A read-modify-write instruction on the accumulator (R141, R155). -/
def execModifyA (f : Byte → Byte → Shifted) (s : State) : Host.Outcome State Fault Refusal :=
  .next (setAStatus (f s.a s.p).value (f s.a s.p).status s)

end Sys2Proof.Machine
end

