-- ==== Sys2Proof/Machine/Arithmetic.lean ====
section
/-! DEFINITION. ADC and SBC (41_arithmetic.md). Binary at every value of D (R161). Each meaning runs with PC at the
fall-through address (R134). -/
namespace Sys2Proof.Machine

/-- ADC: A <- A + m + C, with C, V, Z, N (R170). -/
def adc (m : Byte) (s : State) : State :=
  let r := addWithCarry s.a m (getFlag s.p .C)
  setAStatus r.value (sumFlags r s.p) s

/-- SBC: as ADC with the operand's one's complement (R171). -/
def sbc (m : Byte) (s : State) : State := adc (m ^^^ 0xFF) s

/-- ADC Immediate (R170). -/
def execAdcImm (v : Byte) (s : State) : Host.Outcome State Fault Refusal := .next (adc v s)

/-- ADC Zero Page (R170). -/
def execAdcZp (b : Byte) (s : State) : Host.Outcome State Fault Refusal := execRead (.zp b) adc s

/-- ADC Zero Page,X (R170). -/
def execAdcZpx (b : Byte) (s : State) : Host.Outcome State Fault Refusal := execRead (.zpx b) adc s

/-- ADC Absolute (R170). -/
def execAdcAbs (w : Word) (s : State) : Host.Outcome State Fault Refusal := execRead (.abs w) adc s

/-- ADC Absolute,X (R170). -/
def execAdcAbsx (w : Word) (s : State) : Host.Outcome State Fault Refusal := execRead (.absx w) adc s

/-- ADC Absolute,Y (R170). -/
def execAdcAbsy (w : Word) (s : State) : Host.Outcome State Fault Refusal := execRead (.absy w) adc s

/-- ADC Indirect,X (R170). -/
def execAdcIndx (b : Byte) (s : State) : Host.Outcome State Fault Refusal := execRead (.indx b) adc s

/-- ADC Indirect,Y (R170). -/
def execAdcIndy (b : Byte) (s : State) : Host.Outcome State Fault Refusal := execRead (.indy b) adc s

/-- SBC Immediate (R171). -/
def execSbcImm (v : Byte) (s : State) : Host.Outcome State Fault Refusal := .next (sbc v s)

/-- SBC Zero Page (R171). -/
def execSbcZp (b : Byte) (s : State) : Host.Outcome State Fault Refusal := execRead (.zp b) sbc s

/-- SBC Zero Page,X (R171). -/
def execSbcZpx (b : Byte) (s : State) : Host.Outcome State Fault Refusal := execRead (.zpx b) sbc s

/-- SBC Absolute (R171). -/
def execSbcAbs (w : Word) (s : State) : Host.Outcome State Fault Refusal := execRead (.abs w) sbc s

/-- SBC Absolute,X (R171). -/
def execSbcAbsx (w : Word) (s : State) : Host.Outcome State Fault Refusal := execRead (.absx w) sbc s

/-- SBC Absolute,Y (R171). -/
def execSbcAbsy (w : Word) (s : State) : Host.Outcome State Fault Refusal := execRead (.absy w) sbc s

/-- SBC Indirect,X (R171). -/
def execSbcIndx (b : Byte) (s : State) : Host.Outcome State Fault Refusal := execRead (.indx b) sbc s

/-- SBC Indirect,Y (R171). -/
def execSbcIndy (b : Byte) (s : State) : Host.Outcome State Fault Refusal := execRead (.indy b) sbc s

end Sys2Proof.Machine
end

