-- ==== Sys2Proof/Machine/BranchJump.lean ====
section
/-! DEFINITION. The eight branches and JMP (46_branch_jump.md). Each meaning runs with PC at the
fall-through address (R134). -/
namespace Sys2Proof.Machine

/-- The common rule of the branches: PC moves by the displacement only if the condition holds; nothing else changes
(R220). PC is the fall-through address here (R134). -/
def branchIf (cond : Bool) (d : Byte) (s : State) : Host.Outcome State Fault Refusal :=
  .next (if cond then setPc (s.pc + sext d) s else s)

/-- Where an indirect JMP reads its pointer's high byte: the same page when `JMP_IND_PAGE_WRAP` (R149). -/
def pointerHigh (wrap : Bool) (w : Word) : Word := if wrap then word (hiByte w) (loByte w + 1) else w + 1

/-- The target of an indirect JMP (R149). -/
def indirectTarget (w : Word) (s : State) : Except Access Word := readPair s w (pointerHigh s.cfg.jmpIndPageWrap w)

/-- JMP indirect: PC <- ea read through the pointer (R229). -/
def jumpIndirect (w : Word) (s : State) : Except Access State := match indirectTarget w s with
  | .ok target => .ok (setPc target s)
  | .error e => .error e

/-- BCC Relative (R221). -/
def execBcc (d : Byte) (s : State) : Host.Outcome State Fault Refusal := branchIf (!getFlag s.p .C) d s

/-- BCS Relative (R222). -/
def execBcs (d : Byte) (s : State) : Host.Outcome State Fault Refusal := branchIf (getFlag s.p .C) d s

/-- BEQ Relative (R223). -/
def execBeq (d : Byte) (s : State) : Host.Outcome State Fault Refusal := branchIf (getFlag s.p .Z) d s

/-- BNE Relative (R224). -/
def execBne (d : Byte) (s : State) : Host.Outcome State Fault Refusal := branchIf (!getFlag s.p .Z) d s

/-- BMI Relative (R225). -/
def execBmi (d : Byte) (s : State) : Host.Outcome State Fault Refusal := branchIf (getFlag s.p .N) d s

/-- BPL Relative (R226). -/
def execBpl (d : Byte) (s : State) : Host.Outcome State Fault Refusal := branchIf (!getFlag s.p .N) d s

/-- BVC Relative (R227). -/
def execBvc (d : Byte) (s : State) : Host.Outcome State Fault Refusal := branchIf (!getFlag s.p .V) d s

/-- BVS Relative (R228). -/
def execBvs (d : Byte) (s : State) : Host.Outcome State Fault Refusal := branchIf (getFlag s.p .V) d s

/-- JMP Absolute (R229). -/
def execJmpAbs (w : Word) (s : State) : Host.Outcome State Fault Refusal := .next (setPc w s)

/-- JMP Indirect (R229). -/
def execJmpInd (w : Word) (s : State) : Host.Outcome State Fault Refusal := conclude (s.pc - 3) (jumpIndirect w s)

end Sys2Proof.Machine
end

