-- ==== Sys2Proof/Machine/Compare.lean ====
section
/-! DEFINITION. CMP, CPX, CPY (44_compare.md). Each meaning runs with PC at the
fall-through address (R134). -/
namespace Sys2Proof.Machine

/-- CMP: flags only (R201). -/
def cmpA (m : Byte) (s : State) : State := setStatus (compareFlags s.a m s.p) s

/-- CPX: flags only (R202). -/
def cmpX (m : Byte) (s : State) : State := setStatus (compareFlags s.x m s.p) s

/-- CPY: flags only (R203). -/
def cmpY (m : Byte) (s : State) : State := setStatus (compareFlags s.y m s.p) s

/-- CMP Immediate (R201). -/
def execCmpImm (v : Byte) (s : State) : Host.Outcome State Fault Refusal := .next (cmpA v s)

/-- CMP Zero Page (R201). -/
def execCmpZp (b : Byte) (s : State) : Host.Outcome State Fault Refusal := execRead (.zp b) cmpA s

/-- CMP Zero Page,X (R201). -/
def execCmpZpx (b : Byte) (s : State) : Host.Outcome State Fault Refusal := execRead (.zpx b) cmpA s

/-- CMP Absolute (R201). -/
def execCmpAbs (w : Word) (s : State) : Host.Outcome State Fault Refusal := execRead (.abs w) cmpA s

/-- CMP Absolute,X (R201). -/
def execCmpAbsx (w : Word) (s : State) : Host.Outcome State Fault Refusal := execRead (.absx w) cmpA s

/-- CMP Absolute,Y (R201). -/
def execCmpAbsy (w : Word) (s : State) : Host.Outcome State Fault Refusal := execRead (.absy w) cmpA s

/-- CMP Indirect,X (R201). -/
def execCmpIndx (b : Byte) (s : State) : Host.Outcome State Fault Refusal := execRead (.indx b) cmpA s

/-- CMP Indirect,Y (R201). -/
def execCmpIndy (b : Byte) (s : State) : Host.Outcome State Fault Refusal := execRead (.indy b) cmpA s

/-- CPX Immediate (R202). -/
def execCpxImm (v : Byte) (s : State) : Host.Outcome State Fault Refusal := .next (cmpX v s)

/-- CPX Zero Page (R202). -/
def execCpxZp (b : Byte) (s : State) : Host.Outcome State Fault Refusal := execRead (.zp b) cmpX s

/-- CPX Absolute (R202). -/
def execCpxAbs (w : Word) (s : State) : Host.Outcome State Fault Refusal := execRead (.abs w) cmpX s

/-- CPY Immediate (R203). -/
def execCpyImm (v : Byte) (s : State) : Host.Outcome State Fault Refusal := .next (cmpY v s)

/-- CPY Zero Page (R203). -/
def execCpyZp (b : Byte) (s : State) : Host.Outcome State Fault Refusal := execRead (.zp b) cmpY s

/-- CPY Absolute (R203). -/
def execCpyAbs (w : Word) (s : State) : Host.Outcome State Fault Refusal := execRead (.abs w) cmpY s

end Sys2Proof.Machine
end

