-- ==== Sys2Proof/Machine/FlagOps.lean ====
section
/-! DEFINITION. CLC, SEC, CLI, SEI, CLD, SED, CLV, NOP (48_flags_nop.md). Each meaning runs with PC at the
fall-through address (R134). -/
namespace Sys2Proof.Machine

/-- Set or clear exactly one flag; nothing else changes (48_flags_nop.md). -/
def withFlag (f : Flag) (v : Bool) (s : State) : Host.Outcome State Fault Refusal := .next (setStatus (setFlag f v s.p) s)

/-- CLC Implied (R260). -/
def execClc (s : State) : Host.Outcome State Fault Refusal := withFlag .C false s

/-- SEC Implied (R261). -/
def execSec (s : State) : Host.Outcome State Fault Refusal := withFlag .C true s

/-- CLI Implied (R262). -/
def execCli (s : State) : Host.Outcome State Fault Refusal := withFlag .I false s

/-- SEI Implied (R263). -/
def execSei (s : State) : Host.Outcome State Fault Refusal := withFlag .I true s

/-- CLD Implied (R264). -/
def execCld (s : State) : Host.Outcome State Fault Refusal := withFlag .D false s

/-- SED Implied (R265). -/
def execSed (s : State) : Host.Outcome State Fault Refusal := withFlag .D true s

/-- CLV Implied (R266). -/
def execClv (s : State) : Host.Outcome State Fault Refusal := withFlag .V false s

/-- NOP Implied (R267). -/
def execNop (s : State) : Host.Outcome State Fault Refusal := .next s

end Sys2Proof.Machine
end

