-- ==== Sys2Proof/Machine/IncDec.lean ====
section
/-! DEFINITION. INC, DEC on memory; INX, INY, DEX, DEY (45_increment_decrement.md). Each meaning runs with PC at the
fall-through address (R134). -/
namespace Sys2Proof.Machine

/-- INC Zero Page (R210). -/
def execIncZp (b : Byte) (s : State) : Host.Outcome State Fault Refusal := execModify (.zp b) incremented s

/-- INC Zero Page,X (R210). -/
def execIncZpx (b : Byte) (s : State) : Host.Outcome State Fault Refusal := execModify (.zpx b) incremented s

/-- INC Absolute (R210). -/
def execIncAbs (w : Word) (s : State) : Host.Outcome State Fault Refusal := execModify (.abs w) incremented s

/-- INC Absolute,X (R210). -/
def execIncAbsx (w : Word) (s : State) : Host.Outcome State Fault Refusal := execModify (.absx w) incremented s

/-- DEC Zero Page (R211). -/
def execDecZp (b : Byte) (s : State) : Host.Outcome State Fault Refusal := execModify (.zp b) decremented s

/-- DEC Zero Page,X (R211). -/
def execDecZpx (b : Byte) (s : State) : Host.Outcome State Fault Refusal := execModify (.zpx b) decremented s

/-- DEC Absolute (R211). -/
def execDecAbs (w : Word) (s : State) : Host.Outcome State Fault Refusal := execModify (.abs w) decremented s

/-- DEC Absolute,X (R211). -/
def execDecAbsx (w : Word) (s : State) : Host.Outcome State Fault Refusal := execModify (.absx w) decremented s

/-- INX Implied (R212). -/
def execInx (s : State) : Host.Outcome State Fault Refusal := .next (writeX (s.x + 1) s)

/-- INY Implied (R213). -/
def execIny (s : State) : Host.Outcome State Fault Refusal := .next (writeY (s.y + 1) s)

/-- DEX Implied (R214). -/
def execDex (s : State) : Host.Outcome State Fault Refusal := .next (writeX (s.x - 1) s)

/-- DEY Implied (R215). -/
def execDey (s : State) : Host.Outcome State Fault Refusal := .next (writeY (s.y - 1) s)

end Sys2Proof.Machine
end

