-- ==== Sys2Proof/Machine/LoadStore.lean ====
section
/-! DEFINITION. LDA, LDX, LDY, STA, STX, STY and the register transfers (49_load_store_transfer.md). Each meaning runs with PC at the
fall-through address (R134). -/
namespace Sys2Proof.Machine

/-- LDA Immediate (R270). -/
def execLdaImm (v : Byte) (s : State) : Host.Outcome State Fault Refusal := .next (writeA v s)

/-- LDA Zero Page (R270). -/
def execLdaZp (b : Byte) (s : State) : Host.Outcome State Fault Refusal := execRead (.zp b) writeA s

/-- LDA Zero Page,X (R270). -/
def execLdaZpx (b : Byte) (s : State) : Host.Outcome State Fault Refusal := execRead (.zpx b) writeA s

/-- LDA Absolute (R270). -/
def execLdaAbs (w : Word) (s : State) : Host.Outcome State Fault Refusal := execRead (.abs w) writeA s

/-- LDA Absolute,X (R270). -/
def execLdaAbsx (w : Word) (s : State) : Host.Outcome State Fault Refusal := execRead (.absx w) writeA s

/-- LDA Absolute,Y (R270). -/
def execLdaAbsy (w : Word) (s : State) : Host.Outcome State Fault Refusal := execRead (.absy w) writeA s

/-- LDA Indirect,X (R270). -/
def execLdaIndx (b : Byte) (s : State) : Host.Outcome State Fault Refusal := execRead (.indx b) writeA s

/-- LDA Indirect,Y (R270). -/
def execLdaIndy (b : Byte) (s : State) : Host.Outcome State Fault Refusal := execRead (.indy b) writeA s

/-- LDX Immediate (R271). -/
def execLdxImm (v : Byte) (s : State) : Host.Outcome State Fault Refusal := .next (writeX v s)

/-- LDX Zero Page (R271). -/
def execLdxZp (b : Byte) (s : State) : Host.Outcome State Fault Refusal := execRead (.zp b) writeX s

/-- LDX Zero Page,Y (R271). -/
def execLdxZpy (b : Byte) (s : State) : Host.Outcome State Fault Refusal := execRead (.zpy b) writeX s

/-- LDX Absolute (R271). -/
def execLdxAbs (w : Word) (s : State) : Host.Outcome State Fault Refusal := execRead (.abs w) writeX s

/-- LDX Absolute,Y (R271). -/
def execLdxAbsy (w : Word) (s : State) : Host.Outcome State Fault Refusal := execRead (.absy w) writeX s

/-- LDY Immediate (R272). -/
def execLdyImm (v : Byte) (s : State) : Host.Outcome State Fault Refusal := .next (writeY v s)

/-- LDY Zero Page (R272). -/
def execLdyZp (b : Byte) (s : State) : Host.Outcome State Fault Refusal := execRead (.zp b) writeY s

/-- LDY Zero Page,X (R272). -/
def execLdyZpx (b : Byte) (s : State) : Host.Outcome State Fault Refusal := execRead (.zpx b) writeY s

/-- LDY Absolute (R272). -/
def execLdyAbs (w : Word) (s : State) : Host.Outcome State Fault Refusal := execRead (.abs w) writeY s

/-- LDY Absolute,X (R272). -/
def execLdyAbsx (w : Word) (s : State) : Host.Outcome State Fault Refusal := execRead (.absx w) writeY s

/-- STA Zero Page (R273). -/
def execStaZp (b : Byte) (s : State) : Host.Outcome State Fault Refusal := execStore (.zp b) s.a s

/-- STA Zero Page,X (R273). -/
def execStaZpx (b : Byte) (s : State) : Host.Outcome State Fault Refusal := execStore (.zpx b) s.a s

/-- STA Absolute (R273). -/
def execStaAbs (w : Word) (s : State) : Host.Outcome State Fault Refusal := execStore (.abs w) s.a s

/-- STA Absolute,X (R273). -/
def execStaAbsx (w : Word) (s : State) : Host.Outcome State Fault Refusal := execStore (.absx w) s.a s

/-- STA Absolute,Y (R273). -/
def execStaAbsy (w : Word) (s : State) : Host.Outcome State Fault Refusal := execStore (.absy w) s.a s

/-- STA Indirect,X (R273). -/
def execStaIndx (b : Byte) (s : State) : Host.Outcome State Fault Refusal := execStore (.indx b) s.a s

/-- STA Indirect,Y (R273). -/
def execStaIndy (b : Byte) (s : State) : Host.Outcome State Fault Refusal := execStore (.indy b) s.a s

/-- STX Zero Page (R274). -/
def execStxZp (b : Byte) (s : State) : Host.Outcome State Fault Refusal := execStore (.zp b) s.x s

/-- STX Zero Page,Y (R274). -/
def execStxZpy (b : Byte) (s : State) : Host.Outcome State Fault Refusal := execStore (.zpy b) s.x s

/-- STX Absolute (R274). -/
def execStxAbs (w : Word) (s : State) : Host.Outcome State Fault Refusal := execStore (.abs w) s.x s

/-- STY Zero Page (R275). -/
def execStyZp (b : Byte) (s : State) : Host.Outcome State Fault Refusal := execStore (.zp b) s.y s

/-- STY Zero Page,X (R275). -/
def execStyZpx (b : Byte) (s : State) : Host.Outcome State Fault Refusal := execStore (.zpx b) s.y s

/-- STY Absolute (R275). -/
def execStyAbs (w : Word) (s : State) : Host.Outcome State Fault Refusal := execStore (.abs w) s.y s

/-- TAX Implied (R276). -/
def execTax (s : State) : Host.Outcome State Fault Refusal := .next (writeX s.a s)

/-- TAY Implied (R277). -/
def execTay (s : State) : Host.Outcome State Fault Refusal := .next (writeY s.a s)

/-- TXA Implied (R278). -/
def execTxa (s : State) : Host.Outcome State Fault Refusal := .next (writeA s.x s)

/-- TYA Implied (R279). -/
def execTya (s : State) : Host.Outcome State Fault Refusal := .next (writeA s.y s)

/-- TSX Implied (R280). -/
def execTsx (s : State) : Host.Outcome State Fault Refusal := .next (writeX s.sp s)

/-- TXS Implied (R281). -/
def execTxs (s : State) : Host.Outcome State Fault Refusal := .next (setSp s.x s)

end Sys2Proof.Machine
end

