-- ==== Sys2Proof/Machine/Logical.lean ====
section
/-! DEFINITION. AND, ORA, EOR, BIT (43_logical.md). Carry is not written (C1). Each meaning runs with PC at the
fall-through address (R134). -/
namespace Sys2Proof.Machine

/-- AND (R190). -/
def andA (m : Byte) (s : State) : State := writeA (s.a &&& m) s

/-- ORA (R191). -/
def oraA (m : Byte) (s : State) : State := writeA (s.a ||| m) s

/-- EOR (R192). -/
def eorA (m : Byte) (s : State) : State := writeA (s.a ^^^ m) s

/-- BIT: flags only (R193). -/
def bitA (m : Byte) (s : State) : State := setStatus (bitTestFlags s.a m s.p) s

/-- AND Immediate (R190). -/
def execAndImm (v : Byte) (s : State) : Host.Outcome State Fault Refusal := .next (andA v s)

/-- AND Zero Page (R190). -/
def execAndZp (b : Byte) (s : State) : Host.Outcome State Fault Refusal := execRead (.zp b) andA s

/-- AND Zero Page,X (R190). -/
def execAndZpx (b : Byte) (s : State) : Host.Outcome State Fault Refusal := execRead (.zpx b) andA s

/-- AND Absolute (R190). -/
def execAndAbs (w : Word) (s : State) : Host.Outcome State Fault Refusal := execRead (.abs w) andA s

/-- AND Absolute,X (R190). -/
def execAndAbsx (w : Word) (s : State) : Host.Outcome State Fault Refusal := execRead (.absx w) andA s

/-- AND Absolute,Y (R190). -/
def execAndAbsy (w : Word) (s : State) : Host.Outcome State Fault Refusal := execRead (.absy w) andA s

/-- AND Indirect,X (R190). -/
def execAndIndx (b : Byte) (s : State) : Host.Outcome State Fault Refusal := execRead (.indx b) andA s

/-- AND Indirect,Y (R190). -/
def execAndIndy (b : Byte) (s : State) : Host.Outcome State Fault Refusal := execRead (.indy b) andA s

/-- ORA Immediate (R191). -/
def execOraImm (v : Byte) (s : State) : Host.Outcome State Fault Refusal := .next (oraA v s)

/-- ORA Zero Page (R191). -/
def execOraZp (b : Byte) (s : State) : Host.Outcome State Fault Refusal := execRead (.zp b) oraA s

/-- ORA Zero Page,X (R191). -/
def execOraZpx (b : Byte) (s : State) : Host.Outcome State Fault Refusal := execRead (.zpx b) oraA s

/-- ORA Absolute (R191). -/
def execOraAbs (w : Word) (s : State) : Host.Outcome State Fault Refusal := execRead (.abs w) oraA s

/-- ORA Absolute,X (R191). -/
def execOraAbsx (w : Word) (s : State) : Host.Outcome State Fault Refusal := execRead (.absx w) oraA s

/-- ORA Absolute,Y (R191). -/
def execOraAbsy (w : Word) (s : State) : Host.Outcome State Fault Refusal := execRead (.absy w) oraA s

/-- ORA Indirect,X (R191). -/
def execOraIndx (b : Byte) (s : State) : Host.Outcome State Fault Refusal := execRead (.indx b) oraA s

/-- ORA Indirect,Y (R191). -/
def execOraIndy (b : Byte) (s : State) : Host.Outcome State Fault Refusal := execRead (.indy b) oraA s

/-- EOR Immediate (R192). -/
def execEorImm (v : Byte) (s : State) : Host.Outcome State Fault Refusal := .next (eorA v s)

/-- EOR Zero Page (R192). -/
def execEorZp (b : Byte) (s : State) : Host.Outcome State Fault Refusal := execRead (.zp b) eorA s

/-- EOR Zero Page,X (R192). -/
def execEorZpx (b : Byte) (s : State) : Host.Outcome State Fault Refusal := execRead (.zpx b) eorA s

/-- EOR Absolute (R192). -/
def execEorAbs (w : Word) (s : State) : Host.Outcome State Fault Refusal := execRead (.abs w) eorA s

/-- EOR Absolute,X (R192). -/
def execEorAbsx (w : Word) (s : State) : Host.Outcome State Fault Refusal := execRead (.absx w) eorA s

/-- EOR Absolute,Y (R192). -/
def execEorAbsy (w : Word) (s : State) : Host.Outcome State Fault Refusal := execRead (.absy w) eorA s

/-- EOR Indirect,X (R192). -/
def execEorIndx (b : Byte) (s : State) : Host.Outcome State Fault Refusal := execRead (.indx b) eorA s

/-- EOR Indirect,Y (R192). -/
def execEorIndy (b : Byte) (s : State) : Host.Outcome State Fault Refusal := execRead (.indy b) eorA s

/-- BIT Zero Page (R193). -/
def execBitZp (b : Byte) (s : State) : Host.Outcome State Fault Refusal := execRead (.zp b) bitA s

/-- BIT Absolute (R193). -/
def execBitAbs (w : Word) (s : State) : Host.Outcome State Fault Refusal := execRead (.abs w) bitA s

end Sys2Proof.Machine
end

