-- ==== Sys2Proof/Machine/ShiftRotate.lean ====
section
/-! DEFINITION. ASL, LSR, ROL, ROR on the accumulator or on memory (42_shift_rotate.md). Each meaning runs with PC at the
fall-through address (R134). -/
namespace Sys2Proof.Machine

/-- ASL Accumulator (R181). -/
def execAslAcc (s : State) : Host.Outcome State Fault Refusal := execModifyA shiftLeft s

/-- ASL Zero Page (R181). -/
def execAslZp (b : Byte) (s : State) : Host.Outcome State Fault Refusal := execModify (.zp b) shiftLeft s

/-- ASL Zero Page,X (R181). -/
def execAslZpx (b : Byte) (s : State) : Host.Outcome State Fault Refusal := execModify (.zpx b) shiftLeft s

/-- ASL Absolute (R181). -/
def execAslAbs (w : Word) (s : State) : Host.Outcome State Fault Refusal := execModify (.abs w) shiftLeft s

/-- ASL Absolute,X (R181). -/
def execAslAbsx (w : Word) (s : State) : Host.Outcome State Fault Refusal := execModify (.absx w) shiftLeft s

/-- LSR Accumulator (R182). -/
def execLsrAcc (s : State) : Host.Outcome State Fault Refusal := execModifyA shiftRight s

/-- LSR Zero Page (R182). -/
def execLsrZp (b : Byte) (s : State) : Host.Outcome State Fault Refusal := execModify (.zp b) shiftRight s

/-- LSR Zero Page,X (R182). -/
def execLsrZpx (b : Byte) (s : State) : Host.Outcome State Fault Refusal := execModify (.zpx b) shiftRight s

/-- LSR Absolute (R182). -/
def execLsrAbs (w : Word) (s : State) : Host.Outcome State Fault Refusal := execModify (.abs w) shiftRight s

/-- LSR Absolute,X (R182). -/
def execLsrAbsx (w : Word) (s : State) : Host.Outcome State Fault Refusal := execModify (.absx w) shiftRight s

/-- ROL Accumulator (R183). -/
def execRolAcc (s : State) : Host.Outcome State Fault Refusal := execModifyA rotateLeft s

/-- ROL Zero Page (R183). -/
def execRolZp (b : Byte) (s : State) : Host.Outcome State Fault Refusal := execModify (.zp b) rotateLeft s

/-- ROL Zero Page,X (R183). -/
def execRolZpx (b : Byte) (s : State) : Host.Outcome State Fault Refusal := execModify (.zpx b) rotateLeft s

/-- ROL Absolute (R183). -/
def execRolAbs (w : Word) (s : State) : Host.Outcome State Fault Refusal := execModify (.abs w) rotateLeft s

/-- ROL Absolute,X (R183). -/
def execRolAbsx (w : Word) (s : State) : Host.Outcome State Fault Refusal := execModify (.absx w) rotateLeft s

/-- ROR Accumulator (R184). -/
def execRorAcc (s : State) : Host.Outcome State Fault Refusal := execModifyA rotateRight s

/-- ROR Zero Page (R184). -/
def execRorZp (b : Byte) (s : State) : Host.Outcome State Fault Refusal := execModify (.zp b) rotateRight s

/-- ROR Zero Page,X (R184). -/
def execRorZpx (b : Byte) (s : State) : Host.Outcome State Fault Refusal := execModify (.zpx b) rotateRight s

/-- ROR Absolute (R184). -/
def execRorAbs (w : Word) (s : State) : Host.Outcome State Fault Refusal := execModify (.abs w) rotateRight s

/-- ROR Absolute,X (R184). -/
def execRorAbsx (w : Word) (s : State) : Host.Outcome State Fault Refusal := execModify (.absx w) rotateRight s

end Sys2Proof.Machine
end

