-- ==== Sys2Proof/Machine/Stack.lean ====
section
/-! DEFINITION. PHA, PLA, PHP, PLP, JSR, RTS, BRK, RTI (47_stack_subroutine_interrupt.md). Each meaning runs with PC at the
fall-through address (R134). -/
namespace Sys2Proof.Machine

/-- PLA after its pull: A <- v with Z and N (R243). -/
def pullA (s : State) : Except Access State := match pull s with
  | .ok (v, t) => .ok (writeA v t)
  | .error e => .error e

/-- PLP after its pull (R245). -/
def pullP (s : State) : Except Access State := match pull s with
  | .ok (v, t) => .ok (setStatus (pulledStatus v t.p) t)
  | .error e => .error e

/-- The return address JSR pushes (R246): the address of its last byte under HW, the next instruction's under LITERAL. -/
def returnAddress (c : ReturnConvention) (pc : Word) : Word := match c with
  | .hw => pc - 1
  | .literal => pc

/-- The address RTS resumes at (R247). -/
def resumeAddress (c : ReturnConvention) (w : Word) : Word := match c with
  | .hw => w + 1
  | .literal => w

/-- JSR: push the return address, high byte first, then jump (R246). -/
def callTo (target : Word) (s : State) : Except Access State := match pushWord (returnAddress s.cfg.jsrReturn s.pc) s with
  | .ok t => .ok (setPc target t)
  | .error e => .error e

/-- RTS: pull the return address, low byte first, and resume (R247). -/
def returnFromCall (s : State) : Except Access State := match pullWord s with
  | .ok (w, t) => .ok (setPc (resumeAddress s.cfg.jsrReturn w) t)
  | .error e => .error e

/-- BRK: enter the handler at `BRK_VECTOR` with return address PC0 + 2 (PC is PC0 + 1 here) and B = 1 in the pushed
byte (R248). -/
def breakEntry (s : State) : Except Access State :=
  enterHandler (s.pc + 1) (pushedByProgram s.p) s.cfg.brkVector s

/-- PHA Implied (R242). -/
def execPha (s : State) : Host.Outcome State Fault Refusal := conclude (s.pc - 1) (push s.a s)

/-- PLA Implied (R243). -/
def execPla (s : State) : Host.Outcome State Fault Refusal := conclude (s.pc - 1) (pullA s)

/-- PHP Implied (R244). -/
def execPhp (s : State) : Host.Outcome State Fault Refusal := conclude (s.pc - 1) (push (pushedByProgram s.p) s)

/-- PLP Implied (R245). -/
def execPlp (s : State) : Host.Outcome State Fault Refusal := conclude (s.pc - 1) (pullP s)

/-- JSR Absolute (R246). -/
def execJsr (w : Word) (s : State) : Host.Outcome State Fault Refusal := conclude (s.pc - 3) (callTo w s)

/-- RTS Implied (R247). -/
def execRts (s : State) : Host.Outcome State Fault Refusal := conclude (s.pc - 1) (returnFromCall s)

/-- BRK Implied (R248). -/
def execBrk (s : State) : Host.Outcome State Fault Refusal := conclude (s.pc - 1) (breakEntry s)

/-- RTI Implied (R249). -/
def execRti (s : State) : Host.Outcome State Fault Refusal := conclude (s.pc - 1) (returnFromHandler s)

end Sys2Proof.Machine
end

