-- ==== Sys2Proof/WellFormed.lean ====
section
/-! DEFINITION. Well-formedness of a symbolic instruction, as the program builder writes it (R103, R107, R110): a
(mnemonic, mode) pair the catalog declares, with an operand in the mode's range. The constructors of Instr carry exactly
declared pairs and bytes, so each of them is well formed; the checks below are what keeps an undeclared pair or an operand
that does not fit from becoming one. -/
namespace Sys2Proof

/-- An instruction as the builder writes it: nothing in its type keeps the pair legal or the operand in range. -/
structure SymInstr where
  mnemonic : Mnemonic
  mode     : Mode
  operand  : Int
deriving DecidableEq, Repr

/-- The modes the catalog declares for each mnemonic (R104's table by mnemonic). -/
def Mnemonic.modes : Mnemonic → List Mode
  | .ADC => [.IMM, .ZP, .ZPX, .ABS, .ABSX, .ABSY, .INDX, .INDY]
  | .SBC => [.IMM, .ZP, .ZPX, .ABS, .ABSX, .ABSY, .INDX, .INDY]
  | .ASL => [.ACC, .ZP, .ZPX, .ABS, .ABSX]
  | .LSR => [.ACC, .ZP, .ZPX, .ABS, .ABSX]
  | .ROL => [.ACC, .ZP, .ZPX, .ABS, .ABSX]
  | .ROR => [.ACC, .ZP, .ZPX, .ABS, .ABSX]
  | .AND => [.IMM, .ZP, .ZPX, .ABS, .ABSX, .ABSY, .INDX, .INDY]
  | .ORA => [.IMM, .ZP, .ZPX, .ABS, .ABSX, .ABSY, .INDX, .INDY]
  | .EOR => [.IMM, .ZP, .ZPX, .ABS, .ABSX, .ABSY, .INDX, .INDY]
  | .BIT => [.ZP, .ABS]
  | .CMP => [.IMM, .ZP, .ZPX, .ABS, .ABSX, .ABSY, .INDX, .INDY]
  | .CPX => [.IMM, .ZP, .ABS]
  | .CPY => [.IMM, .ZP, .ABS]
  | .INC => [.ZP, .ZPX, .ABS, .ABSX]
  | .DEC => [.ZP, .ZPX, .ABS, .ABSX]
  | .INX => [.IMP]
  | .INY => [.IMP]
  | .DEX => [.IMP]
  | .DEY => [.IMP]
  | .BCC => [.REL]
  | .BCS => [.REL]
  | .BEQ => [.REL]
  | .BNE => [.REL]
  | .BMI => [.REL]
  | .BPL => [.REL]
  | .BVC => [.REL]
  | .BVS => [.REL]
  | .JMP => [.ABS, .IND]
  | .PHA => [.IMP]
  | .PLA => [.IMP]
  | .PHP => [.IMP]
  | .PLP => [.IMP]
  | .JSR => [.ABS]
  | .RTS => [.IMP]
  | .BRK => [.IMP]
  | .RTI => [.IMP]
  | .CLC => [.IMP]
  | .SEC => [.IMP]
  | .CLI => [.IMP]
  | .SEI => [.IMP]
  | .CLD => [.IMP]
  | .SED => [.IMP]
  | .CLV => [.IMP]
  | .NOP => [.IMP]
  | .LDA => [.IMM, .ZP, .ZPX, .ABS, .ABSX, .ABSY, .INDX, .INDY]
  | .LDX => [.IMM, .ZP, .ZPY, .ABS, .ABSY]
  | .LDY => [.IMM, .ZP, .ZPX, .ABS, .ABSX]
  | .STA => [.ZP, .ZPX, .ABS, .ABSX, .ABSY, .INDX, .INDY]
  | .STX => [.ZP, .ZPY, .ABS]
  | .STY => [.ZP, .ZPX, .ABS]
  | .TAX => [.IMP]
  | .TAY => [.IMP]
  | .TXA => [.IMP]
  | .TYA => [.IMP]
  | .TSX => [.IMP]
  | .TXS => [.IMP]

/-- The lowest operand value of a mode: a displacement is signed (R102). -/
def Mode.operandMin : Mode → Int
  | .REL => -128
  | _ => 0

/-- The highest operand value of a mode: none is 0, a byte 255, an address 65535, a displacement 127 (R102). -/
def Mode.operandMax (md : Mode) : Int := match md with
  | .REL => 127
  | _ => match md.length with
    | 1 => 0
    | 2 => 255
    | _ => 65535

/-- Check 1: the mode is legal for the mnemonic (R103, invariant 3). -/
def SymInstr.pairLegal (i : SymInstr) : Bool := i.mnemonic.modes.contains i.mode

/-- Check 2: the operand is not below the mode's range (R102): a displacement by R110, any other operand by DESIGN CHOICE
(log entry 28). -/
def SymInstr.operandAtLeast (i : SymInstr) : Bool := decide (i.mode.operandMin ≤ i.operand)

/-- Check 3: the operand is not above the mode's range (R102): a displacement by R110, any other operand by DESIGN CHOICE
(log entry 28). -/
def SymInstr.operandAtMost (i : SymInstr) : Bool := decide (i.operand ≤ i.mode.operandMax)

/-- A symbolic instruction that stands for a catalog entry with its operand bytes. -/
def SymInstr.wf (i : SymInstr) : Bool := i.pairLegal && i.operandAtLeast && i.operandAtMost

/-- The operand of an instruction as the builder's number. -/
def Operand.value : Operand → Int
  | .imp => 0
  | .acc => 0
  | .imm v => v.toNat
  | .mem (.zp b) => b.toNat
  | .mem (.zpx b) => b.toNat
  | .mem (.zpy b) => b.toNat
  | .mem (.abs w) => w.toNat
  | .mem (.absx w) => w.toNat
  | .mem (.absy w) => w.toNat
  | .mem (.indx b) => b.toNat
  | .mem (.indy b) => b.toNat
  | .ind w => w.toNat
  | .rel d => d.toInt

/-- The symbolic form of an instruction. -/
def Instr.toSym (i : Instr) : SymInstr := { mnemonic := i.mnemonic, mode := i.mode, operand := i.operand.value }

/-- An instruction is well formed when its symbolic form is. -/
def Instr.wf (i : Instr) : Bool := i.toSym.wf

end Sys2Proof
end

