-- ==== Sys2Proof/Decode.lean ====
section
/-! DEFINITION. The catalog as a list of rows (R103, R104), the decoder by opcode byte (R106), total on any bytes and
rejecting by name, and the encoder. -/
namespace Sys2Proof

/-- What an entry makes of its operand bytes: nothing, one byte, or a Word from low byte and high byte (R102). -/
inductive Shape where
  | none (i : Instr)
  | byte (f : Byte → Instr)
  | word (f : Word → Instr)

/-- A catalog entry (R103) with the constructor it stands for. -/
structure Row where
  opcode   : Byte
  mnemonic : Mnemonic
  mode     : Mode
  shape    : Shape

/-- Row 0_ of the opcode map (R104). -/
def catalog0 : List Row := [
  ⟨0x00, .BRK, .IMP, .none .brk⟩,
  ⟨0x01, .ORA, .INDX, .byte .oraIndx⟩,
  ⟨0x05, .ORA, .ZP, .byte .oraZp⟩,
  ⟨0x06, .ASL, .ZP, .byte .aslZp⟩,
  ⟨0x08, .PHP, .IMP, .none .php⟩,
  ⟨0x09, .ORA, .IMM, .byte .oraImm⟩,
  ⟨0x0A, .ASL, .ACC, .none .aslAcc⟩,
  ⟨0x0D, .ORA, .ABS, .word .oraAbs⟩,
  ⟨0x0E, .ASL, .ABS, .word .aslAbs⟩]

/-- Row 1_ of the opcode map (R104). -/
def catalog1 : List Row := [
  ⟨0x10, .BPL, .REL, .byte .bpl⟩,
  ⟨0x11, .ORA, .INDY, .byte .oraIndy⟩,
  ⟨0x15, .ORA, .ZPX, .byte .oraZpx⟩,
  ⟨0x16, .ASL, .ZPX, .byte .aslZpx⟩,
  ⟨0x18, .CLC, .IMP, .none .clc⟩,
  ⟨0x19, .ORA, .ABSY, .word .oraAbsy⟩,
  ⟨0x1D, .ORA, .ABSX, .word .oraAbsx⟩,
  ⟨0x1E, .ASL, .ABSX, .word .aslAbsx⟩]

/-- Row 2_ of the opcode map (R104). -/
def catalog2 : List Row := [
  ⟨0x20, .JSR, .ABS, .word .jsr⟩,
  ⟨0x21, .AND, .INDX, .byte .andIndx⟩,
  ⟨0x24, .BIT, .ZP, .byte .bitZp⟩,
  ⟨0x25, .AND, .ZP, .byte .andZp⟩,
  ⟨0x26, .ROL, .ZP, .byte .rolZp⟩,
  ⟨0x28, .PLP, .IMP, .none .plp⟩,
  ⟨0x29, .AND, .IMM, .byte .andImm⟩,
  ⟨0x2A, .ROL, .ACC, .none .rolAcc⟩,
  ⟨0x2C, .BIT, .ABS, .word .bitAbs⟩,
  ⟨0x2D, .AND, .ABS, .word .andAbs⟩,
  ⟨0x2E, .ROL, .ABS, .word .rolAbs⟩]

/-- Row 3_ of the opcode map (R104). -/
def catalog3 : List Row := [
  ⟨0x30, .BMI, .REL, .byte .bmi⟩,
  ⟨0x31, .AND, .INDY, .byte .andIndy⟩,
  ⟨0x35, .AND, .ZPX, .byte .andZpx⟩,
  ⟨0x36, .ROL, .ZPX, .byte .rolZpx⟩,
  ⟨0x38, .SEC, .IMP, .none .sec⟩,
  ⟨0x39, .AND, .ABSY, .word .andAbsy⟩,
  ⟨0x3D, .AND, .ABSX, .word .andAbsx⟩,
  ⟨0x3E, .ROL, .ABSX, .word .rolAbsx⟩]

/-- Row 4_ of the opcode map (R104). -/
def catalog4 : List Row := [
  ⟨0x40, .RTI, .IMP, .none .rti⟩,
  ⟨0x41, .EOR, .INDX, .byte .eorIndx⟩,
  ⟨0x45, .EOR, .ZP, .byte .eorZp⟩,
  ⟨0x46, .LSR, .ZP, .byte .lsrZp⟩,
  ⟨0x48, .PHA, .IMP, .none .pha⟩,
  ⟨0x49, .EOR, .IMM, .byte .eorImm⟩,
  ⟨0x4A, .LSR, .ACC, .none .lsrAcc⟩,
  ⟨0x4C, .JMP, .ABS, .word .jmpAbs⟩,
  ⟨0x4D, .EOR, .ABS, .word .eorAbs⟩,
  ⟨0x4E, .LSR, .ABS, .word .lsrAbs⟩]

/-- Row 5_ of the opcode map (R104). -/
def catalog5 : List Row := [
  ⟨0x50, .BVC, .REL, .byte .bvc⟩,
  ⟨0x51, .EOR, .INDY, .byte .eorIndy⟩,
  ⟨0x55, .EOR, .ZPX, .byte .eorZpx⟩,
  ⟨0x56, .LSR, .ZPX, .byte .lsrZpx⟩,
  ⟨0x58, .CLI, .IMP, .none .cli⟩,
  ⟨0x59, .EOR, .ABSY, .word .eorAbsy⟩,
  ⟨0x5D, .EOR, .ABSX, .word .eorAbsx⟩,
  ⟨0x5E, .LSR, .ABSX, .word .lsrAbsx⟩]

/-- Row 6_ of the opcode map (R104). -/
def catalog6 : List Row := [
  ⟨0x60, .RTS, .IMP, .none .rts⟩,
  ⟨0x61, .ADC, .INDX, .byte .adcIndx⟩,
  ⟨0x65, .ADC, .ZP, .byte .adcZp⟩,
  ⟨0x66, .ROR, .ZP, .byte .rorZp⟩,
  ⟨0x68, .PLA, .IMP, .none .pla⟩,
  ⟨0x69, .ADC, .IMM, .byte .adcImm⟩,
  ⟨0x6A, .ROR, .ACC, .none .rorAcc⟩,
  ⟨0x6C, .JMP, .IND, .word .jmpInd⟩,
  ⟨0x6D, .ADC, .ABS, .word .adcAbs⟩,
  ⟨0x6E, .ROR, .ABS, .word .rorAbs⟩]

/-- Row 7_ of the opcode map (R104). -/
def catalog7 : List Row := [
  ⟨0x70, .BVS, .REL, .byte .bvs⟩,
  ⟨0x71, .ADC, .INDY, .byte .adcIndy⟩,
  ⟨0x75, .ADC, .ZPX, .byte .adcZpx⟩,
  ⟨0x76, .ROR, .ZPX, .byte .rorZpx⟩,
  ⟨0x78, .SEI, .IMP, .none .sei⟩,
  ⟨0x79, .ADC, .ABSY, .word .adcAbsy⟩,
  ⟨0x7D, .ADC, .ABSX, .word .adcAbsx⟩,
  ⟨0x7E, .ROR, .ABSX, .word .rorAbsx⟩]

/-- Row 8_ of the opcode map (R104). -/
def catalog8 : List Row := [
  ⟨0x81, .STA, .INDX, .byte .staIndx⟩,
  ⟨0x84, .STY, .ZP, .byte .styZp⟩,
  ⟨0x85, .STA, .ZP, .byte .staZp⟩,
  ⟨0x86, .STX, .ZP, .byte .stxZp⟩,
  ⟨0x88, .DEY, .IMP, .none .dey⟩,
  ⟨0x8A, .TXA, .IMP, .none .txa⟩,
  ⟨0x8C, .STY, .ABS, .word .styAbs⟩,
  ⟨0x8D, .STA, .ABS, .word .staAbs⟩,
  ⟨0x8E, .STX, .ABS, .word .stxAbs⟩]

/-- Row 9_ of the opcode map (R104). -/
def catalog9 : List Row := [
  ⟨0x90, .BCC, .REL, .byte .bcc⟩,
  ⟨0x91, .STA, .INDY, .byte .staIndy⟩,
  ⟨0x94, .STY, .ZPX, .byte .styZpx⟩,
  ⟨0x95, .STA, .ZPX, .byte .staZpx⟩,
  ⟨0x96, .STX, .ZPY, .byte .stxZpy⟩,
  ⟨0x98, .TYA, .IMP, .none .tya⟩,
  ⟨0x99, .STA, .ABSY, .word .staAbsy⟩,
  ⟨0x9A, .TXS, .IMP, .none .txs⟩,
  ⟨0x9D, .STA, .ABSX, .word .staAbsx⟩]

/-- Row A_ of the opcode map (R104). -/
def catalogA : List Row := [
  ⟨0xA0, .LDY, .IMM, .byte .ldyImm⟩,
  ⟨0xA1, .LDA, .INDX, .byte .ldaIndx⟩,
  ⟨0xA2, .LDX, .IMM, .byte .ldxImm⟩,
  ⟨0xA4, .LDY, .ZP, .byte .ldyZp⟩,
  ⟨0xA5, .LDA, .ZP, .byte .ldaZp⟩,
  ⟨0xA6, .LDX, .ZP, .byte .ldxZp⟩,
  ⟨0xA8, .TAY, .IMP, .none .tay⟩,
  ⟨0xA9, .LDA, .IMM, .byte .ldaImm⟩,
  ⟨0xAA, .TAX, .IMP, .none .tax⟩,
  ⟨0xAC, .LDY, .ABS, .word .ldyAbs⟩,
  ⟨0xAD, .LDA, .ABS, .word .ldaAbs⟩,
  ⟨0xAE, .LDX, .ABS, .word .ldxAbs⟩]

/-- Row B_ of the opcode map (R104). -/
def catalogB : List Row := [
  ⟨0xB0, .BCS, .REL, .byte .bcs⟩,
  ⟨0xB1, .LDA, .INDY, .byte .ldaIndy⟩,
  ⟨0xB4, .LDY, .ZPX, .byte .ldyZpx⟩,
  ⟨0xB5, .LDA, .ZPX, .byte .ldaZpx⟩,
  ⟨0xB6, .LDX, .ZPY, .byte .ldxZpy⟩,
  ⟨0xB8, .CLV, .IMP, .none .clv⟩,
  ⟨0xB9, .LDA, .ABSY, .word .ldaAbsy⟩,
  ⟨0xBA, .TSX, .IMP, .none .tsx⟩,
  ⟨0xBC, .LDY, .ABSX, .word .ldyAbsx⟩,
  ⟨0xBD, .LDA, .ABSX, .word .ldaAbsx⟩,
  ⟨0xBE, .LDX, .ABSY, .word .ldxAbsy⟩]

/-- Row C_ of the opcode map (R104). -/
def catalogC : List Row := [
  ⟨0xC0, .CPY, .IMM, .byte .cpyImm⟩,
  ⟨0xC1, .CMP, .INDX, .byte .cmpIndx⟩,
  ⟨0xC4, .CPY, .ZP, .byte .cpyZp⟩,
  ⟨0xC5, .CMP, .ZP, .byte .cmpZp⟩,
  ⟨0xC6, .DEC, .ZP, .byte .decZp⟩,
  ⟨0xC8, .INY, .IMP, .none .iny⟩,
  ⟨0xC9, .CMP, .IMM, .byte .cmpImm⟩,
  ⟨0xCA, .DEX, .IMP, .none .dex⟩,
  ⟨0xCC, .CPY, .ABS, .word .cpyAbs⟩,
  ⟨0xCD, .CMP, .ABS, .word .cmpAbs⟩,
  ⟨0xCE, .DEC, .ABS, .word .decAbs⟩]

/-- Row D_ of the opcode map (R104). -/
def catalogD : List Row := [
  ⟨0xD0, .BNE, .REL, .byte .bne⟩,
  ⟨0xD1, .CMP, .INDY, .byte .cmpIndy⟩,
  ⟨0xD5, .CMP, .ZPX, .byte .cmpZpx⟩,
  ⟨0xD6, .DEC, .ZPX, .byte .decZpx⟩,
  ⟨0xD8, .CLD, .IMP, .none .cld⟩,
  ⟨0xD9, .CMP, .ABSY, .word .cmpAbsy⟩,
  ⟨0xDD, .CMP, .ABSX, .word .cmpAbsx⟩,
  ⟨0xDE, .DEC, .ABSX, .word .decAbsx⟩]

/-- Row E_ of the opcode map (R104). -/
def catalogE : List Row := [
  ⟨0xE0, .CPX, .IMM, .byte .cpxImm⟩,
  ⟨0xE1, .SBC, .INDX, .byte .sbcIndx⟩,
  ⟨0xE4, .CPX, .ZP, .byte .cpxZp⟩,
  ⟨0xE5, .SBC, .ZP, .byte .sbcZp⟩,
  ⟨0xE6, .INC, .ZP, .byte .incZp⟩,
  ⟨0xE8, .INX, .IMP, .none .inx⟩,
  ⟨0xE9, .SBC, .IMM, .byte .sbcImm⟩,
  ⟨0xEA, .NOP, .IMP, .none .nop⟩,
  ⟨0xEC, .CPX, .ABS, .word .cpxAbs⟩,
  ⟨0xED, .SBC, .ABS, .word .sbcAbs⟩,
  ⟨0xEE, .INC, .ABS, .word .incAbs⟩]

/-- Row F_ of the opcode map (R104). -/
def catalogF : List Row := [
  ⟨0xF0, .BEQ, .REL, .byte .beq⟩,
  ⟨0xF1, .SBC, .INDY, .byte .sbcIndy⟩,
  ⟨0xF5, .SBC, .ZPX, .byte .sbcZpx⟩,
  ⟨0xF6, .INC, .ZPX, .byte .incZpx⟩,
  ⟨0xF8, .SED, .IMP, .none .sed⟩,
  ⟨0xF9, .SBC, .ABSY, .word .sbcAbsy⟩,
  ⟨0xFD, .SBC, .ABSX, .word .sbcAbsx⟩,
  ⟨0xFE, .INC, .ABSX, .word .incAbsx⟩]

/-- The catalog: the 151 entries of R104. -/
def catalog : List Row :=
  catalog0 ++ catalog1 ++ catalog2 ++ catalog3 ++ catalog4 ++ catalog5 ++ catalog6 ++ catalog7 ++
  catalog8 ++ catalog9 ++ catalogA ++ catalogB ++ catalogC ++ catalogD ++ catalogE ++ catalogF

/-- The rows of one line of the opcode map, by high nibble. -/
def catalogLine (hi : Nat) : List Row := match hi with
  | 0 => catalog0
  | 1 => catalog1
  | 2 => catalog2
  | 3 => catalog3
  | 4 => catalog4
  | 5 => catalog5
  | 6 => catalog6
  | 7 => catalog7
  | 8 => catalog8
  | 9 => catalog9
  | 10 => catalogA
  | 11 => catalogB
  | 12 => catalogC
  | 13 => catalogD
  | 14 => catalogE
  | _ => catalogF

/-- Decode by byte (R106): the unique entry whose byte value equals the opcode, or none. It looks in the opcode map's
line of the high nibble. -/
def rowOf (op : Byte) : Option Row := (catalogLine (op.toNat / 16)).find? fun r => r.opcode == op

/-- Why a list of bytes is no instruction. That a list with too few bytes is refused is DESIGN CHOICE (log entry 29); a step
reads its bytes from memory and cannot meet it. -/
inductive DecodeError where
  /-- No byte at all. -/
  | empty
  /-- The opcode byte has no catalog entry (R105, R106). -/
  | unknownOpcode (op : Byte)
  /-- The entry's operand bytes are missing. -/
  | truncated (op : Byte)
deriving DecidableEq, Repr

/-- Decode the first instruction of a list of bytes and give the rest. The opcode byte alone selects the entry (R100);
operand bytes are low byte first (R102). -/
def decode : List Byte → Except DecodeError (Instr × List Byte)
  | [] => .error .empty
  | op :: rest => match rowOf op with
    | none => .error (.unknownOpcode op)
    | some row => match row.shape, rest with
      | .none i, r => .ok (i, r)
      | .byte f, b1 :: r => .ok (f b1, r)
      | .word f, b1 :: b2 :: r => .ok (f (word b2 b1), r)
      | _, _ => .error (.truncated op)

/-- The encoded byte value of an entry (R104's table by mnemonic). -/
def Instr.opcode : Instr → Byte
  | .adcImm _ => 0x69
  | .adcZp _ => 0x65
  | .adcZpx _ => 0x75
  | .adcAbs _ => 0x6D
  | .adcAbsx _ => 0x7D
  | .adcAbsy _ => 0x79
  | .adcIndx _ => 0x61
  | .adcIndy _ => 0x71
  | .sbcImm _ => 0xE9
  | .sbcZp _ => 0xE5
  | .sbcZpx _ => 0xF5
  | .sbcAbs _ => 0xED
  | .sbcAbsx _ => 0xFD
  | .sbcAbsy _ => 0xF9
  | .sbcIndx _ => 0xE1
  | .sbcIndy _ => 0xF1
  | .aslAcc => 0x0A
  | .aslZp _ => 0x06
  | .aslZpx _ => 0x16
  | .aslAbs _ => 0x0E
  | .aslAbsx _ => 0x1E
  | .lsrAcc => 0x4A
  | .lsrZp _ => 0x46
  | .lsrZpx _ => 0x56
  | .lsrAbs _ => 0x4E
  | .lsrAbsx _ => 0x5E
  | .rolAcc => 0x2A
  | .rolZp _ => 0x26
  | .rolZpx _ => 0x36
  | .rolAbs _ => 0x2E
  | .rolAbsx _ => 0x3E
  | .rorAcc => 0x6A
  | .rorZp _ => 0x66
  | .rorZpx _ => 0x76
  | .rorAbs _ => 0x6E
  | .rorAbsx _ => 0x7E
  | .andImm _ => 0x29
  | .andZp _ => 0x25
  | .andZpx _ => 0x35
  | .andAbs _ => 0x2D
  | .andAbsx _ => 0x3D
  | .andAbsy _ => 0x39
  | .andIndx _ => 0x21
  | .andIndy _ => 0x31
  | .oraImm _ => 0x09
  | .oraZp _ => 0x05
  | .oraZpx _ => 0x15
  | .oraAbs _ => 0x0D
  | .oraAbsx _ => 0x1D
  | .oraAbsy _ => 0x19
  | .oraIndx _ => 0x01
  | .oraIndy _ => 0x11
  | .eorImm _ => 0x49
  | .eorZp _ => 0x45
  | .eorZpx _ => 0x55
  | .eorAbs _ => 0x4D
  | .eorAbsx _ => 0x5D
  | .eorAbsy _ => 0x59
  | .eorIndx _ => 0x41
  | .eorIndy _ => 0x51
  | .bitZp _ => 0x24
  | .bitAbs _ => 0x2C
  | .cmpImm _ => 0xC9
  | .cmpZp _ => 0xC5
  | .cmpZpx _ => 0xD5
  | .cmpAbs _ => 0xCD
  | .cmpAbsx _ => 0xDD
  | .cmpAbsy _ => 0xD9
  | .cmpIndx _ => 0xC1
  | .cmpIndy _ => 0xD1
  | .cpxImm _ => 0xE0
  | .cpxZp _ => 0xE4
  | .cpxAbs _ => 0xEC
  | .cpyImm _ => 0xC0
  | .cpyZp _ => 0xC4
  | .cpyAbs _ => 0xCC
  | .incZp _ => 0xE6
  | .incZpx _ => 0xF6
  | .incAbs _ => 0xEE
  | .incAbsx _ => 0xFE
  | .decZp _ => 0xC6
  | .decZpx _ => 0xD6
  | .decAbs _ => 0xCE
  | .decAbsx _ => 0xDE
  | .inx => 0xE8
  | .iny => 0xC8
  | .dex => 0xCA
  | .dey => 0x88
  | .bcc _ => 0x90
  | .bcs _ => 0xB0
  | .beq _ => 0xF0
  | .bne _ => 0xD0
  | .bmi _ => 0x30
  | .bpl _ => 0x10
  | .bvc _ => 0x50
  | .bvs _ => 0x70
  | .jmpAbs _ => 0x4C
  | .jmpInd _ => 0x6C
  | .pha => 0x48
  | .pla => 0x68
  | .php => 0x08
  | .plp => 0x28
  | .jsr _ => 0x20
  | .rts => 0x60
  | .brk => 0x00
  | .rti => 0x40
  | .clc => 0x18
  | .sec => 0x38
  | .cli => 0x58
  | .sei => 0x78
  | .cld => 0xD8
  | .sed => 0xF8
  | .clv => 0xB8
  | .nop => 0xEA
  | .ldaImm _ => 0xA9
  | .ldaZp _ => 0xA5
  | .ldaZpx _ => 0xB5
  | .ldaAbs _ => 0xAD
  | .ldaAbsx _ => 0xBD
  | .ldaAbsy _ => 0xB9
  | .ldaIndx _ => 0xA1
  | .ldaIndy _ => 0xB1
  | .ldxImm _ => 0xA2
  | .ldxZp _ => 0xA6
  | .ldxZpy _ => 0xB6
  | .ldxAbs _ => 0xAE
  | .ldxAbsy _ => 0xBE
  | .ldyImm _ => 0xA0
  | .ldyZp _ => 0xA4
  | .ldyZpx _ => 0xB4
  | .ldyAbs _ => 0xAC
  | .ldyAbsx _ => 0xBC
  | .staZp _ => 0x85
  | .staZpx _ => 0x95
  | .staAbs _ => 0x8D
  | .staAbsx _ => 0x9D
  | .staAbsy _ => 0x99
  | .staIndx _ => 0x81
  | .staIndy _ => 0x91
  | .stxZp _ => 0x86
  | .stxZpy _ => 0x96
  | .stxAbs _ => 0x8E
  | .styZp _ => 0x84
  | .styZpx _ => 0x94
  | .styAbs _ => 0x8C
  | .tax => 0xAA
  | .tay => 0xA8
  | .txa => 0x8A
  | .tya => 0x98
  | .tsx => 0xBA
  | .txs => 0x9A

/-- The operand bytes of a memory operand, in memory order (R102). -/
def MemArg.bytes : MemArg → List Byte
  | .zp b => [b]
  | .zpx b => [b]
  | .zpy b => [b]
  | .abs w => [loByte w, hiByte w]
  | .absx w => [loByte w, hiByte w]
  | .absy w => [loByte w, hiByte w]
  | .indx b => [b]
  | .indy b => [b]

/-- The operand bytes that follow the opcode (R102). -/
def Operand.bytes : Operand → List Byte
  | .imp => []
  | .acc => []
  | .imm v => [v]
  | .mem m => m.bytes
  | .ind w => [loByte w, hiByte w]
  | .rel d => [d]

/-- The bytes of an instruction: its opcode byte, then its operand bytes (R100). -/
def encode (i : Instr) : List Byte := i.opcode :: i.operand.bytes

/-- The instruction the decoder reads from one whose bits are `w`, bit 0 the least significant bit of the first byte, the
bits from `nbits` on being zero. -/
def decodeTableWord (nbits w : Nat) : Option Instr :=
  let v := w % 2 ^ nbits
  match decode [BitVec.ofNat 8 v, BitVec.ofNat 8 (v / 256), BitVec.ofNat 8 (v / 65536)] with
  | .ok (i, _) => some i
  | .error _ => none

end Sys2Proof
end

