-- ==== Sys2Proof/Machine/Fetch.lean ====
section
/-! DEFINITION. Fetching: the opcode read, decode and the operand-byte reads of a step (R131 to R133), and the optional
interrupt entry sampled before them (R311). -/
namespace Sys2Proof.Machine

/-- One read of the fetch at `a`; a failing read is reported with the opcode's address (R131, R300). -/
def fetchByte (s : State) (a : Word) : Except Fault Byte := match memRead s a with
  | .ok v => .ok v
  | .error e => .error (.memoryFault e.addr e.kind s.pc)

/-- Fetch one instruction: read the opcode byte at PC, decode it (`UnknownOpcode` before any operand byte is read, R301),
read its operand bytes in order, and advance PC past all of them modulo 65536 (R131 to R134). -/
def fetch (s : State) : Except Fault (Instr × State) := match fetchByte s s.pc with
  | .error f => .error f
  | .ok op => match rowOf op with
    | none => .error (.unknownOpcode op s.pc)
    | some row => match row.shape with
      | .none i => .ok (i, setPc (s.pc + 1) s)
      | .byte f => match fetchByte s (s.pc + 1) with
        | .error e => .error e
        | .ok b1 => .ok (f b1, setPc (s.pc + 2) s)
      | .word f => match fetchByte s (s.pc + 1) with
        | .error e => .error e
        | .ok b1 => match fetchByte s (s.pc + 2) with
          | .error e => .error e
          | .ok b2 => .ok (f (word b2 b1), setPc (s.pc + 3) s)

/-- The vector of an NMI entry (R79, R311). -/
def nmiVector : Word := 0xFFFA

/-- The vector of an IRQ entry (R311): fixed, whatever `BRK_VECTOR` is (log entry 9). -/
def irqVector : Word := 0xFFFE

/-- The interrupt a step takes before its instruction: NMI first, then IRQ when I is clear; none without `HAS_IRQ_NMI`
(R310, R311). -/
def pendingVector (s : State) : Option Word :=
  if s.cfg.hasIrqNmi then
    if s.nmi then some nmiVector
    else if s.irq && !getFlag s.p .I then some irqVector
    else none
  else none

/-- Take the pending interrupt, if any: push PC and P with B = 0, set I, load PC from the vector; an NMI request is
cleared (R311). That the entry and the instruction at the vector make one step, and that the vector's low byte is read
first, are DEDUCED (log entry 9). -/
def takeInterrupt (s : State) : Except Access State := match pendingVector s with
  | none => .ok s
  | some vector => enterHandler s.pc (pushedByInterrupt s.p) vector { s with nmi := false }

end Sys2Proof.Machine
end

