-- ==== Sys2Proof/Machine/Step.lean ====
section
/-! DEFINITION. One step of the core (R130): nothing when faulted; else the pending interrupt of the optional extension,
then fetch, decode, operand bytes, execute. And the placing of an instruction where the next step fetches it. -/
namespace Sys2Proof.Machine

/-- One complete instruction (R130). A faulted core is halted: the step has no effect (R130, R303). -/
def step (s : State) : Host.Outcome State Fault Refusal :=
  if s.faulted then .next s
  else match takeInterrupt s with
    | .error e => .fault (.memoryFault e.addr e.kind s.pc)
    | .ok s1 => match fetch s1 with
      | .error f => .fault f
      | .ok (i, s2) => exec i s2

/-- The state with the instruction whose bits are `w` (those from `nbits` on zero) stored at PC by the image loader,
three bytes long, so that the next step fetches and runs it: a fault mark or a pending interrupt would come before it
and is cleared (log entry 17). -/
def State.withFetchWord (s : State) (nbits w : Nat) : State :=
  let v := w % 2 ^ nbits
  { s with
    mem := s.mem.load s.pc [BitVec.ofNat 8 v, BitVec.ofNat 8 (v / 256), BitVec.ofNat 8 (v / 65536)]
    faulted := false
    irq := false
    nmi := false }

end Sys2Proof.Machine
end

