-- ==== Sys2Proof/Machine/Catalog.lean ====
section
/-! DEFINITION. The program builder's side of the catalog, which no step uses: decode by name (R107), the indexing
transform (R108), descriptions (R109), and the operand an assembler stores for a branch (R110). -/
namespace Sys2Proof.Machine

/-- Why a lookup of the builder fails: the "unknown-opcode" conditions of R107 and R108. -/
inductive CatalogError where
  /-- No entry has this mnemonic and mode (R107). -/
  | noEntry (name : String) (mode : Mode)
  /-- The mode has no indexed form (R108). -/
  | notIndexable (mode : Mode)
deriving DecidableEq, Repr

/-- The mnemonic as it is written. -/
def mnemonicName : Mnemonic → String
  | .ADC => "ADC"
  | .SBC => "SBC"
  | .ASL => "ASL"
  | .LSR => "LSR"
  | .ROL => "ROL"
  | .ROR => "ROR"
  | .AND => "AND"
  | .ORA => "ORA"
  | .EOR => "EOR"
  | .BIT => "BIT"
  | .CMP => "CMP"
  | .CPX => "CPX"
  | .CPY => "CPY"
  | .INC => "INC"
  | .DEC => "DEC"
  | .INX => "INX"
  | .INY => "INY"
  | .DEX => "DEX"
  | .DEY => "DEY"
  | .BCC => "BCC"
  | .BCS => "BCS"
  | .BEQ => "BEQ"
  | .BNE => "BNE"
  | .BMI => "BMI"
  | .BPL => "BPL"
  | .BVC => "BVC"
  | .BVS => "BVS"
  | .JMP => "JMP"
  | .PHA => "PHA"
  | .PLA => "PLA"
  | .PHP => "PHP"
  | .PLP => "PLP"
  | .JSR => "JSR"
  | .RTS => "RTS"
  | .BRK => "BRK"
  | .RTI => "RTI"
  | .CLC => "CLC"
  | .SEC => "SEC"
  | .CLI => "CLI"
  | .SEI => "SEI"
  | .CLD => "CLD"
  | .SED => "SED"
  | .CLV => "CLV"
  | .NOP => "NOP"
  | .LDA => "LDA"
  | .LDX => "LDX"
  | .LDY => "LDY"
  | .STA => "STA"
  | .STX => "STX"
  | .STY => "STY"
  | .TAX => "TAX"
  | .TAY => "TAY"
  | .TXA => "TXA"
  | .TYA => "TYA"
  | .TSX => "TSX"
  | .TXS => "TXS"

/-- `from(mnemonic, mode)`: the entry with that pair (R107). -/
def fromNameMode (name : String) (md : Mode) : Except CatalogError Row :=
  match catalog.find? fun r => (mnemonicName r.mnemonic == name) && (r.mode == md) with
  | some r => .ok r
  | none => .error (.noEntry name md)

/-- `from(mnemonic)`: the entry of that mnemonic with implicit Implied mode (R107). -/
def fromName (name : String) : Except CatalogError Row := fromNameMode name .IMP

/-- `xIndexed` (R108). -/
def xIndexed : Mode → Except CatalogError Mode
  | .ZP => .ok .ZPX
  | .ABS => .ok .ABSX
  | .IND => .ok .INDX
  | md => .error (.notIndexable md)

/-- `yIndexed` (R108). -/
def yIndexed : Mode → Except CatalogError Mode
  | .ZP => .ok .ZPY
  | .ABS => .ok .ABSY
  | .IND => .ok .INDY
  | md => .error (.notIndexable md)

/-- The mode phrase of a description, with its index suffix (R109). -/
def modePhrase : Mode → String
  | .IMP => "(Implied)"
  | .ACC => "(Accumulator)"
  | .IMM => "(Immediate)"
  | .ZP => "(Zero Page)"
  | .ZPX => "(Zero Page) [X]"
  | .ZPY => "(Zero Page) [Y]"
  | .ABS => "(Absolute)"
  | .ABSX => "(Absolute) [X]"
  | .ABSY => "(Absolute) [Y]"
  | .IND => "(Indirect)"
  | .INDX => "(Indirect) [X]"
  | .INDY => "(Indirect) [Y]"
  | .REL => "(Relative)"

/-- The description of an entry: the mnemonic, a space, the mode phrase (R109). -/
def description (m : Mnemonic) (md : Mode) : String := mnemonicName m ++ " " ++ modePhrase md

/-- The displacement byte stored for a branch at `at0` to `target`; none when it does not fit
(R110). The difference is taken modulo 65536: DEDUCED (log entry 15). -/
def branchOperand (at0 target : Word) : Option Byte := signedByte ((target - (at0 + 2)).toInt)

/-- The instruction a row makes of an operand that is in range. -/
def rowInstr (r : Row) (operand : Int) : Instr := match r.shape with
  | .none i => i
  | .byte f => f (BitVec.ofInt 8 operand)
  | .word f => f (BitVec.ofInt 16 operand)

/-- Resolve a symbolic instruction to its one catalog entry (R107, R110): none when it is ill formed.
DESIGN CHOICE: an immediate, zero-page or absolute operand that does not fit its field is refused, not truncated (log entry 28). -/
def assemble (i : SymInstr) : Option Instr :=
  if i.wf then
    match fromNameMode (mnemonicName i.mnemonic) i.mode with
    | .ok r => some (rowInstr r i.operand)
    | .error _ => none
  else none

end Sys2Proof.Machine
end

