-- ==== Sys2Proof/Machine/Access.lean ====
section
/-! DEFINITION. The memory accesses of one step in order: R157's table, written from that table and not from the
meanings. The first of them that fails is the step's fault (R302, R305), and no other access is made (R66). -/
namespace Sys2Proof.Machine

/-- R157's classes of instructions, by what they do after their operand bytes. -/
inductive AccessClass where
  /-- Reads its operand: one read of ea in a memory mode. -/
  | read
  /-- Stores: one write of ea. -/
  | store
  /-- Read-modify-write: read ea, then write ea, in a memory mode. -/
  | modify
  /-- JMP: nothing in Absolute, the two pointer bytes in Indirect. -/
  | jump
  /-- PHA, PHP: one stack write. -/
  | push
  /-- PLA, PLP: one stack read. -/
  | pull
  /-- JSR: two stack writes. -/
  | call
  /-- RTS: two stack reads. -/
  | ret
  /-- BRK: three stack writes, two vector reads. -/
  | brk
  /-- RTI: three stack reads. -/
  | rti
  /-- All others: nothing after the operand bytes. -/
  | quiet
deriving DecidableEq, Repr

/-- The class of each mnemonic (R157). -/
def accessClass : Mnemonic → AccessClass
  | .ADC => .read
  | .SBC => .read
  | .ASL => .modify
  | .LSR => .modify
  | .ROL => .modify
  | .ROR => .modify
  | .AND => .read
  | .ORA => .read
  | .EOR => .read
  | .BIT => .read
  | .CMP => .read
  | .CPX => .read
  | .CPY => .read
  | .INC => .modify
  | .DEC => .modify
  | .INX => .quiet
  | .INY => .quiet
  | .DEX => .quiet
  | .DEY => .quiet
  | .BCC => .quiet
  | .BCS => .quiet
  | .BEQ => .quiet
  | .BNE => .quiet
  | .BMI => .quiet
  | .BPL => .quiet
  | .BVC => .quiet
  | .BVS => .quiet
  | .JMP => .jump
  | .PHA => .push
  | .PLA => .pull
  | .PHP => .push
  | .PLP => .pull
  | .JSR => .call
  | .RTS => .ret
  | .BRK => .brk
  | .RTI => .rti
  | .CLC => .quiet
  | .SEC => .quiet
  | .CLI => .quiet
  | .SEI => .quiet
  | .CLD => .quiet
  | .SED => .quiet
  | .CLV => .quiet
  | .NOP => .quiet
  | .LDA => .read
  | .LDX => .read
  | .LDY => .read
  | .STA => .store
  | .STX => .store
  | .STY => .store
  | .TAX => .quiet
  | .TAY => .quiet
  | .TXA => .quiet
  | .TYA => .quiet
  | .TSX => .quiet
  | .TXS => .quiet

/-- A read of an address. -/
def readOf (a : Word) : Access := { addr := a, kind := .read }

/-- A write of an address. -/
def writeOf (a : Word) : Access := { addr := a, kind := .write }

/-- The pointer reads of a memory operand: two for INDX and INDY, low then high, none otherwise (R150, R151). -/
def pointerAccesses (m : MemArg) (s : State) : List Access := match m with
  | .indx b => [readOf (zext (b + s.x)), readOf (zext (b + s.x + 1))]
  | .indy b => [readOf (zext b), readOf (zext (b + 1))]
  | .zp _ => []
  | .zpx _ => []
  | .zpy _ => []
  | .abs _ => []
  | .absx _ => []
  | .absy _ => []

/-- The pointer reads, then the given accesses of ea; with a failing pointer there is no ea to access. -/
def eaAccesses (m : MemArg) (s : State) (use : Word → List Access) : List Access :=
  pointerAccesses m s ++ (match effAddr m s with
    | .ok ea => use ea
    | .error _ => [])

/-- The stack writes of a push sequence: `n` bytes from S downwards, wrapping in page 1 (R157, R240). -/
def pushAccesses (sp : Byte) : Nat → List Access
  | 0 => []
  | n + 1 => writeOf (stackAddr sp) :: pushAccesses (sp - 1) n

/-- The stack reads of a pull sequence: `n` bytes upwards from S + 1, wrapping in page 1 (R157, R241). -/
def pullAccesses (sp : Byte) : Nat → List Access
  | 0 => []
  | n + 1 => readOf (stackAddr (sp + 1)) :: pullAccesses (sp + 1) n

/-- The accesses of a handler entry: three pushes, then the vector, low byte first (R157, R311). -/
def entryAccesses (sp : Byte) (vector : Word) : List Access :=
  pushAccesses sp 3 ++ [readOf vector, readOf (vector + 1)]

/-- The accesses of a memory operand, by class. -/
def memAccesses (c : AccessClass) (m : MemArg) (s : State) : List Access := match c with
  | .read => eaAccesses m s fun ea => [readOf ea]
  | .store => eaAccesses m s fun ea => [writeOf ea]
  | .modify => eaAccesses m s fun ea => [readOf ea, writeOf ea]
  | .call => pushAccesses s.sp 2
  | .jump => []
  | .push => []
  | .pull => []
  | .ret => []
  | .brk => []
  | .rti => []
  | .quiet => []

/-- The accesses of an instruction without operand bytes, by class. -/
def impliedAccesses (c : AccessClass) (s : State) : List Access := match c with
  | .push => pushAccesses s.sp 1
  | .pull => pullAccesses s.sp 1
  | .ret => pullAccesses s.sp 2
  | .brk => entryAccesses s.sp s.cfg.brkVector
  | .rti => pullAccesses s.sp 3
  | .read => []
  | .store => []
  | .modify => []
  | .jump => []
  | .call => []
  | .quiet => []

/-- The accesses an instruction makes after its operand bytes, in order (R157), in the state in which it executes. -/
def dataAccesses (i : Instr) (s : State) : List Access := match i.operand with
  | .mem m => memAccesses (accessClass i.mnemonic) m s
  | .ind w => [readOf w, readOf (pointerHigh s.cfg.jmpIndPageWrap w)]
  | .imp => impliedAccesses (accessClass i.mnemonic) s
  | .acc => []
  | .imm _ => []
  | .rel _ => []

/-- The reads of the fetch: the opcode, then as many operand bytes as its mode has (R157). -/
def fetchAccesses (s : State) : List Access := readOf s.pc :: (match memRead s s.pc with
  | .error _ => []
  | .ok op => match rowOf op with
    | none => []
    | some row => match row.mode.length with
      | 1 => []
      | 2 => [readOf (s.pc + 1)]
      | _ => [readOf (s.pc + 1), readOf (s.pc + 2)])

/-- The accesses of the instruction at PC: its fetch, then its data accesses (R157). -/
def instrAccesses (s : State) : List Access := fetchAccesses s ++ (match fetch s with
  | .ok (i, t) => dataAccesses i t
  | .error _ => [])

/-- The accesses of one step that is not halted: those of a pending interrupt's entry, if one is taken (R311), then those
of its instruction. -/
def stepAccesses (s : State) : List Access := match pendingVector s with
  | none => instrAccesses s
  | some vector => entryAccesses s.sp vector ++ (match takeInterrupt s with
    | .ok t => instrAccesses t
    | .error _ => [])

/-- The first access of a list that the memory does not allow. -/
def firstFailing (m : Memory) (l : List Access) : Option Access := l.find? fun acc => !m.allows acc

/-- The accesses performed before the first that fails (R302). -/
def performed (m : Memory) (l : List Access) : List Access := l.takeWhile m.allows

/-- The address is written by one of the accesses. -/
def writes (l : List Access) (a : Word) : Bool := l.contains (writeOf a)

end Sys2Proof.Machine
end

