-- ==== Sys2Proof/Machine/HostInterface.lean ====
section
/-! DEFINITION. What the host can do to the core (R319): build the memory, reset, step, step n times, drive the interrupt
inputs of the optional extension, and read. A fault leaves the core halted, with any value in the registers and in the
bytes the faulting step wrote (R303). -/
namespace Sys2Proof.Machine

/-- Store a free value in every byte the list writes, numbering the free values from `n` (R303). -/
def scramble : List Access → Nat → Memory → Memory
  | [], _, m => m
  | acc :: r, n, m => match acc.kind with
    | .read => scramble r n m
    | .write => scramble r (n + 1) ((m.write acc.addr.toNat (Config.freeByte n)).getD m)

/-- The core after a step that faulted: marked, every register any value, and any value in the bytes the step had written
(R300, R303, U2). A step samples the NMI request before all else, so a request it took is gone. -/
def afterFault (s : State) : State :=
  let done := performed s.mem (stepAccesses s)
  { s with
    a := Config.freeByte s.freeCount
    x := Config.freeByte (s.freeCount + 1)
    y := Config.freeByte (s.freeCount + 2)
    sp := Config.freeByte (s.freeCount + 3)
    p := Config.freeByte (s.freeCount + 4)
    pc := Config.freeWord s.freeCount
    mem := scramble done (s.freeCount + 5) s.mem
    nmi := s.nmi && !s.cfg.hasIrqNmi
    faulted := true
    freeCount := s.freeCount + 5 + done.length }

/-- `step()` as the host calls it: the state after it, and the fault it reports, if any (R300, R319). -/
def hostStep (s : State) : State × Option Fault := match step s with
  | .next t => (t, none)
  | .fault f => (afterFault s, some f)
  | .refused _ => (s, none)

/-- `step(n)`: n steps, stopping at the first fault (R136). -/
def hostSteps : Nat → State → State × Option Fault
  | 0, s => (s, none)
  | n + 1, s => match hostStep s with
    | (t, none) => hostSteps n t
    | (t, some f) => (t, some f)

/-- The registers and the mark a reset writes before it reads the vector, in R340's order. It writes nothing else (R319):
the host's interrupt inputs stay as the host drives them (log entry 10). -/
def resetRegisters (s : State) : State :=
  { s with
    a := s.cfg.resetA
    x := s.cfg.resetX
    y := s.cfg.resetY
    sp := 0xFF
    p := s.cfg.resetP ||| 0x20
    faulted := false }

/-- `reset()`: the registers, then PC from the reset vector, low byte first; a failing read faults, with PC any value
(R340, R341). It writes no memory (R75). The failing access is what the host gets back (log entry 13). -/
def hostReset (s : State) : State × Option Access :=
  let t := resetRegisters s
  match readPair t t.cfg.resetVector (t.cfg.resetVector + 1) with
  | .ok target => ({ t with pc := target }, none)
  | .error e => ({ t with pc := Config.freeWord t.freeCount, faulted := true, freeCount := t.freeCount + 1 }, some e)

/-- The host builds `MEM` before the first reset (R319, R344). -/
def hostBuild (m : Memory) (s : State) : State := { s with mem := m }

/-- The host asserts or releases `irq`; without `HAS_IRQ_NMI` there is no such input (R310, R311, R319). -/
def hostIrq (level : Bool) (s : State) : State := if s.cfg.hasIrqNmi then { s with irq := level } else s

/-- The host requests an NMI; without `HAS_IRQ_NMI` there is no such input (R310, R311, R319). -/
def hostNmi (s : State) : State := if s.cfg.hasIrqNmi then { s with nmi := true } else s

/-- The memory accessor: a read-only view of one byte (R45). Registers are read from the state, P through `statusRead`. -/
def hostPeek (s : State) (a : Word) : Option Byte := s.mem.read a.toNat

end Sys2Proof.Machine
end

