-- ==== Sys2Proof/Safety.lean ====
section
/-! DEFINITION. The terms the claims are stated in: the invariant, a safe run, what an instruction reads, where it faults,
which flags and bytes it keeps, and a change of state that commutes with a step. -/
namespace Sys2Proof.Machine

/-- The invariant of the machine: the memory is in canonical form, bit 5 of P is 1 (R38), and bit 4 of P is what
`RESET_P` gave it (R39). -/
def State.Inv (s : State) : Prop :=
  s.mem.wf = true ∧ getFlag s.p .U = true ∧ getFlag s.p .B = getFlag s.cfg.resetP .B

/-- `n` steps end successfully: none of them faults, and the core is not faulted at the end (R303, R345: a faulted state is
never a successful end of a run, whichever step or reset faulted). -/
def SafeRun (n : Nat) (s : State) : Prop := (hostSteps n s).2 = none ∧ (hostSteps n s).1.faulted = false

/-- A run, the reset and then the `n` steps the host asks for, that ends successfully (R345). -/
def SuccessfulRun (n : Nat) (s : State) : Prop := (hostReset s).2 = none ∧ SafeRun n (hostReset s).1

/-- The opcode's address PC0 of an instruction that executes with PC at its fall-through address (R134). -/
def opcodeAt (i : Instr) (s : State) : Word := s.pc - BitVec.ofNat 16 i.length

/-- `Load()` gives the byte `v` (R153): the immediate byte, or the byte at the effective address. -/
def OperandReads (o : Operand) (s : State) (v : Byte) : Prop := match o with
  | .imm w => v = w
  | .mem m => ∃ ea, effAddr m s = .ok ea ∧ memRead s ea = .ok v
  | .imp => False
  | .acc => False
  | .ind _ => False
  | .rel _ => False

/-- `Load()` fails at the access `e`: a pointer read of the mode, or the read of the effective address. -/
def OperandFails (o : Operand) (s : State) (e : Access) : Prop := match o with
  | .mem m => effAddr m s = .error e ∨ ∃ ea, effAddr m s = .ok ea ∧ memRead s ea = .error e
  | .imm _ => False
  | .imp => False
  | .acc => False
  | .ind _ => False
  | .rel _ => False

/-- The instruction raises `MemoryFault` for the access `e` (R300). -/
def FaultsAt (i : Instr) (s : State) (e : Access) : Prop :=
  exec i s = .fault (.memoryFault e.addr e.kind (opcodeAt i s))

/-- The encodings of a mnemonic are exactly these: mode and opcode byte (R104). -/
def HasOpcodes (m : Mnemonic) (l : List (Mode × Byte)) : Prop :=
  ∀ md op, (md, op) ∈ l ↔ ∃ i : Instr, i.mnemonic = m ∧ i.mode = md ∧ ∃ bs, encode i = op :: bs

/-- Z is whether `r` is zero and N is bit 7 of `r` (R12). -/
def ZNFrom (r q : Byte) : Prop := getFlag q .Z = (r == 0) ∧ getFlag q .N = r.getLsbD 7

/-- Every flag but the written ones is as before. -/
def FlagsKept (p q : Byte) (written : List Flag) : Prop := ∀ f, f ∉ written → getFlag q f = getFlag p f

/-- Every byte but those at the stored addresses reads as before. -/
def BytesKept (s t : State) (stored : List Word) : Prop := ∀ a, a ∉ stored → memRead t a = memRead s a

/-- The address `$0100 + S` modulo the stack page, `k` bytes below (push side) the byte S names: `$0100 + ((S - k) mod 256)`. -/
def pushSlot (s : State) (k : Nat) : Word := 0x0100 + zext (s.sp - BitVec.ofNat 8 k)

/-- `$0100 + ((S + k) mod 256)`: the `k`-th byte a pull sequence reads. -/
def pullSlot (s : State) (k : Nat) : Word := 0x0100 + zext (s.sp + BitVec.ofNat 8 k)

/-- The same outcome with a change applied to the next state; faults and refusals unchanged. -/
def mapNext (f : State → State) : Host.Outcome State Fault Refusal → Host.Outcome State Fault Refusal
  | .next t => .next (f t)
  | .fault e => .fault e
  | .refused r => .refused r

/-- The state with the register's B bit flipped. -/
def flipB (s : State) : State := { s with p := s.p ^^^ 0x10 }

/-- The state with the interrupt inputs set. -/
def withInputs (irq nmi : Bool) (s : State) : State := { s with irq := irq, nmi := nmi }

/-- The state with the Decimal flag set to `v`. -/
def withDecimal (v : Bool) (s : State) : State := { s with p := setFlag .D v s.p }

/-- The configuration and the memory map are the same: parameters, mapping, default, and each store's kind and size; and
a read-only store holds the same bytes. -/
def SameHardware (s t : State) : Prop :=
  t.cfg = s.cfg ∧ t.mem.base = s.mem.base ∧ t.mem.overrides = s.mem.overrides ∧
  t.mem.stores.length = s.mem.stores.length ∧
  ∀ (k : Nat) (st : Store), s.mem.stores[k]? = some st →
    ∃ st', t.mem.stores[k]? = some st' ∧ st'.kind = st.kind ∧ st'.size = st.size ∧ (st.kind = .readOnly → st' = st)

end Sys2Proof.Machine
end

