-- ==== Sys2Proof/Certificates/Slice0/Obligations.lean ====
section
/-! DEFINITION. The statements for the provers. -/
open Sys2Proof Sys2Proof.Machine

/-! Encoding and the catalog. -/

/-- Decoding what was encoded gives the instruction back, and leaves the bytes after it (R100, R102, R106). -/
def Obligations.DecodeOfEncodeGivesInstructionBack : Prop :=
  ∀ (i : Instr) (rest : List Byte), decode (encode i ++ rest) = .ok (i, rest)

/-- Whatever decodes is the encoding of what it decodes to: no second spelling (R103 invariant 1, R106). -/
def Obligations.EncodeOfDecodeGivesBytesBack : Prop :=
  ∀ (bs rest : List Byte) (i : Instr), decode bs = .ok (i, rest) → bs = encode i ++ rest

/-- The byte values with no catalog entry (R105). -/
def unassignedBytes : List Byte :=
  [0x02, 0x03, 0x04, 0x07, 0x0B, 0x0C, 0x0F, 0x12, 0x13, 0x14, 0x17, 0x1A, 0x1B, 0x1C, 0x1F, 0x22, 0x23, 0x27, 0x2B, 0x2F] ++
  [0x32, 0x33, 0x34, 0x37, 0x3A, 0x3B, 0x3C, 0x3F, 0x42, 0x43, 0x44, 0x47, 0x4B, 0x4F, 0x52, 0x53, 0x54, 0x57, 0x5A, 0x5B] ++
  [0x5C, 0x5F, 0x62, 0x63, 0x64, 0x67, 0x6B, 0x6F, 0x72, 0x73, 0x74, 0x77, 0x7A, 0x7B, 0x7C, 0x7F, 0x80, 0x82, 0x83, 0x87] ++
  [0x89, 0x8B, 0x8F, 0x92, 0x93, 0x97, 0x9B, 0x9C, 0x9E, 0x9F, 0xA3, 0xA7, 0xAB, 0xAF, 0xB2, 0xB3, 0xB7, 0xBB, 0xBF, 0xC2] ++
  [0xC3, 0xC7, 0xCB, 0xCF, 0xD2, 0xD3, 0xD4, 0xD7, 0xDA, 0xDB, 0xDC, 0xDF, 0xE2, 0xE3, 0xE7, 0xEB, 0xEF, 0xF2, 0xF3, 0xF4] ++
  [0xF7, 0xFA, 0xFB, 0xFC, 0xFF]

/-- Exactly R105's bytes have no catalog entry: the decoder rejects them, whatever follows, and a step that reads one as
its opcode raises `UnknownOpcode` (R105, R106, R132, R301); every other byte is the opcode of an instruction, which it
decodes to when its operand bytes follow. The step is taken in the state after a pending interrupt's entry, which by default is the state
itself (R310); that a pending interrupt's entry and the fetch at its vector make one step is the model's reading (log entry 9). -/
def Obligations.UnassignedBytesAreRejected : Prop :=
  (∀ (op : Byte) (rest : List Byte), op ∈ unassignedBytes ↔ decode (op :: rest) = .error (.unknownOpcode op)) ∧
  (∀ (op b1 b2 : Byte), op ∉ unassignedBytes → ∃ i r, decode [op, b1, b2] = .ok (i, r) ∧ i.opcode = op) ∧
  (∀ (s s1 : State) (op : Byte), s.faulted = false → takeInterrupt s = .ok s1 → op ∈ unassignedBytes →
    memRead s1 s1.pc = .ok op → step s = .fault (.unknownOpcode op s1.pc))

/-- Bytes written out from R104's map decode to the instruction they stand for, one or more of every family. -/
def Obligations.WrittenBytesDecode : Prop :=
  decode [0x69, 0x01] = .ok (.adcImm 0x01, []) ∧ decode [0xF1, 0x10] = .ok (.sbcIndy 0x10, []) ∧
  decode [0x0A] = .ok (.aslAcc, []) ∧ decode [0x7E, 0x00, 0x03] = .ok (.rorAbsx 0x0300, []) ∧
  decode [0x21, 0xFF] = .ok (.andIndx 0xFF, []) ∧ decode [0x2C, 0x34, 0x12] = .ok (.bitAbs 0x1234, []) ∧
  decode [0xE4, 0x10] = .ok (.cpxZp 0x10, []) ∧ decode [0xDE, 0xCD, 0xAB] = .ok (.decAbsx 0xABCD, []) ∧
  decode [0x88] = .ok (.dey, []) ∧ decode [0x90, 0xFE] = .ok (.bcc 0xFE, []) ∧
  decode [0x6C, 0xFF, 0x30] = .ok (.jmpInd 0x30FF, []) ∧ decode [0x20, 0x34, 0x12] = .ok (.jsr 0x1234, []) ∧
  decode [0x00, 0xEA] = .ok (.brk, [0xEA]) ∧ decode [0xB8] = .ok (.clv, []) ∧
  decode [0xB6, 0x10] = .ok (.ldxZpy 0x10, []) ∧ decode [0x9A] = .ok (.txs, [])

/-- R103's invariants 1 and 2: an opcode byte determines the (mnemonic, mode) pair and is determined by it. -/
def Obligations.OpcodeAndPairDetermineEachOther : Prop :=
  ∀ i j : Instr, i.opcode = j.opcode ↔ i.mnemonic = j.mnemonic ∧ i.mode = j.mode

/-- The builder resolves the symbolic form of every instruction to that instruction (R107, R110), and refuses exactly what
is ill formed (R103 invariant 3; a displacement out of range, R110; that another operand out of its field's range is refused
is the model's choice, log entry 28). -/
def Obligations.BuilderResolvesSymbolicForms : Prop :=
  (∀ i : Instr, assemble i.toSym = some i) ∧
  (∀ y : SymInstr, (assemble y).isSome = (y.mnemonic.modes.contains y.mode
      && decide (y.mode.operandMin ≤ y.operand) && decide (y.operand ≤ y.mode.operandMax)))

/-- The operand an assembler stores for a branch (R110): the branch then reaches its target, and there is one exactly when
some displacement byte reaches the target. That the difference is taken modulo 65536 is the model's reading (log entry 15). -/
def Obligations.AssembledBranchReachesTarget : Prop :=
  ∀ at0 target : Word,
    (∀ d, branchOperand at0 target = some d → at0 + 2 + sext d = target) ∧
    ((branchOperand at0 target).isSome = true ↔ ∃ d : Byte, at0 + 2 + sext d = target)

/-! The step. -/

/-- A step runs the decoded instruction: when the bytes at PC decode to `i`, the step is `exec` of `i` with PC moved past
the instruction's bytes (R130 to R134). `s1` is the state after a pending interrupt's entry; by default there is none and
`s1` is `s` (R310). That a pending interrupt's entry and the instruction at its vector make one step is the model's reading
of R311 (log entry 9). -/
def Obligations.StepRunsDecodedInstruction : Prop :=
  (∀ (s s1 : State) (bs : List Byte) (i : Instr), s.faulted = false → takeInterrupt s = .ok s1 →
    decode bs = .ok (i, []) →
    (∀ (k : Nat) (b : Byte), bs[k]? = some b → memRead s1 (s1.pc + BitVec.ofNat 16 k) = .ok b) →
    step s = exec i { s1 with pc := s1.pc + BitVec.ofNat 16 i.length }) ∧
  (∀ s : State, s.cfg.hasIrqNmi = false → takeInterrupt s = .ok s)

/-- A failing fetch read is the step's fault, before anything later: the opcode read, then the first and the second
operand byte, with PC0 recorded (R131, R133, R300, R305). `s1` is the state after a pending interrupt's entry, by default the
state itself; that the entry and this fetch are one step is the model's reading (log entry 9). -/
def Obligations.FetchFaults : Prop :=
  ∀ (s s1 : State), s.faulted = false → takeInterrupt s = .ok s1 →
    ((∀ e, memRead s1 s1.pc = .error e → step s = .fault (.memoryFault s1.pc .read s1.pc)) ∧
     (∀ (i : Instr) (e : Access), memRead s1 s1.pc = .ok i.opcode → 2 ≤ i.length →
        memRead s1 (s1.pc + 1) = .error e → step s = .fault (.memoryFault (s1.pc + 1) .read s1.pc)) ∧
     (∀ (i : Instr) (b1 : Byte) (e : Access), memRead s1 s1.pc = .ok i.opcode → i.length = 3 →
        memRead s1 (s1.pc + 1) = .ok b1 → memRead s1 (s1.pc + 2) = .error e →
        step s = .fault (.memoryFault (s1.pc + 2) .read s1.pc)))

/-- A faulted core is halted: any number of steps changes nothing (R130, R303), and none of them is a successful run (R303,
R345). That such a step answers a next state and reports no fault again is the model's reading (log entry 6). -/
def Obligations.FaultedCoreIsHalted : Prop :=
  ∀ (n : Nat) (s : State), s.faulted = true → step s = .next s ∧ hostSteps n s = (s, none) ∧ ¬ SafeRun n s

/-- A step that faults reports the fault to the host and halts the core: the mark is set, later steps do nothing, the
parameters and the memory map stay, and every byte the step did not write before the fault reads as before (R300, R303).
What the registers and the written bytes hold is not said: they are free values (log entry 8). That a step of the
halted core reports nothing (log entry 6), and that a pending interrupt's entry belongs to the step (log entry 9), are the
model's readings. -/
def Obligations.FaultHaltsTheCore : Prop :=
  ∀ (s : State) (f : Fault), step s = .fault f →
    (hostStep s).2 = some f ∧ (hostStep s).1.faulted = true ∧
    (∀ n, hostSteps n (hostStep s).1 = ((hostStep s).1, none)) ∧
    SameHardware s (hostStep s).1 ∧
    (s.mem.wf = true → (hostStep s).1.mem.wf = true ∧
      ∀ a, writes (performed s.mem (stepAccesses s)) a = false → memRead (hostStep s).1 a = memRead s a)

/-- `step(n)` performs `step()` n times and stops at the first step that faults (R136): step(0) changes nothing; a step that
completes is followed by the others; one that faults leaves the halted core and its fault, and no later step runs; m + n
steps are m steps and then, unless one of them faulted, n more. A run is successful exactly when it starts from a core that
is not faulted and no step faults (R303, R345); after a reset that faulted none is. -/
def Obligations.StepsRunInSequence : Prop :=
  (∀ s t, step s = .next t → hostStep s = (t, none)) ∧
  (∀ s f, step s = .fault f → ∃ t, hostStep s = (t, some f) ∧ t.faulted = true) ∧
  (∀ s, hostSteps 0 s = (s, none)) ∧
  (∀ n s t, step s = .next t → hostSteps (n + 1) s = hostSteps n t) ∧
  (∀ n s f, step s = .fault f → hostSteps (n + 1) s = hostStep s) ∧
  (∀ (m n : Nat) (s : State), hostSteps (m + n) s =
    (match hostSteps m s with
      | (t, none) => hostSteps n t
      | (t, some f) => (t, some f))) ∧
  (∀ n s, SafeRun n s ↔ s.faulted = false ∧ (hostSteps n s).2 = none) ∧
  (∀ n s e, (hostReset s).2 = some e → ¬ SafeRun n (hostReset s).1)

/-- Every instruction completes exactly when the memory allows every access R157 lists for it, and otherwise raises
`MemoryFault` for the first access of that list that is not allowed (R157, R302, R305): no instruction ends in any other
way, and none is refused. -/
def Obligations.InstructionEndsAsItsAccessesDo : Prop :=
  ∀ (i : Instr) (s : State),
    (∀ e, firstFailing s.mem (dataAccesses i s) = some e → FaultsAt i s e) ∧
    (firstFailing s.mem (dataAccesses i s) = none → ∃ t, exec i s = .next t)

/-- A step ends as its access list says (R157, R302, R305): the first access not allowed is its fault; with none, the step
completes or the opcode is unknown. Where a pending interrupt's entry stands in the list, and that its vector's low byte is
read first, is the model's reading of R311 (log entry 9). -/
def Obligations.StepEndsAsItsAccessesDo : Prop :=
  ∀ s : State, s.faulted = false →
    (∀ e, firstFailing s.mem (stepAccesses s) = some e → ∃ pc0, step s = .fault (.memoryFault e.addr e.kind pc0)) ∧
    (firstFailing s.mem (stepAccesses s) = none →
      (∃ t, step s = .next t) ∨ ∃ op pc0, step s = .fault (.unknownOpcode op pc0) ∧ op ∈ unassignedBytes)

/-- The frame of memory over all instructions and steps: a byte reads as before unless it is one of the addresses R157's
list writes (R66, R157). A step's list begins with a pending interrupt's entry: the model's reading (log entry 9). -/
def Obligations.OnlyListedWritesChangeMemory : Prop :=
  (∀ (i : Instr) (s t : State), s.mem.wf = true → exec i s = .next t →
    ∀ a, writes (dataAccesses i s) a = false → memRead t a = memRead s a) ∧
  (∀ (s t : State), s.mem.wf = true → s.faulted = false → step s = .next t →
    ∀ a, writes (stepAccesses s) a = false → memRead t a = memRead s a)

/-! Invariants and whole-machine rules. -/

/-- Every step keeps the invariant, from every state that has it: canonical memory, bit 5 of P is 1 (R38), bit 4 of P is
`RESET_P`'s (R39). -/
def Obligations.StepKeepsInvariant : Prop :=
  ∀ s t : State, s.Inv → step s = .next t → t.Inv

/-- The state after reset has the invariant, and so has every state a successful reset gives on well-formed memory. -/
def Obligations.ResetMeetsInvariant : Prop :=
  State.reset.Inv ∧ ∀ s : State, s.mem.wf = true → (hostReset s).1.Inv

/-- No step changes a parameter, a mapping, a store's kind or size, or any byte of a read-only store, even one that an
override hides (R6, R71, R74), and a step that completes leaves the fault mark and the irq level as they were. -/
def Obligations.StepKeepsHardware : Prop :=
  ∀ s t : State, step s = .next t → SameHardware s t ∧ t.faulted = s.faulted ∧ t.irq = s.irq ∧ t.freeCount = s.freeCount

/-- A program cannot observe the register's B bit: two states that differ only in it take the same step, to states that
again differ only in it, or to the same fault (R39). -/
def Obligations.BreakBitIsUnobservable : Prop :=
  ∀ s : State, step (flipB s) = mapNext flipB (step s)

/-- Without `HAS_IRQ_NMI` nothing but the instruction decides a step: the interrupt inputs have no effect (R310). -/
def Obligations.InterruptInputsIgnoredByDefault : Prop :=
  ∀ (s : State) (irq nmi : Bool), s.cfg.hasIrqNmi = false →
    step (withInputs irq nmi s) = mapNext (withInputs irq nmi) (step s)

/-- ADC and SBC are binary at every value of D, and so does every instruction but those that push or replace P ignore D:
the Decimal flag is carried along and changes nothing else (R41, R161). -/
def Obligations.DecimalFlagChangesNoArithmetic : Prop :=
  ∀ (i : Instr) (s : State) (v : Bool),
    i.mnemonic ∉ [.PHP, .BRK, .PLP, .RTI, .SED, .CLD] →
    exec i (withDecimal v s) = mapNext (withDecimal v) (exec i s)

/-! Addressing modes and operand helpers. -/

/-- The effective address of the direct modes: zero-page sums modulo 256, absolute sums modulo 65536 (R143 to R148). -/
def Obligations.DirectEffectiveAddresses : Prop :=
  ∀ (s : State) (b : Byte) (w : Word),
    (∃ ea, effAddr (.zp b) s = .ok ea ∧ ea.toNat = b.toNat) ∧
    (∃ ea, effAddr (.zpx b) s = .ok ea ∧ ea.toNat = (b.toNat + s.x.toNat) % 256) ∧
    (∃ ea, effAddr (.zpy b) s = .ok ea ∧ ea.toNat = (b.toNat + s.y.toNat) % 256) ∧
    (∃ ea, effAddr (.abs w) s = .ok ea ∧ ea.toNat = w.toNat) ∧
    (∃ ea, effAddr (.absx w) s = .ok ea ∧ ea.toNat = (w.toNat + s.x.toNat) % 65536) ∧
    (∃ ea, effAddr (.absy w) s = .ok ea ∧ ea.toNat = (w.toNat + s.y.toNat) % 65536)

/-- The effective address of the indirect modes: the pointer lies in the zero page, low byte first, its second byte
wrapping from $FF to $00; Y is added to the 16-bit pointer modulo 65536; the first failing pointer read fails the mode
(R150, R151). -/
def Obligations.IndirectEffectiveAddresses : Prop :=
  ∀ (s : State) (b lo hi : Byte),
    (memRead s (BitVec.ofNat 16 ((b.toNat + s.x.toNat) % 256)) = .ok lo →
      memRead s (BitVec.ofNat 16 ((b.toNat + s.x.toNat + 1) % 256)) = .ok hi →
      ∃ ea, effAddr (.indx b) s = .ok ea ∧ ea.toNat = hi.toNat * 256 + lo.toNat) ∧
    (memRead s (BitVec.ofNat 16 b.toNat) = .ok lo →
      memRead s (BitVec.ofNat 16 ((b.toNat + 1) % 256)) = .ok hi →
      ∃ ea, effAddr (.indy b) s = .ok ea ∧ ea.toNat = (hi.toNat * 256 + lo.toNat + s.y.toNat) % 65536) ∧
    (∀ e, memRead s (BitVec.ofNat 16 ((b.toNat + s.x.toNat) % 256)) = .error e → effAddr (.indx b) s = .error e) ∧
    (∀ e, memRead s (BitVec.ofNat 16 ((b.toNat + s.x.toNat) % 256)) = .ok lo →
      memRead s (BitVec.ofNat 16 ((b.toNat + s.x.toNat + 1) % 256)) = .error e → effAddr (.indx b) s = .error e) ∧
    (∀ e, memRead s (BitVec.ofNat 16 b.toNat) = .error e → effAddr (.indy b) s = .error e) ∧
    (∀ e, memRead s (BitVec.ofNat 16 b.toNat) = .ok lo →
      memRead s (BitVec.ofNat 16 ((b.toNat + 1) % 256)) = .error e → effAddr (.indy b) s = .error e)

/-! Results, flags and frames, family by family. In each, `s` is the state in which the instruction executes, with PC at
the fall-through address (R134), and the last clause `t = { s with … }` is the frame: every register, every byte of
memory and everything else not named there is as before. -/

/-- What an instruction that reads an operand does when the read succeeds, and where it faults otherwise. -/
def ReadRule (m : Mnemonic) (codes : List (Mode × Byte)) (effect : State → Byte → State → Prop) : Prop :=
  HasOpcodes m codes ∧
  (∀ (i : Instr) (s : State) (v : Byte), i.mnemonic = m → OperandReads i.operand s v →
    ∃ t, exec i s = .next t ∧ effect s v t) ∧
  (∀ (i : Instr) (s : State) (e : Access), i.mnemonic = m → OperandFails i.operand s e → e.kind = .read ∧ FaultsAt i s e)

/-- What ADC leaves, `v` being the byte added: the sum modulo 256, carry out, signed overflow, Z, N; the rest as before. -/
def AddEffect (s : State) (v : Byte) (t : State) : Prop :=
  t.a.toNat = (s.a.toNat + v.toNat + (getFlag s.p .C).toNat) % 256 ∧
  getFlag t.p .C = decide (s.a.toNat + v.toNat + (getFlag s.p .C).toNat > 255) ∧
  (getFlag t.p .V = true ↔ signed s.a + signed v + (getFlag s.p .C).toNat < -128 ∨
    127 < signed s.a + signed v + (getFlag s.p .C).toNat) ∧
  ZNFrom t.a t.p ∧ FlagsKept s.p t.p [.C, .Z, .V, .N] ∧ t = { s with a := t.a, p := t.p }

/-- What SBC leaves, `v` being the byte subtracted: the difference modulo 256, no-borrow, signed overflow, Z, N. -/
def SubtractEffect (s : State) (v : Byte) (t : State) : Prop :=
  (t.a.toNat : Int) = ((s.a.toNat : Int) - v.toNat - (1 - (getFlag s.p .C).toNat)) % 256 ∧
  (getFlag t.p .C = true ↔ v.toNat + (1 - (getFlag s.p .C).toNat) ≤ s.a.toNat) ∧
  (getFlag t.p .V = true ↔ signed s.a - signed v - (1 - (getFlag s.p .C).toNat : Int) < -128 ∨
    127 < signed s.a - signed v - (1 - (getFlag s.p .C).toNat : Int)) ∧
  ZNFrom t.a t.p ∧ FlagsKept s.p t.p [.C, .Z, .V, .N] ∧ t = { s with a := t.a, p := t.p }

/-- ADC in all eight modes (R170): encodings, result, C, V, Z, N, frame, faults. -/
def Obligations.AddWithCarry : Prop :=
  ReadRule .ADC [(.IMM, 0x69), (.ZP, 0x65), (.ZPX, 0x75), (.ABS, 0x6D), (.ABSX, 0x7D), (.ABSY, 0x79), (.INDX, 0x61), (.INDY, 0x71)]
    AddEffect

/-- SBC in all eight modes (R171): encodings, result, C, V, Z, N, frame, faults. -/
def Obligations.SubtractWithBorrow : Prop :=
  ReadRule .SBC [(.IMM, 0xE9), (.ZP, 0xE5), (.ZPX, 0xF5), (.ABS, 0xED), (.ABSX, 0xFD), (.ABSY, 0xF9), (.INDX, 0xE1), (.INDY, 0xF1)]
    SubtractEffect

/-- A logical operation on A: bit k of A is `f` of bit k of A and of the operand; Z, N; C and the rest as before. -/
def LogicEffect (f : Bool → Bool → Bool) (s : State) (v : Byte) (t : State) : Prop :=
  (∀ k, k < 8 → t.a.getLsbD k = f (s.a.getLsbD k) (v.getLsbD k)) ∧
  ZNFrom t.a t.p ∧ FlagsKept s.p t.p [.Z, .N] ∧ t = { s with a := t.a, p := t.p }

/-- AND, ORA and EOR in all eight modes (R190, R191, R192). -/
def Obligations.LogicalOperations : Prop :=
  ReadRule .AND [(.IMM, 0x29), (.ZP, 0x25), (.ZPX, 0x35), (.ABS, 0x2D), (.ABSX, 0x3D), (.ABSY, 0x39), (.INDX, 0x21), (.INDY, 0x31)]
    (LogicEffect and) ∧
  ReadRule .ORA [(.IMM, 0x09), (.ZP, 0x05), (.ZPX, 0x15), (.ABS, 0x0D), (.ABSX, 0x1D), (.ABSY, 0x19), (.INDX, 0x01), (.INDY, 0x11)]
    (LogicEffect or) ∧
  ReadRule .EOR [(.IMM, 0x49), (.ZP, 0x45), (.ZPX, 0x55), (.ABS, 0x4D), (.ABSX, 0x5D), (.ABSY, 0x59), (.INDX, 0x41), (.INDY, 0x51)]
    (LogicEffect xor)

/-- BIT in both modes (R193): Z from A AND m, N and V from bits 7 and 6 of m; A is not written. -/
def Obligations.BitTest : Prop :=
  ReadRule .BIT [(.ZP, 0x24), (.ABS, 0x2C)] fun s v t =>
    (getFlag t.p .Z = true ↔ ∀ k, k < 8 → (s.a.getLsbD k && v.getLsbD k) = false) ∧
    getFlag t.p .N = v.getLsbD 7 ∧ getFlag t.p .V = v.getLsbD 6 ∧
    FlagsKept s.p t.p [.Z, .N, .V] ∧ t = { s with p := t.p }

/-- A compare of a register value with the operand (R200): C when not below, Z when equal, N bit 7 of the difference. -/
def CompareEffect (reg : State → Byte) (s : State) (v : Byte) (t : State) : Prop :=
  (getFlag t.p .C = true ↔ v.toNat ≤ (reg s).toNat) ∧ (getFlag t.p .Z = true ↔ reg s = v) ∧
  (getFlag t.p .N = true ↔ 128 ≤ ((reg s).toNat + 256 - v.toNat) % 256) ∧
  FlagsKept s.p t.p [.C, .Z, .N] ∧ t = { s with p := t.p }

/-- CMP, CPX and CPY in all their modes (R200 to R203); no register and no memory is written. -/
def Obligations.Compares : Prop :=
  ReadRule .CMP [(.IMM, 0xC9), (.ZP, 0xC5), (.ZPX, 0xD5), (.ABS, 0xCD), (.ABSX, 0xDD), (.ABSY, 0xD9), (.INDX, 0xC1), (.INDY, 0xD1)]
    (CompareEffect State.a) ∧
  ReadRule .CPX [(.IMM, 0xE0), (.ZP, 0xE4), (.ABS, 0xEC)] (CompareEffect State.x) ∧
  ReadRule .CPY [(.IMM, 0xC0), (.ZP, 0xC4), (.ABS, 0xCC)] (CompareEffect State.y)

/-- LDA, LDX and LDY in all their modes (R270, R271, R272): the register, Z and N; the rest as before. -/
def Obligations.Loads : Prop :=
  ReadRule .LDA [(.IMM, 0xA9), (.ZP, 0xA5), (.ZPX, 0xB5), (.ABS, 0xAD), (.ABSX, 0xBD), (.ABSY, 0xB9), (.INDX, 0xA1), (.INDY, 0xB1)]
    (fun s v t => t.a = v ∧ ZNFrom v t.p ∧ FlagsKept s.p t.p [.Z, .N] ∧ t = { s with a := t.a, p := t.p }) ∧
  ReadRule .LDX [(.IMM, 0xA2), (.ZP, 0xA6), (.ZPY, 0xB6), (.ABS, 0xAE), (.ABSY, 0xBE)]
    (fun s v t => t.x = v ∧ ZNFrom v t.p ∧ FlagsKept s.p t.p [.Z, .N] ∧ t = { s with x := t.x, p := t.p }) ∧
  ReadRule .LDY [(.IMM, 0xA0), (.ZP, 0xA4), (.ZPX, 0xB4), (.ABS, 0xAC), (.ABSX, 0xBC)]
    (fun s v t => t.y = v ∧ ZNFrom v t.p ∧ FlagsKept s.p t.p [.Z, .N] ∧ t = { s with y := t.y, p := t.p })

/-- A store of a register value: the byte at the effective address, nothing else, no flag; a failing pointer read or a
write that is not allowed faults. -/
def StoreRule (m : Mnemonic) (codes : List (Mode × Byte)) (reg : State → Byte) : Prop :=
  HasOpcodes m codes ∧
  (∀ (i : Instr) (s : State) (o : MemArg) (ea : Word), i.mnemonic = m → i.operand = .mem o → s.mem.wf = true →
    effAddr o s = .ok ea → s.mem.writable ea.toNat = true →
    ∃ t, exec i s = .next t ∧ memRead t ea = .ok (reg s) ∧ BytesKept s t [ea] ∧ t = { s with mem := t.mem }) ∧
  (∀ (i : Instr) (s : State) (o : MemArg), i.mnemonic = m → i.operand = .mem o →
    (∀ e, effAddr o s = .error e → e.kind = .read ∧ FaultsAt i s e) ∧
    (∀ ea, effAddr o s = .ok ea → s.mem.writable ea.toNat = false → FaultsAt i s { addr := ea, kind := .write })) ∧
  (∀ i : Instr, i.mnemonic = m → ∃ o, i.operand = .mem o)

/-- STA, STX and STY in all their modes (R273, R274, R275). -/
def Obligations.Stores : Prop :=
  StoreRule .STA [(.ZP, 0x85), (.ZPX, 0x95), (.ABS, 0x8D), (.ABSX, 0x9D), (.ABSY, 0x99), (.INDX, 0x81), (.INDY, 0x91)] State.a ∧
  StoreRule .STX [(.ZP, 0x86), (.ZPY, 0x96), (.ABS, 0x8E)] State.x ∧
  StoreRule .STY [(.ZP, 0x84), (.ZPX, 0x94), (.ABS, 0x8C)] State.y

/-- A read-modify-write of a memory target: the byte read becomes `r` of it and of the carry in, at the same address and
nowhere else; `wr` are the flags written, `flags` what they become; a read or write that is not allowed faults, the read
first. -/
def ModifyRule (m : Mnemonic) (codes : List (Mode × Byte)) (r : Nat → Nat → Nat) (wr : List Flag)
    (flags : Byte → Byte → Prop) : Prop :=
  HasOpcodes m codes ∧
  (∀ (i : Instr) (s : State) (o : MemArg) (ea : Word) (v : Byte), i.mnemonic = m → i.operand = .mem o → s.mem.wf = true →
    effAddr o s = .ok ea → memRead s ea = .ok v → s.mem.writable ea.toNat = true →
    ∃ t w, exec i s = .next t ∧ memRead t ea = .ok w ∧ w.toNat = r v.toNat (getFlag s.p .C).toNat % 256 ∧
      ZNFrom w t.p ∧ flags v t.p ∧ FlagsKept s.p t.p wr ∧ BytesKept s t [ea] ∧ t = { s with mem := t.mem, p := t.p }) ∧
  (∀ (i : Instr) (s : State) (o : MemArg) (ea : Word), i.mnemonic = m → i.operand = .mem o → effAddr o s = .ok ea →
    (∀ e, memRead s ea = .error e → e = { addr := ea, kind := .read } ∧ FaultsAt i s e) ∧
    (∀ v, memRead s ea = .ok v → s.mem.writable ea.toNat = false → FaultsAt i s { addr := ea, kind := .write }))

/-- A shift of the accumulator: `r` of A and of the carry in, carry from bit `out` of A, Z, N; the rest as before. -/
def ShiftsA (i : Instr) (r : Nat → Nat → Nat) (out : Nat) : Prop :=
  ∀ s : State, ∃ t, exec i s = .next t ∧ t.a.toNat = r s.a.toNat (getFlag s.p .C).toNat % 256 ∧
    getFlag t.p .C = s.a.getLsbD out ∧ ZNFrom t.a t.p ∧ FlagsKept s.p t.p [.C, .Z, .N] ∧ t = { s with a := t.a, p := t.p }

/-- A shift in all its forms: memory targets and the accumulator, carry from bit `out` of the byte read. -/
def ShiftRule (m : Mnemonic) (codes : List (Mode × Byte)) (onA : Instr) (r : Nat → Nat → Nat) (out : Nat) : Prop :=
  ModifyRule m codes r [.C, .Z, .N] (fun v q => getFlag q .C = v.getLsbD out) ∧ ShiftsA onA r out

/-- ASL, LSR, ROL, ROR in all their forms (R141, R155, R180 to R184). -/
def Obligations.ShiftsAndRotates : Prop :=
  ShiftRule .ASL [(.ACC, 0x0A), (.ZP, 0x06), (.ZPX, 0x16), (.ABS, 0x0E), (.ABSX, 0x1E)] .aslAcc (fun v _ => v * 2) 7 ∧
  ShiftRule .LSR [(.ACC, 0x4A), (.ZP, 0x46), (.ZPX, 0x56), (.ABS, 0x4E), (.ABSX, 0x5E)] .lsrAcc (fun v _ => v / 2) 0 ∧
  ShiftRule .ROL [(.ACC, 0x2A), (.ZP, 0x26), (.ZPX, 0x36), (.ABS, 0x2E), (.ABSX, 0x3E)] .rolAcc (fun v c => v * 2 + c) 7 ∧
  ShiftRule .ROR [(.ACC, 0x6A), (.ZP, 0x66), (.ZPX, 0x76), (.ABS, 0x6E), (.ABSX, 0x7E)] .rorAcc (fun v c => v / 2 + 128 * c) 0

/-- INC and DEC on memory (R210, R211): Z and N only; carry is not written. -/
def Obligations.IncrementsOnMemory : Prop :=
  ModifyRule .INC [(.ZP, 0xE6), (.ZPX, 0xF6), (.ABS, 0xEE), (.ABSX, 0xFE)] (fun v _ => v + 1) [.Z, .N] (fun _ _ => True) ∧
  ModifyRule .DEC [(.ZP, 0xC6), (.ZPX, 0xD6), (.ABS, 0xCE), (.ABSX, 0xDE)] (fun v _ => v + 255) [.Z, .N] (fun _ _ => True)

/-- INX, INY, DEX, DEY (R212 to R215): the index register modulo 256, Z, N; the rest as before. -/
def Obligations.IndexIncrements : Prop :=
  HasOpcodes .INX [(.IMP, 0xE8)] ∧ HasOpcodes .INY [(.IMP, 0xC8)] ∧ HasOpcodes .DEX [(.IMP, 0xCA)] ∧
  HasOpcodes .DEY [(.IMP, 0x88)] ∧
  ∀ s : State,
    (∃ t, exec .inx s = .next t ∧ t.x.toNat = (s.x.toNat + 1) % 256 ∧ ZNFrom t.x t.p ∧ FlagsKept s.p t.p [.Z, .N] ∧
      t = { s with x := t.x, p := t.p }) ∧
    (∃ t, exec .iny s = .next t ∧ t.y.toNat = (s.y.toNat + 1) % 256 ∧ ZNFrom t.y t.p ∧ FlagsKept s.p t.p [.Z, .N] ∧
      t = { s with y := t.y, p := t.p }) ∧
    (∃ t, exec .dex s = .next t ∧ t.x.toNat = (s.x.toNat + 255) % 256 ∧ ZNFrom t.x t.p ∧ FlagsKept s.p t.p [.Z, .N] ∧
      t = { s with x := t.x, p := t.p }) ∧
    (∃ t, exec .dey s = .next t ∧ t.y.toNat = (s.y.toNat + 255) % 256 ∧ ZNFrom t.y t.p ∧ FlagsKept s.p t.p [.Z, .N] ∧
      t = { s with y := t.y, p := t.p })

/-- The register transfers (R276 to R281): the destination, Z and N; TXS writes no flag; the source and the rest as before. -/
def Obligations.Transfers : Prop :=
  HasOpcodes .TAX [(.IMP, 0xAA)] ∧ HasOpcodes .TAY [(.IMP, 0xA8)] ∧ HasOpcodes .TXA [(.IMP, 0x8A)] ∧
  HasOpcodes .TYA [(.IMP, 0x98)] ∧ HasOpcodes .TSX [(.IMP, 0xBA)] ∧ HasOpcodes .TXS [(.IMP, 0x9A)] ∧
  ∀ s : State,
    (∃ t, exec .tax s = .next t ∧ t.x = s.a ∧ ZNFrom s.a t.p ∧ FlagsKept s.p t.p [.Z, .N] ∧ t = { s with x := t.x, p := t.p }) ∧
    (∃ t, exec .tay s = .next t ∧ t.y = s.a ∧ ZNFrom s.a t.p ∧ FlagsKept s.p t.p [.Z, .N] ∧ t = { s with y := t.y, p := t.p }) ∧
    (∃ t, exec .txa s = .next t ∧ t.a = s.x ∧ ZNFrom s.x t.p ∧ FlagsKept s.p t.p [.Z, .N] ∧ t = { s with a := t.a, p := t.p }) ∧
    (∃ t, exec .tya s = .next t ∧ t.a = s.y ∧ ZNFrom s.y t.p ∧ FlagsKept s.p t.p [.Z, .N] ∧ t = { s with a := t.a, p := t.p }) ∧
    (∃ t, exec .tsx s = .next t ∧ t.x = s.sp ∧ ZNFrom s.sp t.p ∧ FlagsKept s.p t.p [.Z, .N] ∧ t = { s with x := t.x, p := t.p }) ∧
    exec .txs s = .next { s with sp := s.x }

/-- A branch: PC moves by the signed displacement, modulo 65536, exactly when the flag has the wanted value; nothing else
changes (R220). `s.pc` is PC0 + 2. -/
def BranchRule (m : Mnemonic) (op : Byte) (br : Byte → Instr) (f : Flag) (want : Bool) : Prop :=
  HasOpcodes m [(.REL, op)] ∧
  ∀ (d : Byte) (s : State), (br d).mnemonic = m ∧ (br d).operand = .rel d ∧
    ∃ t, exec (br d) s = .next t ∧ t = { s with pc := t.pc } ∧
      (getFlag s.p f = want → (t.pc.toNat : Int) = ((s.pc.toNat : Int) + signed d) % 65536) ∧
      (getFlag s.p f ≠ want → t.pc = s.pc)

/-- The eight branches (R220 to R228). -/
def Obligations.Branches : Prop :=
  BranchRule .BCC 0x90 Instr.bcc .C false ∧ BranchRule .BCS 0xB0 Instr.bcs .C true ∧
  BranchRule .BEQ 0xF0 Instr.beq .Z true ∧ BranchRule .BNE 0xD0 Instr.bne .Z false ∧
  BranchRule .BMI 0x30 Instr.bmi .N true ∧ BranchRule .BPL 0x10 Instr.bpl .N false ∧
  BranchRule .BVC 0x50 Instr.bvc .V false ∧ BranchRule .BVS 0x70 Instr.bvs .V true

/-- JMP (R149, R156, R229): the absolute form jumps to its operand without reading it; the indirect form reads its target
through the pointer, low byte first, the high byte from the start of the same page when `JMP_IND_PAGE_WRAP` and the
pointer ends in $FF, and faults at the first pointer read that is not allowed. No register but PC is written. -/
def Obligations.Jumps : Prop :=
  HasOpcodes .JMP [(.ABS, 0x4C), (.IND, 0x6C)] ∧
  ∀ (w : Word) (s : State),
    exec (.jmpAbs w) s = .next { s with pc := w } ∧
    ∀ hiAddr : Word, hiAddr.toNat =
        (if s.cfg.jmpIndPageWrap then w.toNat / 256 * 256 + (w.toNat + 1) % 256 else (w.toNat + 1) % 65536) →
      (∀ lo hi, memRead s w = .ok lo → memRead s hiAddr = .ok hi →
        exec (.jmpInd w) s = .next { s with pc := word hi lo }) ∧
      (∀ e, memRead s w = .error e → FaultsAt (.jmpInd w) s e) ∧
      (∀ lo e, memRead s w = .ok lo → memRead s hiAddr = .error e → FaultsAt (.jmpInd w) s e)

/-! The stack, subroutines and the software interrupt. -/

/-- The stack primitives (R240, R241): a push writes at `$0100 + S` and then decrements S modulo 256; a pull increments S
modulo 256 and then reads there; nothing else changes. -/
def Obligations.StackPrimitives : Prop :=
  ∀ (s : State) (v : Byte) (a b : Word), a.toNat = 256 + s.sp.toNat → b.toNat = 256 + (s.sp.toNat + 1) % 256 →
    (s.mem.wf = true → s.mem.writable a.toNat = true →
      ∃ t, push v s = .ok t ∧ memRead t a = .ok v ∧ t.sp.toNat = (s.sp.toNat + 255) % 256 ∧ BytesKept s t [a] ∧
        t = { s with mem := t.mem, sp := t.sp }) ∧
    (s.mem.writable a.toNat = false → push v s = .error { addr := a, kind := .write }) ∧
    (∀ r, memRead s b = .ok r → ∃ t, pull s = .ok (r, t) ∧ t.sp.toNat = (s.sp.toNat + 1) % 256 ∧ t = { s with sp := t.sp }) ∧
    (∀ e, memRead s b = .error e → pull s = .error e)

/-- A push instruction: `val s` at `$0100 + S`, S one lower, no flag; a write that is not allowed faults. -/
def PushRule (i : Instr) (val : State → Byte → Prop) : Prop :=
  ∀ s : State,
    (s.mem.wf = true → s.mem.writable (pushSlot s 0).toNat = true →
      ∃ t v, exec i s = .next t ∧ val s v ∧ memRead t (pushSlot s 0) = .ok v ∧ t.sp = s.sp - 1 ∧
        BytesKept s t [pushSlot s 0] ∧ t = { s with mem := t.mem, sp := t.sp }) ∧
    (s.mem.writable (pushSlot s 0).toNat = false → FaultsAt i s { addr := pushSlot s 0, kind := .write })

/-- PHA pushes A and PHP pushes P with bits 4 and 5 as 1 (R242, R244). -/
def Obligations.PushInstructions : Prop :=
  HasOpcodes .PHA [(.IMP, 0x48)] ∧ HasOpcodes .PHP [(.IMP, 0x08)] ∧
  PushRule .pha (fun s v => v = s.a) ∧
  PushRule .php (fun s v => FlagsKept s.p v [.B, .U] ∧ getFlag v .B = true ∧ getFlag v .U = true)

/-- PLA pulls A and writes Z and N (R243). -/
def Obligations.PullAccumulator : Prop :=
  HasOpcodes .PLA [(.IMP, 0x68)] ∧
  ∀ s : State,
    (∀ v, memRead s (pullSlot s 1) = .ok v → ∃ t, exec .pla s = .next t ∧ t.a = v ∧ t.sp = s.sp + 1 ∧ ZNFrom v t.p ∧
      FlagsKept s.p t.p [.Z, .N] ∧ t = { s with a := t.a, sp := t.sp, p := t.p }) ∧
    (∀ e, memRead s (pullSlot s 1) = .error e → FaultsAt .pla s e)

/-- P after PLP and RTI, from the pulled byte: N, V, D, I, Z, C from it, B kept, U 1 (R38, R39, R245, R249). -/
def StatusPulled (v p q : Byte) : Prop :=
  (∀ f, f ∉ [Flag.B, .U] → getFlag q f = getFlag v f) ∧ getFlag q .B = getFlag p .B ∧ getFlag q .U = true

/-- PLP pulls P; bit 4 keeps the register's value and bit 5 is 1 (R245). -/
def Obligations.PullStatus : Prop :=
  HasOpcodes .PLP [(.IMP, 0x28)] ∧
  ∀ s : State,
    (∀ v, memRead s (pullSlot s 1) = .ok v → ∃ t, exec .plp s = .next t ∧ t.sp = s.sp + 1 ∧ StatusPulled v s.p t.p ∧
      t = { s with sp := t.sp, p := t.p }) ∧
    (∀ e, memRead s (pullSlot s 1) = .error e → FaultsAt .plp s e)

/-- JSR pushes the return address, high byte first, and jumps (R246): PC0 + 2 under HW and PC0 + 3 under LITERAL, PC being
PC0 + 3 here; the first push that is not allowed faults. -/
def Obligations.JumpToSubroutine : Prop :=
  HasOpcodes .JSR [(.ABS, 0x20)] ∧
  ∀ (w ret : Word) (s : State), ret = (match s.cfg.jsrReturn with | .hw => s.pc - 1 | .literal => s.pc) →
    (s.mem.wf = true → s.mem.writable (pushSlot s 0).toNat = true → s.mem.writable (pushSlot s 1).toNat = true →
      ∃ t, exec (.jsr w) s = .next t ∧ memRead t (pushSlot s 0) = .ok (hiByte ret) ∧
        memRead t (pushSlot s 1) = .ok (loByte ret) ∧ t.sp = s.sp - 2 ∧ t.pc = w ∧
        BytesKept s t [pushSlot s 0, pushSlot s 1] ∧ t = { s with mem := t.mem, sp := t.sp, pc := t.pc }) ∧
    (s.mem.writable (pushSlot s 0).toNat = false → FaultsAt (.jsr w) s { addr := pushSlot s 0, kind := .write }) ∧
    (s.mem.writable (pushSlot s 0).toNat = true → s.mem.writable (pushSlot s 1).toNat = false →
      FaultsAt (.jsr w) s { addr := pushSlot s 1, kind := .write })

/-- RTS pulls the return address, low byte first, and resumes there, plus 1 under HW (R247); the first pull that is not
allowed faults. -/
def Obligations.ReturnFromSubroutine : Prop :=
  HasOpcodes .RTS [(.IMP, 0x60)] ∧
  ∀ s : State,
    (∀ lo hi, memRead s (pullSlot s 1) = .ok lo → memRead s (pullSlot s 2) = .ok hi →
      ∃ t, exec .rts s = .next t ∧ t.sp = s.sp + 2 ∧
        t.pc.toNat = (hi.toNat * 256 + lo.toNat + (match s.cfg.jsrReturn with | .hw => 1 | .literal => 0)) % 65536 ∧
        t = { s with sp := t.sp, pc := t.pc }) ∧
    (∀ e, memRead s (pullSlot s 1) = .error e → FaultsAt .rts s e) ∧
    (∀ lo e, memRead s (pullSlot s 1) = .ok lo → memRead s (pullSlot s 2) = .error e → FaultsAt .rts s e)

/-- What entering a handler leaves: the return address `ret` and the status byte pushed, S three lower, I set, PC from the
vector as it reads after the pushes, every other flag, register and byte as before. -/
def HandlerEntered (s : State) (ret : Word) (status : Byte → Prop) (vector : Word) (t : State) : Prop :=
  ∃ q lo hi, memRead t (pushSlot s 0) = .ok (hiByte ret) ∧ memRead t (pushSlot s 1) = .ok (loByte ret) ∧
    memRead t (pushSlot s 2) = .ok q ∧ status q ∧ t.sp = s.sp - 3 ∧ getFlag t.p .I = true ∧ FlagsKept s.p t.p [.I] ∧
    memRead t vector = .ok lo ∧ memRead t (vector + 1) = .ok hi ∧ t.pc = word hi lo ∧
    BytesKept s t [pushSlot s 0, pushSlot s 1, pushSlot s 2] ∧
    t = { s with mem := t.mem, sp := t.sp, pc := t.pc, p := t.p }

/-- The accesses of entering a handler are all allowed. -/
def EntryAllowed (s : State) (vector : Word) : Prop :=
  s.mem.writable (pushSlot s 0).toNat = true ∧ s.mem.writable (pushSlot s 1).toNat = true ∧
  s.mem.writable (pushSlot s 2).toNat = true ∧ (s.mem.read vector.toNat).isSome = true ∧
  (s.mem.read (vector + 1).toNat).isSome = true

/-- BRK (R248): enters the handler at `BRK_VECTOR` with return address PC0 + 2 (PC is PC0 + 1 here), bits 4 and 5 of the
pushed status 1 and its other bits P's, I set; it is no fault. When one of its accesses is not allowed, the first of them
is its fault. -/
def Obligations.BreakEntersHandler : Prop :=
  HasOpcodes .BRK [(.IMP, 0x00)] ∧
  (∀ s : State, s.mem.wf = true → EntryAllowed s s.cfg.brkVector →
    ∃ t, exec .brk s = .next t ∧
      HandlerEntered s (s.pc + 1) (fun q => FlagsKept s.p q [.B, .U] ∧ getFlag q .B = true ∧ getFlag q .U = true)
        s.cfg.brkVector t) ∧
  (∀ (s : State) (e : Access), firstFailing s.mem
      [writeOf (pushSlot s 0), writeOf (pushSlot s 1), writeOf (pushSlot s 2), readOf s.cfg.brkVector,
        readOf (s.cfg.brkVector + 1)] = some e → FaultsAt .brk s e)

/-- RTI pulls P as PLP does, then PC, low byte first, adding nothing (R249); the first pull that is not allowed faults. -/
def Obligations.ReturnFromInterrupt : Prop :=
  HasOpcodes .RTI [(.IMP, 0x40)] ∧
  ∀ s : State,
    (∀ v lo hi, memRead s (pullSlot s 1) = .ok v → memRead s (pullSlot s 2) = .ok lo → memRead s (pullSlot s 3) = .ok hi →
      ∃ t, exec .rti s = .next t ∧ t.sp = s.sp + 3 ∧ StatusPulled v s.p t.p ∧ t.pc = word hi lo ∧
        t = { s with sp := t.sp, pc := t.pc, p := t.p }) ∧
    (∀ e, firstFailing s.mem [readOf (pullSlot s 1), readOf (pullSlot s 2), readOf (pullSlot s 3)] = some e →
      FaultsAt .rti s e)

/-- A JSR and the RTS that ends its subroutine resume at the instruction after the JSR with the stack pointer restored,
under either return convention (R246, R247). -/
def Obligations.CallThenReturnResumes : Prop :=
  ∀ (w q : Word) (s t : State), s.mem.wf = true → exec (.jsr w) s = .next t →
    exec .rts { t with pc := q } = .next { s with mem := t.mem }

/-- A BRK and the RTI that ends its handler resume at PC0 + 2 of the BRK with P and S restored (R248, R249), from every
state in which bit 5 of P is 1. `s.pc` is PC0 + 1. -/
def Obligations.BreakThenReturnResumes : Prop :=
  ∀ (q : Word) (s t : State), s.mem.wf = true → getFlag s.p .U = true → exec .brk s = .next t →
    exec .rti { t with pc := q } = .next { s with mem := t.mem, pc := s.pc + 1 }

/-- What PHA pushed PLA pulls back, whatever happened to A and P between, and what PHP pushed PLP pulls back into every
flag but B (R240 to R245). -/
def Obligations.PushThenPullRestores : Prop :=
  ∀ (s t : State) (v q : Byte), s.mem.wf = true →
    (exec .pha s = .next t → ∃ u, exec .pla { t with a := v, p := q } = .next u ∧ u.a = s.a ∧ u.sp = s.sp) ∧
    (exec .php s = .next t → ∃ u, exec .plp { t with a := v, p := q } = .next u ∧ u.sp = s.sp ∧ StatusPulled s.p q u.p)

/-! Flag instructions and NOP. -/

/-- An instruction that gives one flag a value and changes nothing else. -/
def FlagRule (m : Mnemonic) (op : Byte) (i : Instr) (f : Flag) (v : Bool) : Prop :=
  HasOpcodes m [(.IMP, op)] ∧
  ∀ s : State, ∃ t, exec i s = .next t ∧ getFlag t.p f = v ∧ FlagsKept s.p t.p [f] ∧ t = { s with p := t.p }

/-- CLC, SEC, CLI, SEI, CLD, SED, CLV set or clear exactly the named flag (R260 to R266). -/
def Obligations.FlagInstructions : Prop :=
  FlagRule .CLC 0x18 .clc .C false ∧ FlagRule .SEC 0x38 .sec .C true ∧ FlagRule .CLI 0x58 .cli .I false ∧
  FlagRule .SEI 0x78 .sei .I true ∧ FlagRule .CLD 0xD8 .cld .D false ∧ FlagRule .SED 0xF8 .sed .D true ∧
  FlagRule .CLV 0xB8 .clv .V false

/-- NOP changes nothing but PC: a step that reads $EA at PC only moves PC to PC0 + 1 (R267). `s1` is the
state after a pending interrupt's entry, by default the state itself; that the entry and the NOP at its vector are one step is
the model's reading (log entry 9). -/
def Obligations.NoOperation : Prop :=
  HasOpcodes .NOP [(.IMP, 0xEA)] ∧ (∀ s : State, exec .nop s = .next s) ∧
  ∀ s s1 : State, s.faulted = false → takeInterrupt s = .ok s1 → memRead s1 s1.pc = .ok 0xEA →
    step s = .next { s1 with pc := s1.pc + 1 }

/-! Interrupts of the optional extension, and reset. -/

/-- Which interrupt a step takes (R310, R311): none without `HAS_IRQ_NMI`; else the NMI when requested; else the IRQ when
asserted and I is clear; else none. -/
def Obligations.InterruptSelection : Prop :=
  ∀ s : State,
    (s.cfg.hasIrqNmi = false → pendingVector s = none) ∧
    (s.cfg.hasIrqNmi = true → s.nmi = true → pendingVector s = some 0xFFFA) ∧
    (s.cfg.hasIrqNmi = true → s.nmi = false → s.irq = true → getFlag s.p .I = false → pendingVector s = some 0xFFFE) ∧
    (s.nmi = false → (s.irq = false ∨ getFlag s.p .I = true) → pendingVector s = none) ∧
    (pendingVector s = none → takeInterrupt s = .ok s)

/-- Taking an interrupt (R311): PC and P with B = 0 and bit 5 = 1 are pushed, I is set, PC comes from the vector, and an
NMI request is cleared; no instruction is fetched. When an access is not allowed, the first of them is the step's fault.
The order of the vector reads and the PC0 of that fault are the model's reading (log entry 9). -/
def Obligations.InterruptEntry : Prop :=
  ∀ (s : State) (vector : Word), pendingVector s = some vector →
    (s.mem.wf = true → EntryAllowed s vector → ∃ t, takeInterrupt s = .ok t ∧
      HandlerEntered { s with nmi := false } s.pc
        (fun q => FlagsKept s.p q [.B, .U] ∧ getFlag q .B = false ∧ getFlag q .U = true) vector t) ∧
    (s.faulted = false → ∀ e, firstFailing s.mem
      [writeOf (pushSlot s 0), writeOf (pushSlot s 1), writeOf (pushSlot s 2), readOf vector, readOf (vector + 1)] = some e →
      step s = .fault (.memoryFault e.addr e.kind s.pc))

/-- The state `s` with every register as a reset writes it, P being `q` and PC `w`; memory and parameters are `s`'s. `f` is
the fault mark; the interrupt inputs and the model's counter of free values are `t`'s, and not said here. -/
def registersReset (s : State) (q : Byte) (w : Word) (f : Bool) (t : State) : State :=
  { s with
    a := s.cfg.resetA
    x := s.cfg.resetX
    y := s.cfg.resetY
    sp := 0xFF
    p := q
    pc := w
    faulted := f
    irq := t.irq
    nmi := t.nmi
    freeCount := t.freeCount }

/-- `reset()` (R340, R341, R342, R75): the registers from the parameters, S = $FF, P = `RESET_P OR $20`, PC the
little-endian word at the vector, not faulted, memory unchanged. A failing vector read is what the host gets back and
faults the core, and PC is then not said. -/
def Obligations.ResetOperation : Prop :=
  ∀ s : State,
    (∀ lo hi, memRead s s.cfg.resetVector = .ok lo → memRead s (s.cfg.resetVector + 1) = .ok hi →
      ∃ q t, hostReset s = (t, none) ∧ t = registersReset s q (word hi lo) false t ∧
        getFlag q .U = true ∧ FlagsKept s.cfg.resetP q [.U]) ∧
    (∀ e, firstFailing s.mem [readOf s.cfg.resetVector, readOf (s.cfg.resetVector + 1)] = some e →
      ∃ q w t, hostReset s = (t, some e) ∧ t = registersReset s q w true t ∧
        getFlag q .U = true ∧ FlagsKept s.cfg.resetP q [.U])

/-- After reset with the default parameters (R47): S = $FF, P = $34, not faulted, PC the word at $FFFC/$FFFD. Without
`HAS_IRQ_NMI` no interrupt is pending (R343); that the host's inputs stay as they are is the model's reading (log entry 10).
Two resets with the same memory, parameters and inputs give the same state (R343). The last clause says that `State.reset` is
what `reset()` gives on the default memory with nothing loaded and no input asserted: it rests on the model's zeros for A, X, Y
(log entry 2) and for unlisted bytes, and so for PC (log entries 3 and 16). -/
def Obligations.StateAfterReset : Prop :=
  (∀ s : State, s.cfg.resetP = 0x34 → (hostReset s).1.sp = 0xFF ∧ (hostReset s).1.p = 0x34 ∧
    (hostReset s).1.irq = s.irq ∧ (hostReset s).1.nmi = s.nmi ∧ (hostReset s).1.mem = s.mem) ∧
  (∀ (s : State) (lo hi : Byte), s.cfg.resetVector = 0xFFFC → memRead s 0xFFFC = .ok lo → memRead s 0xFFFD = .ok hi →
    (hostReset s).1.pc.toNat = hi.toNat * 256 + lo.toNat ∧ (hostReset s).1.faulted = false) ∧
  (∀ s : State, s.cfg.hasIrqNmi = false → pendingVector (hostReset s).1 = none) ∧
  (∀ s t : State, s.mem = t.mem → s.cfg = t.cfg → s.irq = t.irq → s.nmi = t.nmi → s.freeCount = t.freeCount →
    hostReset s = hostReset t) ∧
  (∀ s : State, s.mem = Memory.blank → s.cfg = {} → s.irq = false → s.nmi = false → s.freeCount = 0 →
    hostReset s = (State.reset, none))

/-! The memory contract. -/

/-- A later read of the address returns the last byte written there, every other address reads as before, and the
canonical form is kept (R70, R81). -/
def Obligations.ReadAfterWrite : Prop :=
  ∀ (m m' : Memory) (a : Nat) (v : Byte), m.wf = true → m.write a v = some m' →
    m'.wf = true ∧ m'.read a = some v ∧ ∀ b, b ≠ a → m'.read b = m.read b

/-- When an access fails (R61, R63, R64, R70 to R72): exactly when no store answers the address, the address is outside the
answering store's size, or it is a write and that store is read-only. The port then reports that access. -/
def Obligations.AccessFailsOutOfRangeOrReadOnly : Prop :=
  ∀ (s : State) (a : Word) (v : Byte),
    ((∃ b, memRead s a = .ok b) ↔ ∃ st, s.mem.answering a.toNat = some st ∧ a.toNat < st.size) ∧
    ((∃ t, memWrite s a v = .ok t) ↔ ∃ st, s.mem.answering a.toNat = some st ∧ a.toNat < st.size ∧ st.kind = .flat) ∧
    (∀ e, memRead s a = .error e → e = { addr := a, kind := .read }) ∧
    (∀ e, memWrite s a v = .error e → e = { addr := a, kind := .write })

/-- Composite routing (R72, R73): the override's store answers its address, else the default, else none; a write changes
the answering store only, never the default behind an override, and no mapping. -/
def Obligations.CompositeWriteReachesOneStore : Prop :=
  ∀ (m : Memory) (a : Nat),
    (∀ k, overrideAt m.overrides a = some k → m.route a = some k) ∧
    (overrideAt m.overrides a = none → m.route a = m.base) ∧
    (m.route a = none → m.read a = none ∧ ∀ v, m.write a v = none) ∧
    (∀ (v : Byte) (m' : Memory), m.write a v = some m' → ∃ k, m.route a = some k ∧
      (∀ j, j ≠ k → m'.stores[j]? = m.stores[j]?) ∧ m'.base = m.base ∧ m'.overrides = m.overrides ∧
      ∃ st, m.stores[k]? = some st ∧ m'.stores[k]? = some { st with cells := cellsWrite st.cells a v })

/-- Adding an override (R74): the address is answered by the named store and every other address as before; the stores are
shared. -/
def Obligations.AddingAnOverride : Prop :=
  ∀ (m m' : Memory) (a k : Nat), m.wf = true → m.addOverride a k = some m' →
    m'.wf = true ∧ m'.stores = m.stores ∧ m'.base = m.base ∧ m'.route a = some k ∧ ∀ b, b ≠ a → m'.route b = m.route b

/-- The contract's reset (R70, R71, R74): every cell of every flat store the composite names, hidden behind an override or
not, reads $00 afterwards; a read-only store stays as it is; a store the composite does not name is left alone; no mapping
changes. So an answered address reads $00 or, in a read-only store, as before. -/
def Obligations.ContractReset : Prop :=
  ∀ m : Memory,
    (∀ (k : Nat) (st : Store), (m.base = some k ∨ ∃ o ∈ m.overrides, o.2 = k) → m.stores[k]? = some st →
      ∃ st', m.clear.stores[k]? = some st' ∧ st'.kind = st.kind ∧ st'.size = st.size ∧
        (match st.kind with | .flat => ∀ a, a < st.size → st'.read a = some 0 | .readOnly => st' = st)) ∧
    (∀ k, m.base ≠ some k → (∀ o ∈ m.overrides, o.2 ≠ k) → m.clear.stores[k]? = m.stores[k]?) ∧
    m.clear.base = m.base ∧ m.clear.overrides = m.overrides ∧
    ∀ (a : Nat) (st : Store), m.answering a = some st → a < st.size →
      m.clear.read a = (match st.kind with | .flat => some 0 | .readOnly => m.read a)

/-- Block operations (R68, R69): what a block write stored, the range read gives back; the contract's word read is
big-endian, unlike every 16-bit quantity of the core; a lone store reports its own size (R67). What another composite
reports is a free value (log entry 19). -/
def Obligations.BlocksAndWords : Prop :=
  (∀ (m m' : Memory) (a : Nat) (bs : List Byte), m.wf = true → m.setBlock a bs = some m' →
    m'.getBlock a (a + bs.length) = some bs) ∧
  (∀ (m : Memory) (a : Nat) (w : Word), m.getWord a = some w ↔
    ∃ h l, m.read a = some h ∧ m.read (a + 1) = some l ∧ w.toNat = h.toNat * 256 + l.toNat) ∧
  (∀ (m : Memory) (k : Nat) (st : Store), m.overrides = [] → m.base = some k → m.stores[k]? = some st → m.size = st.size)

/-- The signed reading of a byte (R9): b, or b - 256 when bit 7 is set; it round-trips through the signed constructor, which fails
outside [-128,127] (R13). -/
def Obligations.SignedBytes : Prop :=
  (∀ b : Byte, signed b = (if b.getLsbD 7 then (b.toNat : Int) - 256 else b.toNat) ∧ signedByte (signed b) = some b) ∧
  (∀ v : Int, (signedByte v).isSome = true ↔ -128 ≤ v ∧ v ≤ 127)
end

