-- ==== Sys2Proof/Laws/Bits.lean ====
section
/-! SUPPORT. Words and their bytes. -/
namespace Sys2Proof

theorem word_toNat (hi lo : Byte) : (word hi lo).toNat = hi.toNat * 256 + lo.toNat := by
  have h1 := hi.isLt
  have h2 := lo.isLt
  simp only [word, BitVec.toNat_ofNat]
  omega

theorem hiByte_toNat (w : Word) : (hiByte w).toNat = w.toNat / 256 := by
  have h := w.isLt
  simp only [hiByte, BitVec.extractLsb'_toNat, Nat.shiftRight_eq_div_pow]
  omega

theorem loByte_toNat (w : Word) : (loByte w).toNat = w.toNat % 256 := by
  simp [loByte, BitVec.extractLsb'_toNat]

@[simp] theorem word_hi_lo (w : Word) : word (hiByte w) (loByte w) = w := by
  apply BitVec.eq_of_toNat_eq
  rw [word_toNat, hiByte_toNat, loByte_toNat]
  omega

@[simp] theorem hiByte_word (hi lo : Byte) : hiByte (word hi lo) = hi := by
  apply BitVec.eq_of_toNat_eq
  have h := lo.isLt
  rw [hiByte_toNat, word_toNat]
  omega

@[simp] theorem loByte_word (hi lo : Byte) : loByte (word hi lo) = lo := by
  apply BitVec.eq_of_toNat_eq
  have h := lo.isLt
  rw [loByte_toNat, word_toNat]
  omega

theorem zext_toNat (b : Byte) : (zext b).toNat = b.toNat := by
  have h := b.isLt
  simp only [zext, BitVec.toNat_setWidth]
  omega

theorem signed_eq_toInt (b : Byte) : signed b = b.toInt := by
  have h := b.isLt
  have hm : b.getLsbD 7 = decide (128 ≤ b.toNat) := by
    have := BitVec.msb_eq_decide b
    simpa [BitVec.msb_eq_getLsbD_last] using this
  unfold signed
  rw [hm, BitVec.toInt_eq_toNat_cond]
  by_cases h8 : 128 ≤ b.toNat
  · have e : ((~~~b + 1).toNat : Nat) = 256 - b.toNat := by
      simp only [BitVec.toNat_add, BitVec.toNat_not]
      show (2 ^ 8 - 1 - b.toNat + 1) % 2 ^ 8 = _
      omega
    simp only [h8, decide_true, if_true, e]
    rw [if_neg (by omega)]
    omega
  · simp only [h8, decide_false, Bool.false_eq_true, if_false]
    rw [if_pos (by omega)]

/-- `sext_16(b)` is `signed(b) mod 65536` (R12). -/
theorem sext_eq (b : Byte) : sext b = BitVec.ofInt 16 (signed b) := by
  rw [signed_eq_toInt]
  rfl

end Sys2Proof
end

