-- ==== Sys2Proof/Laws/Flags.lean ====
section
/-! SUPPORT. What each flag computation does to each flag of P. -/
namespace Sys2Proof.Machine

/-- Reading a flag after writing one. -/
@[simp] theorem getFlag_setFlag (f g : Flag) (v : Bool) (p : Byte) :
    getFlag (setFlag f v p) g = if g = f then v else getFlag p g := by
  cases f <;> cases g <;> cases v <;> simp [getFlag, setFlag, Flag.mask, Flag.bit]

/-- A status byte is its eight flags. -/
theorem status_ext {p q : Byte} (h : ∀ f, getFlag p f = getFlag q f) : p = q := by
  apply BitVec.eq_of_getLsbD_eq
  intro i hi
  have hi : i < 8 := hi
  match i, hi with
  | 0, _ => exact h .C
  | 1, _ => exact h .Z
  | 2, _ => exact h .I
  | 3, _ => exact h .D
  | 4, _ => exact h .B
  | 5, _ => exact h .U
  | 6, _ => exact h .V
  | 7, _ => exact h .N

theorem getFlag_setZN (f : Flag) (v p : Byte) :
    getFlag (setZN v p) f = if f = .N then v.getLsbD 7 else if f = .Z then v == 0 else getFlag p f := by
  simp [setZN]

theorem getFlag_pushedByProgram (f : Flag) (p : Byte) :
    getFlag (pushedByProgram p) f = if f = .B ∨ f = .U then true else getFlag p f := by
  cases f <;> simp [getFlag, pushedByProgram, Flag.bit]

theorem getFlag_pushedByInterrupt (f : Flag) (p : Byte) :
    getFlag (pushedByInterrupt p) f = if f = .B then false else if f = .U then true else getFlag p f := by
  cases f <;> simp [getFlag, pushedByInterrupt, Flag.bit]

theorem getFlag_pulledStatus (f : Flag) (v p : Byte) :
    getFlag (pulledStatus v p) f = if f = .B then getFlag p .B else if f = .U then true else getFlag v f := by
  cases f <;> simp [getFlag, pulledStatus, Flag.bit]

theorem getFlag_sumFlags (f : Flag) (r : AluSum) (p : Byte) :
    getFlag (sumFlags r p) f = if f = .N then r.value.getLsbD 7 else if f = .Z then r.value == 0
      else if f = .V then r.overflow else if f = .C then r.carry else getFlag p f := by
  simp [sumFlags, getFlag_setZN]

theorem getFlag_compareFlags (f : Flag) (r m p : Byte) :
    getFlag (compareFlags r m p) f = if f = .N then (r - m).getLsbD 7 else if f = .Z then r == m
      else if f = .C then decide (m.toNat ≤ r.toNat) else getFlag p f := by
  simp [compareFlags]

theorem getFlag_bitTestFlags (f : Flag) (a m p : Byte) :
    getFlag (bitTestFlags a m p) f = if f = .V then m.getLsbD 6 else if f = .N then m.getLsbD 7
      else if f = .Z then (a &&& m) == 0 else getFlag p f := by
  simp [bitTestFlags]

theorem getFlag_shifted (f : Flag) (r : Byte) (c : Bool) (p : Byte) :
    getFlag (shifted r c p).status f = if f = .N then r.getLsbD 7 else if f = .Z then r == 0
      else if f = .C then c else getFlag p f := by
  simp [shifted, getFlag_setZN]

/-- The accessor's view of P differs from the register only in bit 5, which reads 1 (R38). -/
theorem getFlag_statusRead (f : Flag) (s : State) : getFlag s.statusRead f = if f = .U then true else getFlag s.p f := by
  cases f <;> simp [getFlag, State.statusRead, Flag.bit]

/-- The adder's result byte (R170). -/
theorem addWithCarry_value (a m : Byte) (c : Bool) :
    (addWithCarry a m c).value.toNat = (a.toNat + m.toNat + c.toNat) % 256 := by
  simp [addWithCarry]

end Sys2Proof.Machine
end

