-- ==== Sys2Proof/Laws/Memory.lean ====
section
/-! SUPPORT. The laws of the memory contract: read after write, the canonical form kept by every operation, and what a
write leaves alone. -/
namespace Sys2Proof.Machine

/-! Cells. -/

theorem cellsWf_weaken : ∀ {l : List Host.Cell} {lo lo' : Nat}, cellsWf lo l = true → lo' ≤ lo → cellsWf lo' l = true
  | [], _, _, _, _ => rfl
  | (k, v) :: r, lo, lo', h, hl => by
    simp only [cellsWf, Bool.and_eq_true, decide_eq_true_eq] at h ⊢
    exact ⟨⟨by omega, h.1.2⟩, h.2⟩

/-- Below its first address a canonical list lists nothing. -/
theorem cellsRead_below : ∀ {l : List Host.Cell} {lo a : Nat}, cellsWf lo l = true → a < lo → cellsRead l a = unlistedByte
  | [], _, _, _, _ => rfl
  | (k, v) :: r, lo, a, h, ha => by
    simp only [cellsWf, Bool.and_eq_true, decide_eq_true_eq] at h
    have : a < k := by omega
    simp [cellsRead, this]

/-- A byte written is the byte read. -/
theorem cellsRead_write_same (l : List Host.Cell) (lo a : Nat) (v : Byte) (h : cellsWf lo l = true) :
    cellsRead (cellsWrite l a v) a = v := by
  induction l generalizing lo with
  | nil => by_cases hv : v = unlistedByte <;> simp [cellsWrite, cellsRead, hv]
  | cons c r ih =>
    obtain ⟨k, w⟩ := c
    simp only [cellsWf, Bool.and_eq_true, decide_eq_true_eq] at h
    rcases Nat.lt_trichotomy a k with hk | hk | hk
    · by_cases hv : v = unlistedByte <;> simp [cellsWrite, cellsRead, hk, hv]
    · subst hk
      by_cases hv : v = unlistedByte
      · simp [cellsWrite, hv, cellsRead_below h.2 (Nat.lt_succ_self a)]
      · simp [cellsWrite, cellsRead, hv]
    · have h1 : ¬ a < k := by omega
      have h2 : a ≠ k := by omega
      simp [cellsWrite, cellsRead, h1, h2, ih _ h.2]

/-- A write leaves every other address alone. -/
theorem cellsRead_write_other (l : List Host.Cell) (lo a b : Nat) (v : Byte) (h : cellsWf lo l = true) (hb : b ≠ a) :
    cellsRead (cellsWrite l a v) b = cellsRead l b := by
  induction l generalizing lo with
  | nil =>
    by_cases hv : v = unlistedByte <;> simp [cellsWrite, cellsRead, hv, hb]
  | cons c r ih =>
    obtain ⟨k, w⟩ := c
    simp only [cellsWf, Bool.and_eq_true, decide_eq_true_eq] at h
    rcases Nat.lt_trichotomy a k with hk | hk | hk
    · by_cases hv : v = unlistedByte
      · simp [cellsWrite, hk, hv]
      · simp only [cellsWrite, hk, hv, if_true, if_false, cellsRead, hb]
        by_cases h1 : b < a
        · have : b < k := by omega
          simp [h1, this]
        · simp [h1]
    · subst hk
      by_cases hv : v = unlistedByte
      · simp only [cellsWrite, Nat.lt_irrefl, if_false, if_true, hv, cellsRead, hb]
        by_cases h1 : b < a
        · rw [if_pos h1, cellsRead_below h.2 (by omega)]
        · rw [if_neg h1]
      · simp [cellsWrite, cellsRead, hv, hb]
    · have h1 : ¬ a < k := by omega
      have h2 : a ≠ k := by omega
      simp [cellsWrite, cellsRead, h1, h2, ih _ h.2]

/-- A write keeps the canonical form. -/
theorem cellsWf_write (l : List Host.Cell) (lo a : Nat) (v : Byte) (h : cellsWf lo l = true) (ha : lo ≤ a) :
    cellsWf lo (cellsWrite l a v) = true := by
  induction l generalizing lo with
  | nil => by_cases hv : v = unlistedByte <;> simp [cellsWrite, cellsWf, hv, ha]
  | cons c r ih =>
    obtain ⟨k, w⟩ := c
    have h0 := h
    simp only [cellsWf, Bool.and_eq_true, decide_eq_true_eq] at h
    rcases Nat.lt_trichotomy a k with hk | hk | hk
    · by_cases hv : v = unlistedByte
      · simpa [cellsWrite, hk, hv] using h0
      · simp only [cellsWrite, hk, hv, if_true, if_false, cellsWf, Bool.and_eq_true, decide_eq_true_eq]
        exact ⟨⟨ha, by simpa using hv⟩, ⟨by omega, h.1.2⟩, h.2⟩
    · subst hk
      by_cases hv : v = unlistedByte
      · simpa [cellsWrite, hv] using cellsWf_weaken h.2 (by omega)
      · simp only [cellsWrite, Nat.lt_irrefl, hv, if_true, if_false, cellsWf, Bool.and_eq_true, decide_eq_true_eq]
        exact ⟨⟨ha, by simpa using hv⟩, h.2⟩
    · have h1 : ¬ a < k := by omega
      have h2 : a ≠ k := by omega
      simp only [cellsWrite, h1, h2, if_false, cellsWf, Bool.and_eq_true, decide_eq_true_eq]
      exact ⟨h.1, ih _ h.2 (by omega)⟩

/-- A write in range keeps every listed address in range. -/
theorem cellsBelow_write (l : List Host.Cell) (n a : Nat) (v : Byte) (h : cellsBelow n l = true) (ha : a < n) :
    cellsBelow n (cellsWrite l a v) = true := by
  induction l with
  | nil => by_cases hv : v = unlistedByte <;> simp [cellsWrite, cellsBelow, hv, ha]
  | cons c r ih =>
    obtain ⟨k, w⟩ := c
    simp only [cellsBelow, List.all_cons, Bool.and_eq_true, decide_eq_true_eq] at h ih ⊢
    simp only [cellsWrite]
    split
    · split <;> simp [h.1, ha] <;> simpa using h.2
    · split
      · split <;> simp [ha] <;> simpa using h.2
      · simp only [List.all_cons, Bool.and_eq_true, decide_eq_true_eq]
        exact ⟨h.1, ih h.2⟩

/-- Canonical cells that read the same are the same list: equal memories are equal data. -/
theorem cells_ext : ∀ {l r : List Host.Cell} {lo : Nat}, cellsWf lo l = true → cellsWf lo r = true →
    (∀ a, cellsRead l a = cellsRead r a) → l = r
  | [], [], _, _, _, _ => rfl
  | [], (k, v) :: r, _, _, hr, h => by
    simp only [cellsWf, Bool.and_eq_true, decide_eq_true_eq] at hr
    have := h k
    simp only [cellsRead, Nat.lt_irrefl, if_false, if_true] at this
    simp [this] at hr
  | (k, v) :: l, [], _, hl, _, h => by
    simp only [cellsWf, Bool.and_eq_true, decide_eq_true_eq] at hl
    have := h k
    simp only [cellsRead, Nat.lt_irrefl, if_false, if_true] at this
    simp [this] at hl
  | (k, v) :: l, (j, w) :: r, _, hl, hr, h => by
    simp only [cellsWf, Bool.and_eq_true, decide_eq_true_eq] at hl hr
    have hkj : k = j := by
      rcases Nat.lt_trichotomy k j with c | c | c
      · have := h k
        simp only [cellsRead, Nat.lt_irrefl, if_false, if_true, c] at this
        simp [this] at hl
      · exact c
      · have := h j
        simp only [cellsRead, Nat.lt_irrefl, if_false, if_true, c] at this
        simp [← this] at hr
    subst hkj
    have hv : v = w := by simpa [cellsRead] using h k
    have ht : l = r := by
      refine cells_ext hl.2 hr.2 fun a => ?_
      by_cases ha : a ≤ k
      · rw [cellsRead_below hl.2 (by omega), cellsRead_below hr.2 (by omega)]
      · have h1 : ¬ a < k := by omega
        have h2 : a ≠ k := by omega
        simpa [cellsRead, h1, h2] using h a
    rw [hv, ht]

/-! Leaf stores. -/

@[simp] theorem Store.put_kind (st : Store) (a : Nat) (v : Byte) : (st.put a v).kind = st.kind := rfl
@[simp] theorem Store.put_size (st : Store) (a : Nat) (v : Byte) : (st.put a v).size = st.size := rfl
@[simp] theorem Store.put_cells (st : Store) (a : Nat) (v : Byte) : (st.put a v).cells = cellsWrite st.cells a v := rfl

theorem Store.put_wf {st : Store} {a : Nat} {v : Byte} (h : st.wf = true) (ha : a < st.size) : (st.put a v).wf = true := by
  simp only [Store.wf, Bool.and_eq_true, decide_eq_true_eq] at h ⊢
  exact ⟨⟨h.1.1, cellsWf_write _ 0 a v h.1.2 (Nat.zero_le _)⟩, cellsBelow_write _ _ a v h.2 ha⟩

theorem Store.clear_wf {st : Store} (h : st.wf = true) : st.clear.wf = true := by
  cases hk : st.kind <;> simp only [Store.clear, hk]
  · simp only [Store.wf, Bool.and_eq_true, decide_eq_true_eq] at h ⊢
    exact ⟨⟨h.1.1, rfl⟩, rfl⟩
  · exact h

/-! The composite. -/

@[simp] theorem Memory.modify_base (m : Memory) (i : Nat) (f : Store → Store) : (m.modify i f).base = m.base := rfl
@[simp] theorem Memory.modify_overrides (m : Memory) (i : Nat) (f : Store → Store) :
    (m.modify i f).overrides = m.overrides := rfl
@[simp] theorem Memory.modify_route (m : Memory) (i : Nat) (f : Store → Store) (a : Nat) :
    (m.modify i f).route a = m.route a := rfl

theorem Memory.modify_store (m : Memory) (i j : Nat) (f : Store → Store) :
    (m.modify i f).stores[j]? = if i = j then (m.stores[j]?).map f else m.stores[j]? := by
  simp only [Memory.modify, List.getElem?_modify]
  by_cases h : i = j <;> simp [h]

theorem Memory.modify_wf {m : Memory} {i : Nat} {f : Store → Store} (h : m.wf = true)
    (hf : ∀ st, st.wf = true → (f st).wf = true) : (m.modify i f).wf = true := by
  simp only [Memory.wf, Bool.and_eq_true] at h ⊢
  have hlen : (m.modify i f).stores.length = m.stores.length := by simp [Memory.modify]
  refine ⟨⟨⟨?_, h.1.1.2⟩, ?_⟩, ?_⟩
  · rw [List.all_eq_true] at *
    intro st hst
    obtain ⟨j, hj⟩ := List.mem_iff_getElem?.mp hst
    rw [Memory.modify_store] at hj
    split at hj
    · cases hs : m.stores[j]? with
      | none => simp [hs] at hj
      | some st0 =>
        simp only [hs, Option.map_some, Option.some.injEq] at hj
        subst hj
        exact hf _ (h.1.1.1 _ (List.mem_iff_getElem?.mpr ⟨j, hs⟩))
    · exact h.1.1.1 _ (List.mem_iff_getElem?.mpr ⟨j, hj⟩)
  · simpa [hlen] using h.1.2
  · simpa [hlen] using h.2

/-- The store a successful access reaches. -/
theorem Memory.writable_iff (m : Memory) (a : Nat) : m.writable a = true ↔
    ∃ i st, m.route a = some i ∧ m.stores[i]? = some st ∧ st.kind = .flat ∧ a < st.size := by
  simp only [Memory.writable, Memory.answering]
  cases m.route a with
  | none => simp
  | some i => cases h : m.stores[i]? <;> simp [Store.writable, h]

theorem Memory.answering_put (m : Memory) (a b : Nat) (v : Byte) :
    (m.put a v).answering b = (m.answering b).map fun st =>
      if m.route a = m.route b ∧ a < st.size then st.put a v else st := by
  simp only [Memory.put]
  cases ha : m.route a with
  | none => cases hb : m.answering b with
    | none => simp
    | some st =>
      have : m.route b ≠ none := by
        intro hn
        simp [Memory.answering, hn] at hb
      simp [Ne.symm this]
  | some i =>
    simp only [Memory.answering, Memory.modify_route]
    cases hb : m.route b with
    | none => simp
    | some j =>
      simp only [Memory.modify_store]
      by_cases hij : i = j
      · subst hij
        simp
      · simp [hij]

/-- Replacing a byte changes no address's permissions. -/
@[simp] theorem Memory.put_writable (m : Memory) (a b : Nat) (v : Byte) : (m.put a v).writable b = m.writable b := by
  simp only [Memory.writable, Memory.answering_put]
  cases m.answering b with
  | none => rfl
  | some st =>
    simp only [Option.map_some]
    split <;> rfl

@[simp] theorem Memory.put_read_isSome (m : Memory) (a b : Nat) (v : Byte) :
    ((m.put a v).read b).isSome = (m.read b).isSome := by
  simp only [Memory.read, Memory.answering_put]
  cases m.answering b with
  | none => rfl
  | some st =>
    simp only [Option.map_some, Store.read]
    split <;> by_cases h : b < st.size <;> simp [h]

@[simp] theorem Memory.put_allows (m : Memory) (a : Nat) (v : Byte) (acc : Access) :
    (m.put a v).allows acc = m.allows acc := by
  simp [Memory.allows]

theorem Memory.put_wf {m : Memory} {a : Nat} {v : Byte} (h : m.wf = true) : (m.put a v).wf = true := by
  simp only [Memory.put]
  split
  · refine Memory.modify_wf h fun st hst => ?_
    split
    · exact Store.put_wf hst ‹_›
    · exact hst
  · exact h

theorem Memory.answering_wf {m : Memory} {a : Nat} {st : Store} (h : m.wf = true) (hs : m.answering a = some st) :
    st.wf = true := by
  simp only [Memory.wf, Bool.and_eq_true, List.all_eq_true] at h
  simp only [Memory.answering] at hs
  split at hs
  · exact h.1.1.1 _ (List.mem_iff_getElem?.mpr ⟨_, hs⟩)
  · exact absurd hs (by simp)

theorem Memory.write_eq {m m' : Memory} {a : Nat} {v : Byte} (h : m.write a v = some m') :
    m.writable a = true ∧ m' = m.put a v := by
  simp only [Memory.write] at h
  split at h
  · exact ⟨‹_›, (Option.some.inj h).symm⟩
  · exact absurd h (by simp)

theorem Memory.read_of_writable {m : Memory} {a : Nat} (h : m.writable a = true) : (m.read a).isSome = true := by
  obtain ⟨i, st, hr, hs, -, ha⟩ := (m.writable_iff a).mp h
  simp [Memory.read, Memory.answering, hr, hs, Store.read, ha]

/-- Read after put, where the byte can be read at all. -/
theorem Memory.read_put {m : Memory} {a : Nat} (b : Nat) (v : Byte) (h : m.wf = true) (ha : (m.read a).isSome = true) :
    (m.put a v).read b = if b = a then some v else m.read b := by
  simp only [Memory.read] at ha ⊢
  rw [Memory.answering_put]
  cases hb : m.answering b with
  | none =>
    by_cases hab : b = a
    · subst hab
      simp [hb] at ha
    · simp [hab]
  | some st =>
    have hst := Memory.answering_wf h hb
    simp only [Store.wf, Bool.and_eq_true, decide_eq_true_eq] at hst
    simp only [Option.map_some]
    by_cases hab : b = a
    · subst hab
      have hsz : b < st.size := by
        by_contra hn
        simp [hb, Store.read, hn] at ha
      simp [hsz, Store.read, cellsRead_write_same _ 0 _ _ hst.1.2]
    · simp only [hab, if_false]
      split
      · simp only [Store.read, Store.put_size, Store.put_cells, cellsRead_write_other _ 0 _ _ _ hst.1.2 hab]
      · rfl

/-! The size, and the contract's reset. -/

/-- A lone store reports its own size (R67). -/
theorem Memory.size_lone {m : Memory} {k : Nat} {st : Store} (ho : m.overrides = []) (hb : m.base = some k)
    (hs : m.stores[k]? = some st) : m.size = st.size := by
  simp [Memory.size, ho, hb, hs]

/-- Replacing a byte changes no store's size. -/
theorem Memory.put_sizes (m : Memory) (a : Nat) (v : Byte) : (m.put a v).stores.map Store.size = m.stores.map Store.size := by
  simp only [Memory.put]
  split
  · rename_i i hi
    refine List.ext_getElem? fun j => ?_
    rw [List.getElem?_map, List.getElem?_map, Memory.modify_store]
    split
    · cases m.stores[j]? with
      | none => rfl
      | some st =>
        simp only [Option.map_some]
        split <;> rfl
    · rfl
  · rfl

/-- A write changes no size (R61, R67). -/
@[simp] theorem Memory.size_put (m : Memory) (a : Nat) (v : Byte) : (m.put a v).size = m.size := by
  have h : (m.put a v).base = m.base ∧ (m.put a v).overrides = m.overrides := by
    simp only [Memory.put]
    split <;> exact ⟨rfl, rfl⟩
  simp only [Memory.size, h, Memory.put_sizes]

/-- The contract's reset maps each store the composite names to its own reset, once, and leaves every other alone (R74). -/
theorem Memory.clear_store (m : Memory) (k : Nat) :
    m.clear.stores[k]? = if k ∈ m.backing then (m.stores[k]?).map Store.clear else m.stores[k]? := by
  have fold : ∀ (l : List Nat) (m : Memory), l.Nodup → (l.foldl (fun acc i => acc.modify i Store.clear) m).stores[k]?
      = if k ∈ l then (m.stores[k]?).map Store.clear else m.stores[k]? := by
    intro l
    induction l with
    | nil => intro m _; simp
    | cons i r ih =>
      intro m hn
      rw [List.nodup_cons] at hn
      rw [List.foldl_cons, ih _ hn.2, Memory.modify_store]
      by_cases hi : i = k
      · subst hi
        simp [hn.1]
      · simp [hi, Ne.symm hi]
  exact fold _ _ (List.nodup_dedup _)

/-- Resetting, loading and adding an override keep the invariant. -/
theorem Memory.clear_wf {m : Memory} (h : m.wf = true) : m.clear.wf = true := by
  have : ∀ (l : List Nat) (m : Memory), m.wf = true → (l.foldl (fun acc i => acc.modify i Store.clear) m).wf = true := by
    intro l
    induction l with
    | nil => exact fun _ h => h
    | cons i r ih => exact fun m h => ih _ (Memory.modify_wf h fun _ => Store.clear_wf)
  exact this _ _ h

theorem Memory.setBlock_wf : ∀ {bs : List Byte} {m m' : Memory} {a : Nat}, m.wf = true → m.setBlock a bs = some m' →
    m'.wf = true
  | [], _, _, _, h, e => by
    simp only [Memory.setBlock, Option.some.injEq] at e
    exact e ▸ h
  | v :: r, m, m', a, h, e => by
    simp only [Memory.setBlock] at e
    split at e
    · rename_i m1 h1
      exact Memory.setBlock_wf ((Memory.write_eq h1).2 ▸ Memory.put_wf h) e
    · exact absurd e (by simp)

theorem Memory.load_wf : ∀ {bs : List Byte} {m : Memory} {a : Word}, m.wf = true → (m.load a bs).wf = true
  | [], _, _, h => h
  | v :: r, m, a, h => by
    rw [Memory.load]
    exact Memory.load_wf (Memory.put_wf h)

theorem insertOverride_wf : ∀ {l : List (Nat × Nat)} {lo a i : Nat}, overridesWf lo l = true → lo ≤ a →
    overridesWf lo (insertOverride l a i) = true
  | [], lo, a, i, _, ha => by simp [insertOverride, overridesWf, ha]
  | (k, j) :: r, lo, a, i, h, ha => by
    simp only [overridesWf, Bool.and_eq_true, decide_eq_true_eq] at h
    simp only [insertOverride]
    split
    · simp only [overridesWf, Bool.and_eq_true, decide_eq_true_eq]
      exact ⟨ha, by omega, h.2⟩
    · split
      · rename_i hk
        subst hk
        simp [overridesWf, ha, h.2]
      · simp only [overridesWf, Bool.and_eq_true, decide_eq_true_eq]
        exact ⟨h.1, insertOverride_wf h.2 (by omega)⟩

theorem insertOverride_mem : ∀ {l : List (Nat × Nat)} {a i : Nat} {o : Nat × Nat}, o ∈ insertOverride l a i → o = (a, i) ∨ o ∈ l
  | [], a, i, o, h => by simpa [insertOverride] using h
  | (k, j) :: r, a, i, o, h => by
    simp only [insertOverride] at h
    split at h
    · simpa using h
    · split at h
      · rcases List.mem_cons.mp h with h | h
        · exact .inl h
        · exact .inr (List.mem_cons_of_mem _ h)
      · rcases List.mem_cons.mp h with h | h
        · exact .inr (h ▸ List.mem_cons_self)
        · rcases insertOverride_mem h with h | h
          · exact .inl h
          · exact .inr (List.mem_cons_of_mem _ h)

theorem Memory.addOverride_wf {m m' : Memory} {a i : Nat} (h : m.wf = true) (e : m.addOverride a i = some m') :
    m'.wf = true := by
  simp only [Memory.addOverride] at e
  split at e
  · rename_i hi
    simp only [Option.some.injEq] at e
    subst e
    simp only [Memory.wf, Bool.and_eq_true, List.all_eq_true, decide_eq_true_eq] at h ⊢
    refine ⟨⟨⟨h.1.1.1, insertOverride_wf h.1.1.2 (Nat.zero_le _)⟩, fun o ho => ?_⟩, h.2⟩
    rcases insertOverride_mem ho with rfl | ho
    · exact hi
    · exact h.1.2 o ho
  · exact absurd e (by simp)

/-- The default memory is well formed. -/
theorem Memory.blank_wf : Memory.blank.wf = true := by decide

end Sys2Proof.Machine
end

