-- ==== Sys2Proof/Laws/State.lean ====
section
/-! SUPPORT. One lemma per field per register update: what each update sets and what it keeps. -/
namespace Sys2Proof.Machine

@[simp] theorem setPc_a (w : Word) (s : State) : (setPc w s).a = s.a := rfl
@[simp] theorem setPc_x (w : Word) (s : State) : (setPc w s).x = s.x := rfl
@[simp] theorem setPc_y (w : Word) (s : State) : (setPc w s).y = s.y := rfl
@[simp] theorem setPc_sp (w : Word) (s : State) : (setPc w s).sp = s.sp := rfl
@[simp] theorem setPc_pc (w : Word) (s : State) : (setPc w s).pc = w := rfl
@[simp] theorem setPc_p (w : Word) (s : State) : (setPc w s).p = s.p := rfl
@[simp] theorem setPc_faulted (w : Word) (s : State) : (setPc w s).faulted = s.faulted := rfl
@[simp] theorem setPc_mem (w : Word) (s : State) : (setPc w s).mem = s.mem := rfl
@[simp] theorem setPc_irq (w : Word) (s : State) : (setPc w s).irq = s.irq := rfl
@[simp] theorem setPc_nmi (w : Word) (s : State) : (setPc w s).nmi = s.nmi := rfl
@[simp] theorem setPc_cfg (w : Word) (s : State) : (setPc w s).cfg = s.cfg := rfl
@[simp] theorem setPc_freeCount (w : Word) (s : State) : (setPc w s).freeCount = s.freeCount := rfl

@[simp] theorem setSp_a (v : Byte) (s : State) : (setSp v s).a = s.a := rfl
@[simp] theorem setSp_x (v : Byte) (s : State) : (setSp v s).x = s.x := rfl
@[simp] theorem setSp_y (v : Byte) (s : State) : (setSp v s).y = s.y := rfl
@[simp] theorem setSp_sp (v : Byte) (s : State) : (setSp v s).sp = v := rfl
@[simp] theorem setSp_pc (v : Byte) (s : State) : (setSp v s).pc = s.pc := rfl
@[simp] theorem setSp_p (v : Byte) (s : State) : (setSp v s).p = s.p := rfl
@[simp] theorem setSp_faulted (v : Byte) (s : State) : (setSp v s).faulted = s.faulted := rfl
@[simp] theorem setSp_mem (v : Byte) (s : State) : (setSp v s).mem = s.mem := rfl
@[simp] theorem setSp_irq (v : Byte) (s : State) : (setSp v s).irq = s.irq := rfl
@[simp] theorem setSp_nmi (v : Byte) (s : State) : (setSp v s).nmi = s.nmi := rfl
@[simp] theorem setSp_cfg (v : Byte) (s : State) : (setSp v s).cfg = s.cfg := rfl
@[simp] theorem setSp_freeCount (v : Byte) (s : State) : (setSp v s).freeCount = s.freeCount := rfl

@[simp] theorem setStatus_a (q : Byte) (s : State) : (setStatus q s).a = s.a := rfl
@[simp] theorem setStatus_x (q : Byte) (s : State) : (setStatus q s).x = s.x := rfl
@[simp] theorem setStatus_y (q : Byte) (s : State) : (setStatus q s).y = s.y := rfl
@[simp] theorem setStatus_sp (q : Byte) (s : State) : (setStatus q s).sp = s.sp := rfl
@[simp] theorem setStatus_pc (q : Byte) (s : State) : (setStatus q s).pc = s.pc := rfl
@[simp] theorem setStatus_p (q : Byte) (s : State) : (setStatus q s).p = q := rfl
@[simp] theorem setStatus_faulted (q : Byte) (s : State) : (setStatus q s).faulted = s.faulted := rfl
@[simp] theorem setStatus_mem (q : Byte) (s : State) : (setStatus q s).mem = s.mem := rfl
@[simp] theorem setStatus_irq (q : Byte) (s : State) : (setStatus q s).irq = s.irq := rfl
@[simp] theorem setStatus_nmi (q : Byte) (s : State) : (setStatus q s).nmi = s.nmi := rfl
@[simp] theorem setStatus_cfg (q : Byte) (s : State) : (setStatus q s).cfg = s.cfg := rfl
@[simp] theorem setStatus_freeCount (q : Byte) (s : State) : (setStatus q s).freeCount = s.freeCount := rfl

@[simp] theorem setMem_a (m : Memory) (s : State) : (setMem m s).a = s.a := rfl
@[simp] theorem setMem_x (m : Memory) (s : State) : (setMem m s).x = s.x := rfl
@[simp] theorem setMem_y (m : Memory) (s : State) : (setMem m s).y = s.y := rfl
@[simp] theorem setMem_sp (m : Memory) (s : State) : (setMem m s).sp = s.sp := rfl
@[simp] theorem setMem_pc (m : Memory) (s : State) : (setMem m s).pc = s.pc := rfl
@[simp] theorem setMem_p (m : Memory) (s : State) : (setMem m s).p = s.p := rfl
@[simp] theorem setMem_faulted (m : Memory) (s : State) : (setMem m s).faulted = s.faulted := rfl
@[simp] theorem setMem_mem (m : Memory) (s : State) : (setMem m s).mem = m := rfl
@[simp] theorem setMem_irq (m : Memory) (s : State) : (setMem m s).irq = s.irq := rfl
@[simp] theorem setMem_nmi (m : Memory) (s : State) : (setMem m s).nmi = s.nmi := rfl
@[simp] theorem setMem_cfg (m : Memory) (s : State) : (setMem m s).cfg = s.cfg := rfl
@[simp] theorem setMem_freeCount (m : Memory) (s : State) : (setMem m s).freeCount = s.freeCount := rfl

@[simp] theorem setAStatus_a (v q : Byte) (s : State) : (setAStatus v q s).a = v := rfl
@[simp] theorem setAStatus_x (v q : Byte) (s : State) : (setAStatus v q s).x = s.x := rfl
@[simp] theorem setAStatus_y (v q : Byte) (s : State) : (setAStatus v q s).y = s.y := rfl
@[simp] theorem setAStatus_sp (v q : Byte) (s : State) : (setAStatus v q s).sp = s.sp := rfl
@[simp] theorem setAStatus_pc (v q : Byte) (s : State) : (setAStatus v q s).pc = s.pc := rfl
@[simp] theorem setAStatus_p (v q : Byte) (s : State) : (setAStatus v q s).p = q := rfl
@[simp] theorem setAStatus_faulted (v q : Byte) (s : State) : (setAStatus v q s).faulted = s.faulted := rfl
@[simp] theorem setAStatus_mem (v q : Byte) (s : State) : (setAStatus v q s).mem = s.mem := rfl
@[simp] theorem setAStatus_irq (v q : Byte) (s : State) : (setAStatus v q s).irq = s.irq := rfl
@[simp] theorem setAStatus_nmi (v q : Byte) (s : State) : (setAStatus v q s).nmi = s.nmi := rfl
@[simp] theorem setAStatus_cfg (v q : Byte) (s : State) : (setAStatus v q s).cfg = s.cfg := rfl
@[simp] theorem setAStatus_freeCount (v q : Byte) (s : State) : (setAStatus v q s).freeCount = s.freeCount := rfl

@[simp] theorem writeA_a (v : Byte) (s : State) : (writeA v s).a = v := rfl
@[simp] theorem writeA_x (v : Byte) (s : State) : (writeA v s).x = s.x := rfl
@[simp] theorem writeA_y (v : Byte) (s : State) : (writeA v s).y = s.y := rfl
@[simp] theorem writeA_sp (v : Byte) (s : State) : (writeA v s).sp = s.sp := rfl
@[simp] theorem writeA_pc (v : Byte) (s : State) : (writeA v s).pc = s.pc := rfl
@[simp] theorem writeA_p (v : Byte) (s : State) : (writeA v s).p = setZN v s.p := rfl
@[simp] theorem writeA_faulted (v : Byte) (s : State) : (writeA v s).faulted = s.faulted := rfl
@[simp] theorem writeA_mem (v : Byte) (s : State) : (writeA v s).mem = s.mem := rfl
@[simp] theorem writeA_irq (v : Byte) (s : State) : (writeA v s).irq = s.irq := rfl
@[simp] theorem writeA_nmi (v : Byte) (s : State) : (writeA v s).nmi = s.nmi := rfl
@[simp] theorem writeA_cfg (v : Byte) (s : State) : (writeA v s).cfg = s.cfg := rfl
@[simp] theorem writeA_freeCount (v : Byte) (s : State) : (writeA v s).freeCount = s.freeCount := rfl

@[simp] theorem writeX_a (v : Byte) (s : State) : (writeX v s).a = s.a := rfl
@[simp] theorem writeX_x (v : Byte) (s : State) : (writeX v s).x = v := rfl
@[simp] theorem writeX_y (v : Byte) (s : State) : (writeX v s).y = s.y := rfl
@[simp] theorem writeX_sp (v : Byte) (s : State) : (writeX v s).sp = s.sp := rfl
@[simp] theorem writeX_pc (v : Byte) (s : State) : (writeX v s).pc = s.pc := rfl
@[simp] theorem writeX_p (v : Byte) (s : State) : (writeX v s).p = setZN v s.p := rfl
@[simp] theorem writeX_faulted (v : Byte) (s : State) : (writeX v s).faulted = s.faulted := rfl
@[simp] theorem writeX_mem (v : Byte) (s : State) : (writeX v s).mem = s.mem := rfl
@[simp] theorem writeX_irq (v : Byte) (s : State) : (writeX v s).irq = s.irq := rfl
@[simp] theorem writeX_nmi (v : Byte) (s : State) : (writeX v s).nmi = s.nmi := rfl
@[simp] theorem writeX_cfg (v : Byte) (s : State) : (writeX v s).cfg = s.cfg := rfl
@[simp] theorem writeX_freeCount (v : Byte) (s : State) : (writeX v s).freeCount = s.freeCount := rfl

@[simp] theorem writeY_a (v : Byte) (s : State) : (writeY v s).a = s.a := rfl
@[simp] theorem writeY_x (v : Byte) (s : State) : (writeY v s).x = s.x := rfl
@[simp] theorem writeY_y (v : Byte) (s : State) : (writeY v s).y = v := rfl
@[simp] theorem writeY_sp (v : Byte) (s : State) : (writeY v s).sp = s.sp := rfl
@[simp] theorem writeY_pc (v : Byte) (s : State) : (writeY v s).pc = s.pc := rfl
@[simp] theorem writeY_p (v : Byte) (s : State) : (writeY v s).p = setZN v s.p := rfl
@[simp] theorem writeY_faulted (v : Byte) (s : State) : (writeY v s).faulted = s.faulted := rfl
@[simp] theorem writeY_mem (v : Byte) (s : State) : (writeY v s).mem = s.mem := rfl
@[simp] theorem writeY_irq (v : Byte) (s : State) : (writeY v s).irq = s.irq := rfl
@[simp] theorem writeY_nmi (v : Byte) (s : State) : (writeY v s).nmi = s.nmi := rfl
@[simp] theorem writeY_cfg (v : Byte) (s : State) : (writeY v s).cfg = s.cfg := rfl
@[simp] theorem writeY_freeCount (v : Byte) (s : State) : (writeY v s).freeCount = s.freeCount := rfl

end Sys2Proof.Machine
end

