-- ==== Sys2Proof/Laws/Ops.lean ====
section
/-! SUPPORT. One lemma per shared operation of Machine/Ops.lean that says what it does when it succeeds, and one that says
when it fails. -/
namespace Sys2Proof.Machine

/-! The memory port. -/

theorem memRead_ok {s : State} {a : Word} {v : Byte} : memRead s a = .ok v ↔ s.mem.read a.toNat = some v := by
  simp only [memRead]
  cases s.mem.read a.toNat <;> simp

theorem memRead_error {s : State} {a : Word} {e : Access} : memRead s a = .error e ↔
    e = { addr := a, kind := .read } ∧ s.mem.allows e = false := by
  simp only [memRead]
  cases h : s.mem.read a.toNat with
  | none =>
    constructor
    · intro he
      cases he
      simp [Memory.allows, h]
    · rintro ⟨rfl, -⟩
      rfl
  | some v =>
    constructor
    · intro he
      cases he
    · rintro ⟨rfl, hn⟩
      simp [Memory.allows, h] at hn

/-- A read succeeds exactly when the memory allows it. -/
theorem memRead_of_allows {s : State} {a : Word} (h : s.mem.allows { addr := a, kind := .read } = true) :
    ∃ v, memRead s a = .ok v := by
  obtain ⟨v, hv⟩ := Option.isSome_iff_exists.mp (by simpa [Memory.allows] using h)
  exact ⟨v, memRead_ok.mpr hv⟩

theorem memRead_of_not_allows {s : State} {a : Word} (h : s.mem.allows { addr := a, kind := .read } = false) :
    memRead s a = .error { addr := a, kind := .read } := memRead_error.mpr ⟨rfl, h⟩

theorem memWrite_ok {s t : State} {a : Word} {v : Byte} : memWrite s a v = .ok t ↔
    s.mem.writable a.toNat = true ∧ t = setMem (s.mem.put a.toNat v) s := by
  simp only [memWrite, Memory.write]
  cases h : s.mem.writable a.toNat
  · simp
  · simp [eq_comm]

theorem memWrite_of_writable {s : State} {a : Word} (v : Byte) (h : s.mem.writable a.toNat = true) :
    memWrite s a v = .ok (setMem (s.mem.put a.toNat v) s) := memWrite_ok.mpr ⟨h, rfl⟩

theorem memWrite_of_not_writable {s : State} {a : Word} (v : Byte) (h : s.mem.writable a.toNat = false) :
    memWrite s a v = .error { addr := a, kind := .write } := by
  simp [memWrite, Memory.write, h]

theorem memWrite_error {s : State} {a : Word} {v : Byte} {e : Access} : memWrite s a v = .error e ↔
    e = { addr := a, kind := .write } ∧ s.mem.allows e = false := by
  cases h : s.mem.writable a.toNat
  · rw [memWrite_of_not_writable v h]
    constructor
    · intro he
      cases he
      simp [Memory.allows, h]
    · rintro ⟨rfl, -⟩
      rfl
  · rw [memWrite_of_writable v h]
    constructor
    · intro he
      cases he
    · rintro ⟨rfl, hn⟩
      simp [Memory.allows, h] at hn

/-- Reading the memory of a state does not depend on its registers. -/
theorem memRead_congr {s t : State} (h : t.mem = s.mem) (a : Word) : memRead t a = memRead s a := by
  simp only [memRead, h]

/-- A read after a put, where the byte can be read at all (R70, R81). -/
theorem memRead_put {s t : State} {a : Word} (v : Byte) (b : Word) (hm : t.mem = s.mem.put a.toNat v)
    (hw : s.mem.wf = true) (ha : s.mem.writable a.toNat = true) :
    memRead t b = if b = a then .ok v else memRead s b := by
  simp only [memRead, hm, Memory.read_put b.toNat v hw (Memory.read_of_writable ha)]
  by_cases h : b = a
  · simp [h]
  · have : b.toNat ≠ a.toNat := fun hn => h (BitVec.eq_of_toNat_eq hn)
    simp [h, this]

/-! The stack. -/

theorem stackAddr_toNat (sp : Byte) : (stackAddr sp).toNat = 256 + sp.toNat := by
  have h := sp.isLt
  rw [stackAddr, BitVec.toNat_add, zext_toNat]
  show (256 + sp.toNat) % 65536 = _
  omega

theorem stackAddr_inj {p q : Byte} : stackAddr p = stackAddr q ↔ p = q := by
  constructor
  · intro h
    have := congrArg BitVec.toNat h
    rw [stackAddr_toNat, stackAddr_toNat] at this
    exact BitVec.eq_of_toNat_eq (by omega)
  · exact fun h => h ▸ rfl

/-- The state after a successful push. -/
def pushed (v : Byte) (s : State) : State := setSp (s.sp - 1) (setMem (s.mem.put (stackAddr s.sp).toNat v) s)

@[simp] theorem pushed_mem (v : Byte) (s : State) : (pushed v s).mem = s.mem.put (stackAddr s.sp).toNat v := rfl
@[simp] theorem pushed_sp (v : Byte) (s : State) : (pushed v s).sp = s.sp - 1 := rfl

theorem pushed_wf {v : Byte} {s : State} (h : s.mem.wf = true) : (pushed v s).mem.wf = true := Memory.put_wf h

/-- A read after a push. -/
theorem memRead_pushed {s : State} (v : Byte) (a : Word) (hw : s.mem.wf = true)
    (h : s.mem.writable (stackAddr s.sp).toNat = true) :
    memRead (pushed v s) a = if a = stackAddr s.sp then .ok v else memRead s a :=
  memRead_put v a rfl hw h

@[simp] theorem memRead_setPc (w : Word) (s : State) (a : Word) : memRead (setPc w s) a = memRead s a := rfl
@[simp] theorem memRead_setSp (v : Byte) (s : State) (a : Word) : memRead (setSp v s) a = memRead s a := rfl
@[simp] theorem memRead_setStatus (v : Byte) (s : State) (a : Word) : memRead (setStatus v s) a = memRead s a := rfl

theorem push_of_writable {v : Byte} {s : State} (h : s.mem.writable (stackAddr s.sp).toNat = true) :
    push v s = .ok (pushed v s) := by
  simp [push, memWrite_of_writable v h, pushed]

theorem push_of_not_writable {v : Byte} {s : State} (h : s.mem.writable (stackAddr s.sp).toNat = false) :
    push v s = .error { addr := stackAddr s.sp, kind := .write } := by
  simp [push, memWrite_of_not_writable v h]

theorem push_ok {v : Byte} {s t : State} : push v s = .ok t ↔
    s.mem.writable (stackAddr s.sp).toNat = true ∧ t = pushed v s := by
  cases h : s.mem.writable (stackAddr s.sp).toNat
  · simp [push_of_not_writable h]
  · simp [push_of_writable h, eq_comm]

theorem pull_ok {s t : State} {v : Byte} : pull s = .ok (v, t) ↔
    memRead s (stackAddr (s.sp + 1)) = .ok v ∧ t = setSp (s.sp + 1) s := by
  simp only [pull]
  cases memRead s (stackAddr (s.sp + 1)) <;> simp [eq_comm]

theorem pull_of_ok {s : State} {v : Byte} (h : memRead s (stackAddr (s.sp + 1)) = .ok v) :
    pull s = .ok (v, setSp (s.sp + 1) s) := pull_ok.mpr ⟨h, rfl⟩

theorem pull_of_error {s : State} {e : Access} (h : memRead s (stackAddr (s.sp + 1)) = .error e) : pull s = .error e := by
  simp only [pull, h]

theorem pushWord_ok {w : Word} {s t : State} : pushWord w s = .ok t ↔
    s.mem.writable (stackAddr s.sp).toNat = true ∧ s.mem.writable (stackAddr (s.sp - 1)).toNat = true ∧
      t = pushed (loByte w) (pushed (hiByte w) s) := by
  simp only [pushWord]
  cases h : s.mem.writable (stackAddr s.sp).toNat
  · simp [push_of_not_writable h]
  · simp [push_of_writable h, push_ok]

theorem pullWord_ok {s t : State} {w : Word} : pullWord s = .ok (w, t) ↔
    ∃ lo hi, memRead s (stackAddr (s.sp + 1)) = .ok lo ∧ memRead s (stackAddr (s.sp + 1 + 1)) = .ok hi ∧
      w = word hi lo ∧ t = setSp (s.sp + 1 + 1) s := by
  have e1 : memRead (setSp (s.sp + 1) s) (stackAddr ((setSp (s.sp + 1) s).sp + 1)) =
      memRead s (stackAddr (s.sp + 1 + 1)) := rfl
  cases h : memRead s (stackAddr (s.sp + 1)) with
  | error e =>
    simp only [pullWord, pull_of_error h]
    constructor
    · intro he
      cases he
    · rintro ⟨lo, hi, hl, -⟩
      cases hl
  | ok lo =>
    cases h2 : memRead s (stackAddr (s.sp + 1 + 1)) with
    | error e =>
      simp only [pullWord, pull_of_ok h, pull_of_error (e1.trans h2)]
      constructor
      · intro he
        cases he
      · rintro ⟨lo', hi', -, hh, -⟩
        cases hh
    | ok hi =>
      simp only [pullWord, pull_of_ok h, pull_of_ok (e1.trans h2)]
      constructor
      · intro he
        cases he
        exact ⟨lo, hi, rfl, rfl, rfl, rfl⟩
      · rintro ⟨lo', hi', hl, hh, rfl, rfl⟩
        cases hl
        cases hh
        rfl

theorem readPair_ok {s : State} {lo hi w : Word} : readPair s lo hi = .ok w ↔
    ∃ l h, memRead s lo = .ok l ∧ memRead s hi = .ok h ∧ w = word h l := by
  simp only [readPair]
  cases memRead s lo with
  | error e => simp
  | ok l => cases memRead s hi <;> simp [eq_comm]

theorem readPair_congr {s t : State} (h : t.mem = s.mem) (lo hi : Word) : readPair t lo hi = readPair s lo hi := by
  simp only [readPair, memRead_congr h]

/-- Entering a handler, when nothing fails: three pushes, then the vector read in the memory they leave. -/
theorem enterHandler_ok {ret : Word} {status : Byte} {vector : Word} {s t : State} :
    enterHandler ret status vector s = .ok t ↔
      s.mem.writable (stackAddr s.sp).toNat = true ∧ s.mem.writable (stackAddr (s.sp - 1)).toNat = true ∧
      s.mem.writable (stackAddr (s.sp - 1 - 1)).toNat = true ∧
      ∃ lo hi, memRead (pushed status (pushed (loByte ret) (pushed (hiByte ret) s))) vector = .ok lo ∧
        memRead (pushed status (pushed (loByte ret) (pushed (hiByte ret) s))) (vector + 1) = .ok hi ∧
        t = setPc (word hi lo) (setStatus (setFlag .I true s.p) (pushed status (pushed (loByte ret) (pushed (hiByte ret) s)))) := by
  simp only [enterHandler]
  cases h : pushWord ret s with
  | error e =>
    have : ¬ ∃ t, pushWord ret s = .ok t := by simp [h]
    simp only [pushWord_ok] at this
    constructor
    · intro he
      cases he
    · rintro ⟨h1, h2, -⟩
      exact absurd ⟨_, h1, h2, rfl⟩ this
  | ok t1 =>
    obtain ⟨h1, h2, rfl⟩ := pushWord_ok.mp h
    simp only [h1, h2, true_and]
    cases h3 : s.mem.writable (stackAddr (s.sp - 1 - 1)).toNat
    · have h3' : (pushed (loByte ret) (pushed (hiByte ret) s)).mem.writable
          (stackAddr (pushed (loByte ret) (pushed (hiByte ret) s)).sp).toNat = false := by simpa using h3
      simp [push_of_not_writable h3']
    · have h3' : (pushed (loByte ret) (pushed (hiByte ret) s)).mem.writable
          (stackAddr (pushed (loByte ret) (pushed (hiByte ret) s)).sp).toNat = true := by simpa using h3
      rw [push_of_writable h3']
      simp only [true_and]
      cases hp : readPair (pushed status (pushed (loByte ret) (pushed (hiByte ret) s))) vector (vector + 1) with
      | error e =>
        constructor
        · intro he
          cases he
        · rintro ⟨lo, hi, hl, hh, -⟩
          rw [readPair_ok.mpr ⟨lo, hi, hl, hh, rfl⟩] at hp
          cases hp
      | ok w =>
        obtain ⟨lo, hi, hl, hh, rfl⟩ := readPair_ok.mp hp
        simp only [hl, hh, Except.ok.injEq]
        constructor
        · intro he
          exact ⟨lo, hi, rfl, rfl, he.symm⟩
        · rintro ⟨lo', hi', rfl, rfl, rfl⟩
          rfl

theorem returnFromHandler_ok {s t : State} : returnFromHandler s = .ok t ↔
    ∃ v lo hi, memRead s (stackAddr (s.sp + 1)) = .ok v ∧ memRead s (stackAddr (s.sp + 1 + 1)) = .ok lo ∧
      memRead s (stackAddr (s.sp + 1 + 1 + 1)) = .ok hi ∧
      t = setPc (word hi lo) (setStatus (pulledStatus v s.p) (setSp (s.sp + 1 + 1 + 1) s)) := by
  simp only [returnFromHandler]
  cases h : memRead s (stackAddr (s.sp + 1)) with
  | error e => simp [pull_of_error h]
  | ok v =>
    rw [pull_of_ok h]
    simp only
    cases hw : pullWord (setSp (s.sp + 1) s) with
    | error e =>
      constructor
      · intro he
        cases he
      · rintro ⟨v', lo, hi, hv, hl, hh, -⟩
        have := pullWord_ok.mpr ⟨lo, hi, (memRead_congr (s := s) (t := setSp (s.sp + 1) s) rfl _).trans hl,
          (memRead_congr (s := s) (t := setSp (s.sp + 1) s) rfl _).trans hh, rfl, rfl⟩
        rw [this] at hw
        cases hw
    | ok r =>
      obtain ⟨w, u⟩ := r
      obtain ⟨lo, hi, hl, hh, rfl, rfl⟩ := pullWord_ok.mp hw
      replace hl : memRead s (stackAddr (s.sp + 1 + 1)) = .ok lo := hl
      replace hh : memRead s (stackAddr (s.sp + 1 + 1 + 1)) = .ok hi := hh
      constructor
      · intro he
        cases he
        exact ⟨v, lo, hi, rfl, hl, hh, rfl⟩
      · rintro ⟨v', lo', hi', hv, hl', hh', rfl⟩
        rw [hl] at hl'
        rw [hh] at hh'
        cases hv
        cases hl'
        cases hh'
        rfl

/-- An operation's step is a next state exactly when the operation succeeds. -/
@[simp] theorem conclude_next {pc0 : Word} {r : Except Access State} {t : State} :
    conclude pc0 r = .next t ↔ r = .ok t := by
  cases r <;> simp [conclude]

@[simp] theorem conclude_fault {pc0 : Word} {r : Except Access State} {f : Fault} :
    conclude pc0 r = .fault f ↔ ∃ e, r = .error e ∧ f = .memoryFault e.addr e.kind pc0 := by
  cases r <;> simp [conclude, eq_comm]

@[simp] theorem conclude_refused {pc0 : Word} {r : Except Access State} {x : Refusal} : conclude pc0 r ≠ .refused x := by
  cases r <;> simp [conclude]

end Sys2Proof.Machine
end

