-- ==== Sys2Proof/Laws/Exec.lean ====
section
/-! SUPPORT. Every instruction is one of a few shapes: `exec_eq_view` says which, so that a claim over all instructions
needs one case per shape and not one per constructor. -/
namespace Sys2Proof.Machine

/-- The shapes of the meanings. -/
inductive View where
  | regs (f : State → State)
  | flag (f : Flag) (v : Bool)
  | branch (f : Flag) (want : Bool) (d : Byte)
  | modifyA (f : Byte → Byte → Shifted)
  | read (m : MemArg) (f : Byte → State → State)
  | store (m : MemArg) (v : State → Byte)
  | modify (m : MemArg) (f : Byte → Byte → Shifted)
  | jumpInd (w : Word)
  | push (v : State → Byte)
  | pullA
  | pullP
  | call (w : Word)
  | ret
  | brk
  | rti

/-- What each shape does. -/
def View.run : View → State → Host.Outcome State Fault Refusal
  | .regs f, s => .next (f s)
  | .flag f v, s => withFlag f v s
  | .branch f want d, s => branchIf (if want then getFlag s.p f else !getFlag s.p f) d s
  | .modifyA f, s => execModifyA f s
  | .read m f, s => execRead m f s
  | .store m v, s => execStore m (v s) s
  | .modify m f, s => execModify m f s
  | .jumpInd w, s => conclude (s.pc - 3) (jumpIndirect w s)
  | .push v, s => conclude (s.pc - 1) (Sys2Proof.Machine.push (v s) s)
  | .pullA, s => conclude (s.pc - 1) (Sys2Proof.Machine.pullA s)
  | .pullP, s => conclude (s.pc - 1) (Sys2Proof.Machine.pullP s)
  | .call w, s => conclude (s.pc - 3) (callTo w s)
  | .ret, s => conclude (s.pc - 1) (returnFromCall s)
  | .brk, s => conclude (s.pc - 1) (breakEntry s)
  | .rti, s => conclude (s.pc - 1) (returnFromHandler s)

/-- The shape of each instruction. -/
def view : Instr → View
  | .adcImm v => .regs (adc v)
  | .adcZp b => .read (.zp b) adc
  | .adcZpx b => .read (.zpx b) adc
  | .adcAbs w => .read (.abs w) adc
  | .adcAbsx w => .read (.absx w) adc
  | .adcAbsy w => .read (.absy w) adc
  | .adcIndx b => .read (.indx b) adc
  | .adcIndy b => .read (.indy b) adc
  | .sbcImm v => .regs (sbc v)
  | .sbcZp b => .read (.zp b) sbc
  | .sbcZpx b => .read (.zpx b) sbc
  | .sbcAbs w => .read (.abs w) sbc
  | .sbcAbsx w => .read (.absx w) sbc
  | .sbcAbsy w => .read (.absy w) sbc
  | .sbcIndx b => .read (.indx b) sbc
  | .sbcIndy b => .read (.indy b) sbc
  | .aslAcc => .modifyA shiftLeft
  | .aslZp b => .modify (.zp b) shiftLeft
  | .aslZpx b => .modify (.zpx b) shiftLeft
  | .aslAbs w => .modify (.abs w) shiftLeft
  | .aslAbsx w => .modify (.absx w) shiftLeft
  | .lsrAcc => .modifyA shiftRight
  | .lsrZp b => .modify (.zp b) shiftRight
  | .lsrZpx b => .modify (.zpx b) shiftRight
  | .lsrAbs w => .modify (.abs w) shiftRight
  | .lsrAbsx w => .modify (.absx w) shiftRight
  | .rolAcc => .modifyA rotateLeft
  | .rolZp b => .modify (.zp b) rotateLeft
  | .rolZpx b => .modify (.zpx b) rotateLeft
  | .rolAbs w => .modify (.abs w) rotateLeft
  | .rolAbsx w => .modify (.absx w) rotateLeft
  | .rorAcc => .modifyA rotateRight
  | .rorZp b => .modify (.zp b) rotateRight
  | .rorZpx b => .modify (.zpx b) rotateRight
  | .rorAbs w => .modify (.abs w) rotateRight
  | .rorAbsx w => .modify (.absx w) rotateRight
  | .andImm v => .regs (andA v)
  | .andZp b => .read (.zp b) andA
  | .andZpx b => .read (.zpx b) andA
  | .andAbs w => .read (.abs w) andA
  | .andAbsx w => .read (.absx w) andA
  | .andAbsy w => .read (.absy w) andA
  | .andIndx b => .read (.indx b) andA
  | .andIndy b => .read (.indy b) andA
  | .oraImm v => .regs (oraA v)
  | .oraZp b => .read (.zp b) oraA
  | .oraZpx b => .read (.zpx b) oraA
  | .oraAbs w => .read (.abs w) oraA
  | .oraAbsx w => .read (.absx w) oraA
  | .oraAbsy w => .read (.absy w) oraA
  | .oraIndx b => .read (.indx b) oraA
  | .oraIndy b => .read (.indy b) oraA
  | .eorImm v => .regs (eorA v)
  | .eorZp b => .read (.zp b) eorA
  | .eorZpx b => .read (.zpx b) eorA
  | .eorAbs w => .read (.abs w) eorA
  | .eorAbsx w => .read (.absx w) eorA
  | .eorAbsy w => .read (.absy w) eorA
  | .eorIndx b => .read (.indx b) eorA
  | .eorIndy b => .read (.indy b) eorA
  | .bitZp b => .read (.zp b) bitA
  | .bitAbs w => .read (.abs w) bitA
  | .cmpImm v => .regs (cmpA v)
  | .cmpZp b => .read (.zp b) cmpA
  | .cmpZpx b => .read (.zpx b) cmpA
  | .cmpAbs w => .read (.abs w) cmpA
  | .cmpAbsx w => .read (.absx w) cmpA
  | .cmpAbsy w => .read (.absy w) cmpA
  | .cmpIndx b => .read (.indx b) cmpA
  | .cmpIndy b => .read (.indy b) cmpA
  | .cpxImm v => .regs (cmpX v)
  | .cpxZp b => .read (.zp b) cmpX
  | .cpxAbs w => .read (.abs w) cmpX
  | .cpyImm v => .regs (cmpY v)
  | .cpyZp b => .read (.zp b) cmpY
  | .cpyAbs w => .read (.abs w) cmpY
  | .incZp b => .modify (.zp b) incremented
  | .incZpx b => .modify (.zpx b) incremented
  | .incAbs w => .modify (.abs w) incremented
  | .incAbsx w => .modify (.absx w) incremented
  | .decZp b => .modify (.zp b) decremented
  | .decZpx b => .modify (.zpx b) decremented
  | .decAbs w => .modify (.abs w) decremented
  | .decAbsx w => .modify (.absx w) decremented
  | .inx => .regs (fun s => writeX (s.x + 1) s)
  | .iny => .regs (fun s => writeY (s.y + 1) s)
  | .dex => .regs (fun s => writeX (s.x - 1) s)
  | .dey => .regs (fun s => writeY (s.y - 1) s)
  | .bcc d => .branch .C false d
  | .bcs d => .branch .C true d
  | .beq d => .branch .Z true d
  | .bne d => .branch .Z false d
  | .bmi d => .branch .N true d
  | .bpl d => .branch .N false d
  | .bvc d => .branch .V false d
  | .bvs d => .branch .V true d
  | .jmpAbs w => .regs (setPc w)
  | .jmpInd w => .jumpInd w
  | .pha => .push (fun s => s.a)
  | .pla => .pullA
  | .php => .push (fun s => pushedByProgram s.p)
  | .plp => .pullP
  | .jsr w => .call w
  | .rts => .ret
  | .brk => .brk
  | .rti => .rti
  | .clc => .flag .C false
  | .sec => .flag .C true
  | .cli => .flag .I false
  | .sei => .flag .I true
  | .cld => .flag .D false
  | .sed => .flag .D true
  | .clv => .flag .V false
  | .nop => .regs (fun s => s)
  | .ldaImm v => .regs (writeA v)
  | .ldaZp b => .read (.zp b) writeA
  | .ldaZpx b => .read (.zpx b) writeA
  | .ldaAbs w => .read (.abs w) writeA
  | .ldaAbsx w => .read (.absx w) writeA
  | .ldaAbsy w => .read (.absy w) writeA
  | .ldaIndx b => .read (.indx b) writeA
  | .ldaIndy b => .read (.indy b) writeA
  | .ldxImm v => .regs (writeX v)
  | .ldxZp b => .read (.zp b) writeX
  | .ldxZpy b => .read (.zpy b) writeX
  | .ldxAbs w => .read (.abs w) writeX
  | .ldxAbsy w => .read (.absy w) writeX
  | .ldyImm v => .regs (writeY v)
  | .ldyZp b => .read (.zp b) writeY
  | .ldyZpx b => .read (.zpx b) writeY
  | .ldyAbs w => .read (.abs w) writeY
  | .ldyAbsx w => .read (.absx w) writeY
  | .staZp b => .store (.zp b) (fun s => s.a)
  | .staZpx b => .store (.zpx b) (fun s => s.a)
  | .staAbs w => .store (.abs w) (fun s => s.a)
  | .staAbsx w => .store (.absx w) (fun s => s.a)
  | .staAbsy w => .store (.absy w) (fun s => s.a)
  | .staIndx b => .store (.indx b) (fun s => s.a)
  | .staIndy b => .store (.indy b) (fun s => s.a)
  | .stxZp b => .store (.zp b) (fun s => s.x)
  | .stxZpy b => .store (.zpy b) (fun s => s.x)
  | .stxAbs w => .store (.abs w) (fun s => s.x)
  | .styZp b => .store (.zp b) (fun s => s.y)
  | .styZpx b => .store (.zpx b) (fun s => s.y)
  | .styAbs w => .store (.abs w) (fun s => s.y)
  | .tax => .regs (fun s => writeX s.a s)
  | .tay => .regs (fun s => writeY s.a s)
  | .txa => .regs (fun s => writeA s.x s)
  | .tya => .regs (fun s => writeA s.y s)
  | .tsx => .regs (fun s => writeX s.sp s)
  | .txs => .regs (fun s => setSp s.x s)

/-- Every instruction does what its shape does. -/
theorem exec_eq_view (i : Instr) (s : State) : exec i s = (view i).run s := by
  cases i <;> rfl

/-- An update of registers and flags only, which leaves B and U of P alone. -/
def RegFn (f : State → State) : Prop := ∀ s, ∃ a x y sp pc p,
  f s = { s with a := a, x := x, y := y, sp := sp, pc := pc, p := p } ∧
    getFlag p .B = getFlag s.p .B ∧ getFlag p .U = getFlag s.p .U

/-- A computation of a new byte and status that leaves B and U of P alone. -/
def ShiftFn (f : Byte → Byte → Shifted) : Prop := ∀ t p,
  getFlag (f t p).status .B = getFlag p .B ∧ getFlag (f t p).status .U = getFlag p .U

theorem regFn_adc (v : Byte) : RegFn (adc v) := fun s =>
  ⟨_, _, _, _, _, _, rfl, by simp [getFlag_sumFlags], by simp [getFlag_sumFlags]⟩
theorem regFn_sbc (v : Byte) : RegFn (sbc v) := regFn_adc _
theorem regFn_writeA (v : State → Byte) : RegFn (fun s => writeA (v s) s) := fun s =>
  ⟨_, _, _, _, _, _, rfl, by simp [getFlag_setZN], by simp [getFlag_setZN]⟩
theorem regFn_writeX (v : State → Byte) : RegFn (fun s => writeX (v s) s) := fun s =>
  ⟨_, _, _, _, _, _, rfl, by simp [getFlag_setZN], by simp [getFlag_setZN]⟩
theorem regFn_writeY (v : State → Byte) : RegFn (fun s => writeY (v s) s) := fun s =>
  ⟨_, _, _, _, _, _, rfl, by simp [getFlag_setZN], by simp [getFlag_setZN]⟩
theorem regFn_andA (v : Byte) : RegFn (andA v) := regFn_writeA _
theorem regFn_oraA (v : Byte) : RegFn (oraA v) := regFn_writeA _
theorem regFn_eorA (v : Byte) : RegFn (eorA v) := regFn_writeA _
theorem regFn_bitA (v : Byte) : RegFn (bitA v) := fun s =>
  ⟨_, _, _, _, _, _, rfl, by simp [getFlag_bitTestFlags], by simp [getFlag_bitTestFlags]⟩
theorem regFn_cmpA (v : Byte) : RegFn (cmpA v) := fun s =>
  ⟨_, _, _, _, _, _, rfl, by simp [getFlag_compareFlags], by simp [getFlag_compareFlags]⟩
theorem regFn_cmpX (v : Byte) : RegFn (cmpX v) := fun s =>
  ⟨_, _, _, _, _, _, rfl, by simp [getFlag_compareFlags], by simp [getFlag_compareFlags]⟩
theorem regFn_cmpY (v : Byte) : RegFn (cmpY v) := fun s =>
  ⟨_, _, _, _, _, _, rfl, by simp [getFlag_compareFlags], by simp [getFlag_compareFlags]⟩
theorem regFn_setPc (w : Word) : RegFn (setPc w) := fun _ => ⟨_, _, _, _, _, _, rfl, rfl, rfl⟩
theorem regFn_setSp (v : State → Byte) : RegFn (fun s => setSp (v s) s) := fun _ => ⟨_, _, _, _, _, _, rfl, rfl, rfl⟩
theorem regFn_id : RegFn (fun s => s) := fun _ => ⟨_, _, _, _, _, _, rfl, rfl, rfl⟩

theorem shiftFn_shifted {r : Byte → Byte → Byte} {c : Byte → Bool} : ShiftFn (fun t p => shifted (r t p) (c t) p) :=
  fun t p => by simp [getFlag_shifted]
theorem shiftFn_shiftLeft : ShiftFn shiftLeft := shiftFn_shifted
theorem shiftFn_shiftRight : ShiftFn shiftRight := shiftFn_shifted
theorem shiftFn_rotateLeft : ShiftFn rotateLeft := fun t p => by simp [rotateLeft, getFlag_shifted]
theorem shiftFn_rotateRight : ShiftFn rotateRight := fun t p => by simp [rotateRight, getFlag_shifted]
theorem shiftFn_incremented : ShiftFn incremented := fun t p => by simp [incremented, getFlag_setZN]
theorem shiftFn_decremented : ShiftFn decremented := fun t p => by simp [decremented, getFlag_setZN]

/-- The computations inside a shape touch registers and flags only, and neither B nor U. -/
def View.Good : View → Prop
  | .regs f => RegFn f
  | .flag f _ => f ≠ .B ∧ f ≠ .U
  | .modifyA f => ShiftFn f
  | .read _ f => ∀ v, RegFn (f v)
  | .modify _ f => ShiftFn f
  | _ => True

theorem view_good (i : Instr) : (view i).Good := by
  cases i <;> simp only [view, View.Good] <;> with_reducible first
    | trivial
    | exact shiftFn_shiftLeft
    | exact shiftFn_shiftRight
    | exact shiftFn_rotateLeft
    | exact shiftFn_rotateRight
    | exact shiftFn_incremented
    | exact shiftFn_decremented
    | exact regFn_adc
    | exact regFn_sbc
    | exact regFn_andA
    | exact regFn_oraA
    | exact regFn_eorA
    | exact regFn_bitA
    | exact regFn_cmpA
    | exact regFn_cmpX
    | exact regFn_cmpY
    | exact regFn_adc _
    | exact regFn_sbc _
    | exact regFn_andA _
    | exact regFn_oraA _
    | exact regFn_eorA _
    | exact regFn_cmpA _
    | exact regFn_cmpX _
    | exact regFn_cmpY _
    | exact regFn_setPc _
    | exact regFn_id
    | exact fun v => regFn_writeA fun _ => v
    | exact fun v => regFn_writeX fun _ => v
    | exact fun v => regFn_writeY fun _ => v
    | exact regFn_writeA _
    | exact regFn_writeX _
    | exact regFn_writeY _
    | exact regFn_setSp _

end Sys2Proof.Machine
end

