-- ==== Sys2Proof/Laws/Access.lean ====
section
/-! SUPPORT. Every operation ends as its access list says: `Follows` is the one relation, with a lemma per shared operation,
and `exec_eq_conclude` puts every instruction in that form. -/
namespace Sys2Proof.Machine

/-! Access lists. -/

@[simp] theorem firstFailing_nil (m : Memory) : firstFailing m [] = none := rfl

@[simp] theorem firstFailing_cons (m : Memory) (a : Access) (l : List Access) :
    firstFailing m (a :: l) = if m.allows a then firstFailing m l else some a := by
  cases h : m.allows a <;> simp [firstFailing, List.find?, h]

theorem firstFailing_append (m : Memory) (l r : List Access) :
    firstFailing m (l ++ r) = match firstFailing m l with | some e => some e | none => firstFailing m r := by
  induction l with
  | nil => simp
  | cons a l ih =>
    rw [List.cons_append, firstFailing_cons, firstFailing_cons]
    cases h : m.allows a <;> simp [ih]

/-- Lists fail alike in memories with the same permissions. -/
theorem firstFailing_congr {m m' : Memory} (h : ∀ acc, m'.allows acc = m.allows acc) (l : List Access) :
    firstFailing m' l = firstFailing m l := by
  simp only [firstFailing, h]

/-! Operations that follow an access list. -/

/-- The operation's result is the first failure of the list, or a success when there is none. -/
def Follows {α : Type} (m : Memory) (l : List Access) (r : Except Access α) : Prop :=
  match firstFailing m l with
  | some e => r = .error e
  | none => ∃ v, r = .ok v

theorem follows_ok {α : Type} (m : Memory) (v : α) : Follows m [] (.ok v) := ⟨v, rfl⟩

theorem follows_read (s : State) (a : Word) : Follows s.mem [readOf a] (memRead s a) := by
  unfold Follows
  rw [firstFailing_cons, firstFailing_nil]
  cases h : s.mem.allows (readOf a)
  · exact memRead_of_not_allows h
  · exact memRead_of_allows h

theorem follows_write (s : State) (a : Word) (v : Byte) : Follows s.mem [writeOf a] (memWrite s a v) := by
  unfold Follows
  rw [firstFailing_cons, firstFailing_nil]
  cases h : s.mem.allows (writeOf a)
  · exact memWrite_of_not_writable v h
  · exact ⟨_, memWrite_of_writable v h⟩

/-- One operation after another follows the one list after the other. -/
theorem follows_bind {α β : Type} {m : Memory} {l l' : List Access} {r : Except Access α} {q : Except Access β}
    (hr : Follows m l r) (he : ∀ e, r = .error e → q = .error e) (ho : ∀ v, r = .ok v → Follows m l' q) :
    Follows m (l ++ l') q := by
  unfold Follows at *
  rw [firstFailing_append]
  cases hl : firstFailing m l with
  | some e =>
    rw [hl] at hr
    exact he e hr
  | none =>
    rw [hl] at hr
    obtain ⟨v, hv⟩ := hr
    exact ho v hv

/-- An operation that only changes the result's value follows the same list. -/
theorem follows_map {α β : Type} {m : Memory} {l : List Access} {r : Except Access α} {q : Except Access β}
    (hr : Follows m l r) (he : ∀ e, r = .error e → q = .error e) (ho : ∀ v, r = .ok v → ∃ w, q = .ok w) : Follows m l q := by
  have h := follows_bind (l' := []) hr he fun v hv => by
    obtain ⟨w, hw⟩ := ho v hv
    exact hw ▸ follows_ok m w
  rwa [List.append_nil] at h

theorem follows_congr {α : Type} {m m' : Memory} {l : List Access} {r : Except Access α}
    (h : ∀ acc, m'.allows acc = m.allows acc) (hf : Follows m' l r) : Follows m l r := by
  unfold Follows at *
  rwa [firstFailing_congr h] at hf

theorem follows_readPair (s : State) (lo hi : Word) : Follows s.mem [readOf lo, readOf hi] (readPair s lo hi) := by
  refine follows_bind (l := [readOf lo]) (l' := [readOf hi]) (follows_read s lo) (fun e he => by simp only [readPair, he])
    fun v hv => follows_map (follows_read s hi) (fun e he => by simp only [readPair, hv, he])
      fun w hw => ⟨word w v, by simp only [readPair, hv, hw]⟩

theorem follows_effAddr (m : MemArg) (s : State) : Follows s.mem (pointerAccesses m s) (effAddr m s) := by
  cases m with
  | indx b => exact follows_readPair s _ _
  | indy b =>
    refine follows_map (follows_readPair s (zext b) (zext (b + 1))) (fun e he => ?_) (fun v hv => ⟨v + zext s.y, ?_⟩)
    · simp only [effAddr, he]
    · simp only [effAddr, hv]
  | zp b => exact follows_ok _ _
  | zpx b => exact follows_ok _ _
  | zpy b => exact follows_ok _ _
  | abs w => exact follows_ok _ _
  | absx w => exact follows_ok _ _
  | absy w => exact follows_ok _ _

/-- An operation that resolves its effective address and goes on with it. -/
theorem follows_ea {α : Type} {m : MemArg} {s : State} {use : Word → List Access} {q : Except Access α}
    (he : ∀ e, effAddr m s = .error e → q = .error e) (ho : ∀ ea, effAddr m s = .ok ea → Follows s.mem (use ea) q) :
    Follows s.mem (eaAccesses m s use) q := by
  refine follows_bind (follows_effAddr m s) he fun ea hea => ?_
  simp only [hea]
  exact ho ea hea

theorem follows_load (m : MemArg) (s : State) : Follows s.mem (eaAccesses m s fun ea => [readOf ea]) (load m s) :=
  follows_ea (fun e he => by simp only [load, he]) fun ea hea => by
    simp only [load, hea]
    exact follows_read s ea

theorem follows_store (m : MemArg) (v : Byte) (s : State) :
    Follows s.mem (eaAccesses m s fun ea => [writeOf ea]) (store m v s) :=
  follows_ea (fun e he => by simp only [store, he]) fun ea hea => by
    simp only [store, hea]
    exact follows_write s ea v

theorem follows_modifyTarget (m : MemArg) (f : Byte → Byte → Shifted) (s : State) :
    Follows s.mem (eaAccesses m s fun ea => [readOf ea, writeOf ea]) (modifyTarget m f s) :=
  follows_ea (fun e he => by simp only [modifyTarget, he]) fun ea hea => by
    refine follows_bind (l := [readOf ea]) (l' := [writeOf ea]) (follows_read s ea)
      (fun e he => by simp only [modifyTarget, hea, he]) fun v hv => ?_
    exact follows_map (follows_write s ea (f v s.p).value) (fun e he => by simp only [modifyTarget, hea, hv, he])
      fun u hu => ⟨_, by simp only [modifyTarget, hea, hv, hu]; rfl⟩

theorem follows_push (v : Byte) (s : State) : Follows s.mem (pushAccesses s.sp 1) (push v s) :=
  follows_map (follows_write s (stackAddr s.sp) v) (fun e he => by simp only [push, he])
    fun t ht => ⟨_, by simp only [push, ht]; rfl⟩

theorem follows_pull (s : State) : Follows s.mem (pullAccesses s.sp 1) (pull s) :=
  follows_map (follows_read s (stackAddr (s.sp + 1))) (fun e he => by simp only [pull, he])
    fun t ht => ⟨_, by simp only [pull, ht]; rfl⟩

/-- A push changes no permission. -/
theorem allows_of_push {v : Byte} {s t : State} (h : push v s = .ok t) (acc : Access) : t.mem.allows acc = s.mem.allows acc := by
  obtain ⟨-, rfl⟩ := push_ok.mp h
  simp

theorem sp_of_push {v : Byte} {s t : State} (h : push v s = .ok t) : t.sp = s.sp - 1 := by
  obtain ⟨-, rfl⟩ := push_ok.mp h
  rfl

theorem follows_pushWord (w : Word) (s : State) : Follows s.mem (pushAccesses s.sp 2) (pushWord w s) := by
  refine follows_bind (l := pushAccesses s.sp 1) (l' := pushAccesses (s.sp - 1) 1) (follows_push (hiByte w) s)
    (fun e he => by simp only [pushWord, he]) fun t ht => ?_
  have h := follows_push (loByte w) t
  rw [sp_of_push ht] at h
  have e : pushWord w s = push (loByte w) t := by simp only [pushWord, ht]
  exact e ▸ follows_congr (allows_of_push ht) h

theorem mem_of_pull {s t : State} {v : Byte} (h : pull s = .ok (v, t)) : t.mem = s.mem ∧ t.sp = s.sp + 1 := by
  obtain ⟨-, rfl⟩ := pull_ok.mp h
  exact ⟨rfl, rfl⟩

theorem follows_pullWord (s : State) : Follows s.mem (pullAccesses s.sp 2) (pullWord s) := by
  refine follows_bind (l := pullAccesses s.sp 1) (l' := pullAccesses (s.sp + 1) 1) (follows_pull s)
    (fun e he => by simp only [pullWord, he]) fun r hr => ?_
  obtain ⟨v, t⟩ := r
  obtain ⟨hm, hs⟩ := mem_of_pull hr
  have h := follows_pull t
  rw [hm, hs] at h
  exact follows_map h (fun e he => by simp only [pullWord, hr, he]) fun r' hr' => ⟨_, by simp only [pullWord, hr, hr']; rfl⟩

theorem allows_of_pushWord {w : Word} {s t : State} (h : pushWord w s = .ok t) (acc : Access) :
    t.mem.allows acc = s.mem.allows acc := by
  obtain ⟨-, -, rfl⟩ := pushWord_ok.mp h
  simp

theorem follows_enterHandler (ret : Word) (status : Byte) (vector : Word) (s : State) :
    Follows s.mem (entryAccesses s.sp vector) (enterHandler ret status vector s) := by
  refine follows_bind (l := pushAccesses s.sp 2) (l' := pushAccesses (s.sp - 1 - 1) 1 ++ [readOf vector, readOf (vector + 1)])
    (follows_pushWord ret s) (fun e he => by simp only [enterHandler, he]) fun t ht => ?_
  have hsp : t.sp = s.sp - 1 - 1 := by
    obtain ⟨-, -, rfl⟩ := pushWord_ok.mp ht
    rfl
  have h1 := follows_push status t
  rw [hsp] at h1
  refine follows_bind (follows_congr (allows_of_pushWord ht) h1) (fun e he => by simp only [enterHandler, ht, he]) fun u hu => ?_
  exact follows_map (follows_congr (fun acc => (allows_of_push hu acc).trans (allows_of_pushWord ht acc)) (follows_readPair u vector (vector + 1)))
    (fun e he => by simp only [enterHandler, ht, hu, he]) fun w hw => ⟨_, by simp only [enterHandler, ht, hu, hw]; rfl⟩

theorem follows_returnFromHandler (s : State) : Follows s.mem (pullAccesses s.sp 3) (returnFromHandler s) := by
  refine follows_bind (l := pullAccesses s.sp 1) (l' := pullAccesses (s.sp + 1) 2) (follows_pull s)
    (fun e he => by simp only [returnFromHandler, he]) fun r hr => ?_
  obtain ⟨v, t⟩ := r
  obtain ⟨hm, hs⟩ := mem_of_pull hr
  have h := follows_pullWord t
  rw [hm, hs] at h
  exact follows_map h (fun e he => by simp only [returnFromHandler, hr, he])
    fun r' hr' => ⟨_, by simp only [returnFromHandler, hr, hr']; rfl⟩

/-! Instructions. -/

/-- The operation of each shape. -/
def View.op : View → State → Except Access State
  | .regs f, s => .ok (f s)
  | .flag f v, s => .ok (setStatus (setFlag f v s.p) s)
  | .branch f want d, s => .ok (if (if want then getFlag s.p f else !getFlag s.p f) then setPc (s.pc + sext d) s else s)
  | .modifyA f, s => .ok (setAStatus (f s.a s.p).value (f s.a s.p).status s)
  | .read m f, s => match load m s with
    | .ok v => .ok (f v s)
    | .error e => .error e
  | .store m v, s => Sys2Proof.Machine.store m (v s) s
  | .modify m f, s => modifyTarget m f s
  | .jumpInd w, s => jumpIndirect w s
  | .push v, s => Sys2Proof.Machine.push (v s) s
  | .pullA, s => Sys2Proof.Machine.pullA s
  | .pullP, s => Sys2Proof.Machine.pullP s
  | .call w, s => callTo w s
  | .ret, s => returnFromCall s
  | .brk, s => breakEntry s
  | .rti, s => returnFromHandler s

/-- The accesses of each shape (R157). -/
def View.accesses : View → State → List Access
  | .read m _, s => eaAccesses m s fun ea => [readOf ea]
  | .store m _, s => eaAccesses m s fun ea => [writeOf ea]
  | .modify m _, s => eaAccesses m s fun ea => [readOf ea, writeOf ea]
  | .jumpInd w, s => [readOf w, readOf (pointerHigh s.cfg.jmpIndPageWrap w)]
  | .push _, s => pushAccesses s.sp 1
  | .pullA, s => pullAccesses s.sp 1
  | .pullP, s => pullAccesses s.sp 1
  | .call _, s => pushAccesses s.sp 2
  | .ret, s => pullAccesses s.sp 2
  | .brk, s => entryAccesses s.sp s.cfg.brkVector
  | .rti, s => pullAccesses s.sp 3
  | _, _ => []

/-- Every instruction is its shape's operation, ended with the opcode's address. -/
theorem exec_eq_conclude (i : Instr) (s : State) : exec i s = conclude (opcodeAt i s) ((view i).op s) := by
  cases i <;> rfl

/-- R157's table gives each instruction the accesses of its shape. -/
theorem dataAccesses_eq (i : Instr) (s : State) : dataAccesses i s = (view i).accesses s := by
  cases i <;> rfl

end Sys2Proof.Machine
end

