-- ==== Sys2Proof/Laws/PerInstr.lean ====
section
/-! SUPPORT. The family Encoding: what holds of every instruction as syntax, one lemma per constructor. -/
namespace Sys2Proof.Laws.Encoding

/-- The opcode byte selects a row of the catalog with this mnemonic and mode (R106). -/
def RowIs (op : Byte) (m : Mnemonic) (md : Mode) : Prop :=
  ((rowOf op).map fun r => (r.opcode, r.mnemonic, r.mode)) = some (op, m, md)

/-- The instruction's opcode byte selects a row with its mnemonic and mode (R106), its encoding has the length of its mode
(R100, R101), and its pair is one the catalog declares (R103). -/
def Statement (i : Instr) : Prop :=
  RowIs i.opcode i.mnemonic i.mode
    ∧ (encode i).length = i.length ∧ i.toSym.pairLegal = true

theorem adcImm (v : Byte) : Statement (.adcImm v) := ⟨(rfl : RowIs 0x69 .ADC .IMM), rfl, rfl⟩
theorem adcZp (b : Byte) : Statement (.adcZp b) := ⟨(rfl : RowIs 0x65 .ADC .ZP), rfl, rfl⟩
theorem adcZpx (b : Byte) : Statement (.adcZpx b) := ⟨(rfl : RowIs 0x75 .ADC .ZPX), rfl, rfl⟩
theorem adcAbs (w : Word) : Statement (.adcAbs w) := ⟨(rfl : RowIs 0x6D .ADC .ABS), rfl, rfl⟩
theorem adcAbsx (w : Word) : Statement (.adcAbsx w) := ⟨(rfl : RowIs 0x7D .ADC .ABSX), rfl, rfl⟩
theorem adcAbsy (w : Word) : Statement (.adcAbsy w) := ⟨(rfl : RowIs 0x79 .ADC .ABSY), rfl, rfl⟩
theorem adcIndx (b : Byte) : Statement (.adcIndx b) := ⟨(rfl : RowIs 0x61 .ADC .INDX), rfl, rfl⟩
theorem adcIndy (b : Byte) : Statement (.adcIndy b) := ⟨(rfl : RowIs 0x71 .ADC .INDY), rfl, rfl⟩
theorem sbcImm (v : Byte) : Statement (.sbcImm v) := ⟨(rfl : RowIs 0xE9 .SBC .IMM), rfl, rfl⟩
theorem sbcZp (b : Byte) : Statement (.sbcZp b) := ⟨(rfl : RowIs 0xE5 .SBC .ZP), rfl, rfl⟩
theorem sbcZpx (b : Byte) : Statement (.sbcZpx b) := ⟨(rfl : RowIs 0xF5 .SBC .ZPX), rfl, rfl⟩
theorem sbcAbs (w : Word) : Statement (.sbcAbs w) := ⟨(rfl : RowIs 0xED .SBC .ABS), rfl, rfl⟩
theorem sbcAbsx (w : Word) : Statement (.sbcAbsx w) := ⟨(rfl : RowIs 0xFD .SBC .ABSX), rfl, rfl⟩
theorem sbcAbsy (w : Word) : Statement (.sbcAbsy w) := ⟨(rfl : RowIs 0xF9 .SBC .ABSY), rfl, rfl⟩
theorem sbcIndx (b : Byte) : Statement (.sbcIndx b) := ⟨(rfl : RowIs 0xE1 .SBC .INDX), rfl, rfl⟩
theorem sbcIndy (b : Byte) : Statement (.sbcIndy b) := ⟨(rfl : RowIs 0xF1 .SBC .INDY), rfl, rfl⟩
theorem aslAcc : Statement (.aslAcc) := ⟨(rfl : RowIs 0x0A .ASL .ACC), rfl, rfl⟩
theorem aslZp (b : Byte) : Statement (.aslZp b) := ⟨(rfl : RowIs 0x06 .ASL .ZP), rfl, rfl⟩
theorem aslZpx (b : Byte) : Statement (.aslZpx b) := ⟨(rfl : RowIs 0x16 .ASL .ZPX), rfl, rfl⟩
theorem aslAbs (w : Word) : Statement (.aslAbs w) := ⟨(rfl : RowIs 0x0E .ASL .ABS), rfl, rfl⟩
theorem aslAbsx (w : Word) : Statement (.aslAbsx w) := ⟨(rfl : RowIs 0x1E .ASL .ABSX), rfl, rfl⟩
theorem lsrAcc : Statement (.lsrAcc) := ⟨(rfl : RowIs 0x4A .LSR .ACC), rfl, rfl⟩
theorem lsrZp (b : Byte) : Statement (.lsrZp b) := ⟨(rfl : RowIs 0x46 .LSR .ZP), rfl, rfl⟩
theorem lsrZpx (b : Byte) : Statement (.lsrZpx b) := ⟨(rfl : RowIs 0x56 .LSR .ZPX), rfl, rfl⟩
theorem lsrAbs (w : Word) : Statement (.lsrAbs w) := ⟨(rfl : RowIs 0x4E .LSR .ABS), rfl, rfl⟩
theorem lsrAbsx (w : Word) : Statement (.lsrAbsx w) := ⟨(rfl : RowIs 0x5E .LSR .ABSX), rfl, rfl⟩
theorem rolAcc : Statement (.rolAcc) := ⟨(rfl : RowIs 0x2A .ROL .ACC), rfl, rfl⟩
theorem rolZp (b : Byte) : Statement (.rolZp b) := ⟨(rfl : RowIs 0x26 .ROL .ZP), rfl, rfl⟩
theorem rolZpx (b : Byte) : Statement (.rolZpx b) := ⟨(rfl : RowIs 0x36 .ROL .ZPX), rfl, rfl⟩
theorem rolAbs (w : Word) : Statement (.rolAbs w) := ⟨(rfl : RowIs 0x2E .ROL .ABS), rfl, rfl⟩
theorem rolAbsx (w : Word) : Statement (.rolAbsx w) := ⟨(rfl : RowIs 0x3E .ROL .ABSX), rfl, rfl⟩
theorem rorAcc : Statement (.rorAcc) := ⟨(rfl : RowIs 0x6A .ROR .ACC), rfl, rfl⟩
theorem rorZp (b : Byte) : Statement (.rorZp b) := ⟨(rfl : RowIs 0x66 .ROR .ZP), rfl, rfl⟩
theorem rorZpx (b : Byte) : Statement (.rorZpx b) := ⟨(rfl : RowIs 0x76 .ROR .ZPX), rfl, rfl⟩
theorem rorAbs (w : Word) : Statement (.rorAbs w) := ⟨(rfl : RowIs 0x6E .ROR .ABS), rfl, rfl⟩
theorem rorAbsx (w : Word) : Statement (.rorAbsx w) := ⟨(rfl : RowIs 0x7E .ROR .ABSX), rfl, rfl⟩
theorem andImm (v : Byte) : Statement (.andImm v) := ⟨(rfl : RowIs 0x29 .AND .IMM), rfl, rfl⟩
theorem andZp (b : Byte) : Statement (.andZp b) := ⟨(rfl : RowIs 0x25 .AND .ZP), rfl, rfl⟩
theorem andZpx (b : Byte) : Statement (.andZpx b) := ⟨(rfl : RowIs 0x35 .AND .ZPX), rfl, rfl⟩
theorem andAbs (w : Word) : Statement (.andAbs w) := ⟨(rfl : RowIs 0x2D .AND .ABS), rfl, rfl⟩
theorem andAbsx (w : Word) : Statement (.andAbsx w) := ⟨(rfl : RowIs 0x3D .AND .ABSX), rfl, rfl⟩
theorem andAbsy (w : Word) : Statement (.andAbsy w) := ⟨(rfl : RowIs 0x39 .AND .ABSY), rfl, rfl⟩
theorem andIndx (b : Byte) : Statement (.andIndx b) := ⟨(rfl : RowIs 0x21 .AND .INDX), rfl, rfl⟩
theorem andIndy (b : Byte) : Statement (.andIndy b) := ⟨(rfl : RowIs 0x31 .AND .INDY), rfl, rfl⟩
theorem oraImm (v : Byte) : Statement (.oraImm v) := ⟨(rfl : RowIs 0x09 .ORA .IMM), rfl, rfl⟩
theorem oraZp (b : Byte) : Statement (.oraZp b) := ⟨(rfl : RowIs 0x05 .ORA .ZP), rfl, rfl⟩
theorem oraZpx (b : Byte) : Statement (.oraZpx b) := ⟨(rfl : RowIs 0x15 .ORA .ZPX), rfl, rfl⟩
theorem oraAbs (w : Word) : Statement (.oraAbs w) := ⟨(rfl : RowIs 0x0D .ORA .ABS), rfl, rfl⟩
theorem oraAbsx (w : Word) : Statement (.oraAbsx w) := ⟨(rfl : RowIs 0x1D .ORA .ABSX), rfl, rfl⟩
theorem oraAbsy (w : Word) : Statement (.oraAbsy w) := ⟨(rfl : RowIs 0x19 .ORA .ABSY), rfl, rfl⟩
theorem oraIndx (b : Byte) : Statement (.oraIndx b) := ⟨(rfl : RowIs 0x01 .ORA .INDX), rfl, rfl⟩
theorem oraIndy (b : Byte) : Statement (.oraIndy b) := ⟨(rfl : RowIs 0x11 .ORA .INDY), rfl, rfl⟩
theorem eorImm (v : Byte) : Statement (.eorImm v) := ⟨(rfl : RowIs 0x49 .EOR .IMM), rfl, rfl⟩
theorem eorZp (b : Byte) : Statement (.eorZp b) := ⟨(rfl : RowIs 0x45 .EOR .ZP), rfl, rfl⟩
theorem eorZpx (b : Byte) : Statement (.eorZpx b) := ⟨(rfl : RowIs 0x55 .EOR .ZPX), rfl, rfl⟩
theorem eorAbs (w : Word) : Statement (.eorAbs w) := ⟨(rfl : RowIs 0x4D .EOR .ABS), rfl, rfl⟩
theorem eorAbsx (w : Word) : Statement (.eorAbsx w) := ⟨(rfl : RowIs 0x5D .EOR .ABSX), rfl, rfl⟩
theorem eorAbsy (w : Word) : Statement (.eorAbsy w) := ⟨(rfl : RowIs 0x59 .EOR .ABSY), rfl, rfl⟩
theorem eorIndx (b : Byte) : Statement (.eorIndx b) := ⟨(rfl : RowIs 0x41 .EOR .INDX), rfl, rfl⟩
theorem eorIndy (b : Byte) : Statement (.eorIndy b) := ⟨(rfl : RowIs 0x51 .EOR .INDY), rfl, rfl⟩
theorem bitZp (b : Byte) : Statement (.bitZp b) := ⟨(rfl : RowIs 0x24 .BIT .ZP), rfl, rfl⟩
theorem bitAbs (w : Word) : Statement (.bitAbs w) := ⟨(rfl : RowIs 0x2C .BIT .ABS), rfl, rfl⟩
theorem cmpImm (v : Byte) : Statement (.cmpImm v) := ⟨(rfl : RowIs 0xC9 .CMP .IMM), rfl, rfl⟩
theorem cmpZp (b : Byte) : Statement (.cmpZp b) := ⟨(rfl : RowIs 0xC5 .CMP .ZP), rfl, rfl⟩
theorem cmpZpx (b : Byte) : Statement (.cmpZpx b) := ⟨(rfl : RowIs 0xD5 .CMP .ZPX), rfl, rfl⟩
theorem cmpAbs (w : Word) : Statement (.cmpAbs w) := ⟨(rfl : RowIs 0xCD .CMP .ABS), rfl, rfl⟩
theorem cmpAbsx (w : Word) : Statement (.cmpAbsx w) := ⟨(rfl : RowIs 0xDD .CMP .ABSX), rfl, rfl⟩
theorem cmpAbsy (w : Word) : Statement (.cmpAbsy w) := ⟨(rfl : RowIs 0xD9 .CMP .ABSY), rfl, rfl⟩
theorem cmpIndx (b : Byte) : Statement (.cmpIndx b) := ⟨(rfl : RowIs 0xC1 .CMP .INDX), rfl, rfl⟩
theorem cmpIndy (b : Byte) : Statement (.cmpIndy b) := ⟨(rfl : RowIs 0xD1 .CMP .INDY), rfl, rfl⟩
theorem cpxImm (v : Byte) : Statement (.cpxImm v) := ⟨(rfl : RowIs 0xE0 .CPX .IMM), rfl, rfl⟩
theorem cpxZp (b : Byte) : Statement (.cpxZp b) := ⟨(rfl : RowIs 0xE4 .CPX .ZP), rfl, rfl⟩
theorem cpxAbs (w : Word) : Statement (.cpxAbs w) := ⟨(rfl : RowIs 0xEC .CPX .ABS), rfl, rfl⟩
theorem cpyImm (v : Byte) : Statement (.cpyImm v) := ⟨(rfl : RowIs 0xC0 .CPY .IMM), rfl, rfl⟩
theorem cpyZp (b : Byte) : Statement (.cpyZp b) := ⟨(rfl : RowIs 0xC4 .CPY .ZP), rfl, rfl⟩
theorem cpyAbs (w : Word) : Statement (.cpyAbs w) := ⟨(rfl : RowIs 0xCC .CPY .ABS), rfl, rfl⟩
theorem incZp (b : Byte) : Statement (.incZp b) := ⟨(rfl : RowIs 0xE6 .INC .ZP), rfl, rfl⟩
theorem incZpx (b : Byte) : Statement (.incZpx b) := ⟨(rfl : RowIs 0xF6 .INC .ZPX), rfl, rfl⟩
theorem incAbs (w : Word) : Statement (.incAbs w) := ⟨(rfl : RowIs 0xEE .INC .ABS), rfl, rfl⟩
theorem incAbsx (w : Word) : Statement (.incAbsx w) := ⟨(rfl : RowIs 0xFE .INC .ABSX), rfl, rfl⟩
theorem decZp (b : Byte) : Statement (.decZp b) := ⟨(rfl : RowIs 0xC6 .DEC .ZP), rfl, rfl⟩
theorem decZpx (b : Byte) : Statement (.decZpx b) := ⟨(rfl : RowIs 0xD6 .DEC .ZPX), rfl, rfl⟩
theorem decAbs (w : Word) : Statement (.decAbs w) := ⟨(rfl : RowIs 0xCE .DEC .ABS), rfl, rfl⟩
theorem decAbsx (w : Word) : Statement (.decAbsx w) := ⟨(rfl : RowIs 0xDE .DEC .ABSX), rfl, rfl⟩
theorem inx : Statement (.inx) := ⟨(rfl : RowIs 0xE8 .INX .IMP), rfl, rfl⟩
theorem iny : Statement (.iny) := ⟨(rfl : RowIs 0xC8 .INY .IMP), rfl, rfl⟩
theorem dex : Statement (.dex) := ⟨(rfl : RowIs 0xCA .DEX .IMP), rfl, rfl⟩
theorem dey : Statement (.dey) := ⟨(rfl : RowIs 0x88 .DEY .IMP), rfl, rfl⟩
theorem bcc (d : Byte) : Statement (.bcc d) := ⟨(rfl : RowIs 0x90 .BCC .REL), rfl, rfl⟩
theorem bcs (d : Byte) : Statement (.bcs d) := ⟨(rfl : RowIs 0xB0 .BCS .REL), rfl, rfl⟩
theorem beq (d : Byte) : Statement (.beq d) := ⟨(rfl : RowIs 0xF0 .BEQ .REL), rfl, rfl⟩
theorem bne (d : Byte) : Statement (.bne d) := ⟨(rfl : RowIs 0xD0 .BNE .REL), rfl, rfl⟩
theorem bmi (d : Byte) : Statement (.bmi d) := ⟨(rfl : RowIs 0x30 .BMI .REL), rfl, rfl⟩
theorem bpl (d : Byte) : Statement (.bpl d) := ⟨(rfl : RowIs 0x10 .BPL .REL), rfl, rfl⟩
theorem bvc (d : Byte) : Statement (.bvc d) := ⟨(rfl : RowIs 0x50 .BVC .REL), rfl, rfl⟩
theorem bvs (d : Byte) : Statement (.bvs d) := ⟨(rfl : RowIs 0x70 .BVS .REL), rfl, rfl⟩
theorem jmpAbs (w : Word) : Statement (.jmpAbs w) := ⟨(rfl : RowIs 0x4C .JMP .ABS), rfl, rfl⟩
theorem jmpInd (w : Word) : Statement (.jmpInd w) := ⟨(rfl : RowIs 0x6C .JMP .IND), rfl, rfl⟩
theorem pha : Statement (.pha) := ⟨(rfl : RowIs 0x48 .PHA .IMP), rfl, rfl⟩
theorem pla : Statement (.pla) := ⟨(rfl : RowIs 0x68 .PLA .IMP), rfl, rfl⟩
theorem php : Statement (.php) := ⟨(rfl : RowIs 0x08 .PHP .IMP), rfl, rfl⟩
theorem plp : Statement (.plp) := ⟨(rfl : RowIs 0x28 .PLP .IMP), rfl, rfl⟩
theorem jsr (w : Word) : Statement (.jsr w) := ⟨(rfl : RowIs 0x20 .JSR .ABS), rfl, rfl⟩
theorem rts : Statement (.rts) := ⟨(rfl : RowIs 0x60 .RTS .IMP), rfl, rfl⟩
theorem brk : Statement (.brk) := ⟨(rfl : RowIs 0x00 .BRK .IMP), rfl, rfl⟩
theorem rti : Statement (.rti) := ⟨(rfl : RowIs 0x40 .RTI .IMP), rfl, rfl⟩
theorem clc : Statement (.clc) := ⟨(rfl : RowIs 0x18 .CLC .IMP), rfl, rfl⟩
theorem sec : Statement (.sec) := ⟨(rfl : RowIs 0x38 .SEC .IMP), rfl, rfl⟩
theorem cli : Statement (.cli) := ⟨(rfl : RowIs 0x58 .CLI .IMP), rfl, rfl⟩
theorem sei : Statement (.sei) := ⟨(rfl : RowIs 0x78 .SEI .IMP), rfl, rfl⟩
theorem cld : Statement (.cld) := ⟨(rfl : RowIs 0xD8 .CLD .IMP), rfl, rfl⟩
theorem sed : Statement (.sed) := ⟨(rfl : RowIs 0xF8 .SED .IMP), rfl, rfl⟩
theorem clv : Statement (.clv) := ⟨(rfl : RowIs 0xB8 .CLV .IMP), rfl, rfl⟩
theorem nop : Statement (.nop) := ⟨(rfl : RowIs 0xEA .NOP .IMP), rfl, rfl⟩
theorem ldaImm (v : Byte) : Statement (.ldaImm v) := ⟨(rfl : RowIs 0xA9 .LDA .IMM), rfl, rfl⟩
theorem ldaZp (b : Byte) : Statement (.ldaZp b) := ⟨(rfl : RowIs 0xA5 .LDA .ZP), rfl, rfl⟩
theorem ldaZpx (b : Byte) : Statement (.ldaZpx b) := ⟨(rfl : RowIs 0xB5 .LDA .ZPX), rfl, rfl⟩
theorem ldaAbs (w : Word) : Statement (.ldaAbs w) := ⟨(rfl : RowIs 0xAD .LDA .ABS), rfl, rfl⟩
theorem ldaAbsx (w : Word) : Statement (.ldaAbsx w) := ⟨(rfl : RowIs 0xBD .LDA .ABSX), rfl, rfl⟩
theorem ldaAbsy (w : Word) : Statement (.ldaAbsy w) := ⟨(rfl : RowIs 0xB9 .LDA .ABSY), rfl, rfl⟩
theorem ldaIndx (b : Byte) : Statement (.ldaIndx b) := ⟨(rfl : RowIs 0xA1 .LDA .INDX), rfl, rfl⟩
theorem ldaIndy (b : Byte) : Statement (.ldaIndy b) := ⟨(rfl : RowIs 0xB1 .LDA .INDY), rfl, rfl⟩
theorem ldxImm (v : Byte) : Statement (.ldxImm v) := ⟨(rfl : RowIs 0xA2 .LDX .IMM), rfl, rfl⟩
theorem ldxZp (b : Byte) : Statement (.ldxZp b) := ⟨(rfl : RowIs 0xA6 .LDX .ZP), rfl, rfl⟩
theorem ldxZpy (b : Byte) : Statement (.ldxZpy b) := ⟨(rfl : RowIs 0xB6 .LDX .ZPY), rfl, rfl⟩
theorem ldxAbs (w : Word) : Statement (.ldxAbs w) := ⟨(rfl : RowIs 0xAE .LDX .ABS), rfl, rfl⟩
theorem ldxAbsy (w : Word) : Statement (.ldxAbsy w) := ⟨(rfl : RowIs 0xBE .LDX .ABSY), rfl, rfl⟩
theorem ldyImm (v : Byte) : Statement (.ldyImm v) := ⟨(rfl : RowIs 0xA0 .LDY .IMM), rfl, rfl⟩
theorem ldyZp (b : Byte) : Statement (.ldyZp b) := ⟨(rfl : RowIs 0xA4 .LDY .ZP), rfl, rfl⟩
theorem ldyZpx (b : Byte) : Statement (.ldyZpx b) := ⟨(rfl : RowIs 0xB4 .LDY .ZPX), rfl, rfl⟩
theorem ldyAbs (w : Word) : Statement (.ldyAbs w) := ⟨(rfl : RowIs 0xAC .LDY .ABS), rfl, rfl⟩
theorem ldyAbsx (w : Word) : Statement (.ldyAbsx w) := ⟨(rfl : RowIs 0xBC .LDY .ABSX), rfl, rfl⟩
theorem staZp (b : Byte) : Statement (.staZp b) := ⟨(rfl : RowIs 0x85 .STA .ZP), rfl, rfl⟩
theorem staZpx (b : Byte) : Statement (.staZpx b) := ⟨(rfl : RowIs 0x95 .STA .ZPX), rfl, rfl⟩
theorem staAbs (w : Word) : Statement (.staAbs w) := ⟨(rfl : RowIs 0x8D .STA .ABS), rfl, rfl⟩
theorem staAbsx (w : Word) : Statement (.staAbsx w) := ⟨(rfl : RowIs 0x9D .STA .ABSX), rfl, rfl⟩
theorem staAbsy (w : Word) : Statement (.staAbsy w) := ⟨(rfl : RowIs 0x99 .STA .ABSY), rfl, rfl⟩
theorem staIndx (b : Byte) : Statement (.staIndx b) := ⟨(rfl : RowIs 0x81 .STA .INDX), rfl, rfl⟩
theorem staIndy (b : Byte) : Statement (.staIndy b) := ⟨(rfl : RowIs 0x91 .STA .INDY), rfl, rfl⟩
theorem stxZp (b : Byte) : Statement (.stxZp b) := ⟨(rfl : RowIs 0x86 .STX .ZP), rfl, rfl⟩
theorem stxZpy (b : Byte) : Statement (.stxZpy b) := ⟨(rfl : RowIs 0x96 .STX .ZPY), rfl, rfl⟩
theorem stxAbs (w : Word) : Statement (.stxAbs w) := ⟨(rfl : RowIs 0x8E .STX .ABS), rfl, rfl⟩
theorem styZp (b : Byte) : Statement (.styZp b) := ⟨(rfl : RowIs 0x84 .STY .ZP), rfl, rfl⟩
theorem styZpx (b : Byte) : Statement (.styZpx b) := ⟨(rfl : RowIs 0x94 .STY .ZPX), rfl, rfl⟩
theorem styAbs (w : Word) : Statement (.styAbs w) := ⟨(rfl : RowIs 0x8C .STY .ABS), rfl, rfl⟩
theorem tax : Statement (.tax) := ⟨(rfl : RowIs 0xAA .TAX .IMP), rfl, rfl⟩
theorem tay : Statement (.tay) := ⟨(rfl : RowIs 0xA8 .TAY .IMP), rfl, rfl⟩
theorem txa : Statement (.txa) := ⟨(rfl : RowIs 0x8A .TXA .IMP), rfl, rfl⟩
theorem tya : Statement (.tya) := ⟨(rfl : RowIs 0x98 .TYA .IMP), rfl, rfl⟩
theorem tsx : Statement (.tsx) := ⟨(rfl : RowIs 0xBA .TSX .IMP), rfl, rfl⟩
theorem txs : Statement (.txs) := ⟨(rfl : RowIs 0x9A .TXS .IMP), rfl, rfl⟩

/-- The statement of every instruction, from its constructor's lemma. -/
theorem every : ∀ i : Instr, Statement i
  | .adcImm v => adcImm v
  | .adcZp b => adcZp b
  | .adcZpx b => adcZpx b
  | .adcAbs w => adcAbs w
  | .adcAbsx w => adcAbsx w
  | .adcAbsy w => adcAbsy w
  | .adcIndx b => adcIndx b
  | .adcIndy b => adcIndy b
  | .sbcImm v => sbcImm v
  | .sbcZp b => sbcZp b
  | .sbcZpx b => sbcZpx b
  | .sbcAbs w => sbcAbs w
  | .sbcAbsx w => sbcAbsx w
  | .sbcAbsy w => sbcAbsy w
  | .sbcIndx b => sbcIndx b
  | .sbcIndy b => sbcIndy b
  | .aslAcc => aslAcc
  | .aslZp b => aslZp b
  | .aslZpx b => aslZpx b
  | .aslAbs w => aslAbs w
  | .aslAbsx w => aslAbsx w
  | .lsrAcc => lsrAcc
  | .lsrZp b => lsrZp b
  | .lsrZpx b => lsrZpx b
  | .lsrAbs w => lsrAbs w
  | .lsrAbsx w => lsrAbsx w
  | .rolAcc => rolAcc
  | .rolZp b => rolZp b
  | .rolZpx b => rolZpx b
  | .rolAbs w => rolAbs w
  | .rolAbsx w => rolAbsx w
  | .rorAcc => rorAcc
  | .rorZp b => rorZp b
  | .rorZpx b => rorZpx b
  | .rorAbs w => rorAbs w
  | .rorAbsx w => rorAbsx w
  | .andImm v => andImm v
  | .andZp b => andZp b
  | .andZpx b => andZpx b
  | .andAbs w => andAbs w
  | .andAbsx w => andAbsx w
  | .andAbsy w => andAbsy w
  | .andIndx b => andIndx b
  | .andIndy b => andIndy b
  | .oraImm v => oraImm v
  | .oraZp b => oraZp b
  | .oraZpx b => oraZpx b
  | .oraAbs w => oraAbs w
  | .oraAbsx w => oraAbsx w
  | .oraAbsy w => oraAbsy w
  | .oraIndx b => oraIndx b
  | .oraIndy b => oraIndy b
  | .eorImm v => eorImm v
  | .eorZp b => eorZp b
  | .eorZpx b => eorZpx b
  | .eorAbs w => eorAbs w
  | .eorAbsx w => eorAbsx w
  | .eorAbsy w => eorAbsy w
  | .eorIndx b => eorIndx b
  | .eorIndy b => eorIndy b
  | .bitZp b => bitZp b
  | .bitAbs w => bitAbs w
  | .cmpImm v => cmpImm v
  | .cmpZp b => cmpZp b
  | .cmpZpx b => cmpZpx b
  | .cmpAbs w => cmpAbs w
  | .cmpAbsx w => cmpAbsx w
  | .cmpAbsy w => cmpAbsy w
  | .cmpIndx b => cmpIndx b
  | .cmpIndy b => cmpIndy b
  | .cpxImm v => cpxImm v
  | .cpxZp b => cpxZp b
  | .cpxAbs w => cpxAbs w
  | .cpyImm v => cpyImm v
  | .cpyZp b => cpyZp b
  | .cpyAbs w => cpyAbs w
  | .incZp b => incZp b
  | .incZpx b => incZpx b
  | .incAbs w => incAbs w
  | .incAbsx w => incAbsx w
  | .decZp b => decZp b
  | .decZpx b => decZpx b
  | .decAbs w => decAbs w
  | .decAbsx w => decAbsx w
  | .inx => inx
  | .iny => iny
  | .dex => dex
  | .dey => dey
  | .bcc d => bcc d
  | .bcs d => bcs d
  | .beq d => beq d
  | .bne d => bne d
  | .bmi d => bmi d
  | .bpl d => bpl d
  | .bvc d => bvc d
  | .bvs d => bvs d
  | .jmpAbs w => jmpAbs w
  | .jmpInd w => jmpInd w
  | .pha => pha
  | .pla => pla
  | .php => php
  | .plp => plp
  | .jsr w => jsr w
  | .rts => rts
  | .brk => brk
  | .rti => rti
  | .clc => clc
  | .sec => sec
  | .cli => cli
  | .sei => sei
  | .cld => cld
  | .sed => sed
  | .clv => clv
  | .nop => nop
  | .ldaImm v => ldaImm v
  | .ldaZp b => ldaZp b
  | .ldaZpx b => ldaZpx b
  | .ldaAbs w => ldaAbs w
  | .ldaAbsx w => ldaAbsx w
  | .ldaAbsy w => ldaAbsy w
  | .ldaIndx b => ldaIndx b
  | .ldaIndy b => ldaIndy b
  | .ldxImm v => ldxImm v
  | .ldxZp b => ldxZp b
  | .ldxZpy b => ldxZpy b
  | .ldxAbs w => ldxAbs w
  | .ldxAbsy w => ldxAbsy w
  | .ldyImm v => ldyImm v
  | .ldyZp b => ldyZp b
  | .ldyZpx b => ldyZpx b
  | .ldyAbs w => ldyAbs w
  | .ldyAbsx w => ldyAbsx w
  | .staZp b => staZp b
  | .staZpx b => staZpx b
  | .staAbs w => staAbs w
  | .staAbsx w => staAbsx w
  | .staAbsy w => staAbsy w
  | .staIndx b => staIndx b
  | .staIndy b => staIndy b
  | .stxZp b => stxZp b
  | .stxZpy b => stxZpy b
  | .stxAbs w => stxAbs w
  | .styZp b => styZp b
  | .styZpx b => styZpx b
  | .styAbs w => styAbs w
  | .tax => tax
  | .tay => tay
  | .txa => txa
  | .tya => tya
  | .tsx => tsx
  | .txs => txs

end Sys2Proof.Laws.Encoding
end

