-- ==== Sys2Proof/Laws/Step.lean ====
section
/-! SUPPORT. What fetching, an interrupt entry, an instruction and a step can do, each said once: `Reaches`, and the
inversions of `fetch`, `takeInterrupt` and `step`. -/
namespace Sys2Proof.Machine

/-! The catalog behind the decoder. -/

theorem length_encode (i : Instr) : (encode i).length = i.length := (Sys2Proof.Laws.Encoding.every i).2.1

theorem rowOf_opcode {op : Byte} {row : Row} (h : rowOf op = some row) : row.opcode = op := by
  simpa using List.find?_some h

theorem rowOf_mem {op : Byte} {row : Row} (h : rowOf op = some row) : row ∈ catalog := by
  have hl : row ∈ catalogLine (op.toNat / 16) := List.mem_of_find?_eq_some h
  simp only [catalog, List.mem_append]
  unfold catalogLine at hl
  split at hl <;> simp [hl]

/-- What a row makes of its operand bytes is the instruction those bytes encode. -/
theorem catalog_shape : ∀ r ∈ catalog, match r.shape with
    | .none i => encode i = [r.opcode] ∧ r.mode = i.mode
    | .byte f => ∀ b, encode (f b) = [r.opcode, b] ∧ r.mode = (f b).mode
    | .word f => ∀ w, encode (f w) = [r.opcode, loByte w, hiByte w] ∧ r.mode = (f w).mode := by
  intro r hr
  simp only [catalog, List.mem_append, catalog0, catalog1, catalog2, catalog3, catalog4, catalog5, catalog6, catalog7,
    catalog8, catalog9, catalogA, catalogB, catalogC, catalogD, catalogE, catalogF, List.mem_cons, List.not_mem_nil,
    or_false, or_assoc] at hr
  repeat' (rcases hr with h | hr <;> [(subst h; first | exact ⟨rfl, rfl⟩ | exact fun _ => ⟨rfl, rfl⟩); skip])
  all_goals (subst hr; first | exact ⟨rfl, rfl⟩ | exact fun _ => ⟨rfl, rfl⟩)

theorem rowOf_shape {op : Byte} {row : Row} (h : rowOf op = some row) : match row.shape with
    | .none i => encode i = [op] ∧ row.mode = i.mode
    | .byte f => ∀ b, encode (f b) = [op, b] ∧ row.mode = (f b).mode
    | .word f => ∀ w, encode (f w) = [op, loByte w, hiByte w] ∧ row.mode = (f w).mode :=
  rowOf_opcode h ▸ catalog_shape row (rowOf_mem h)

/-- The row of an instruction's opcode byte has the instruction's mode. -/
theorem rowOf_instr (i : Instr) : ∃ row, rowOf i.opcode = some row ∧ row.mode = i.mode := by
  have h := (Sys2Proof.Laws.Encoding.every i).1
  unfold Sys2Proof.Laws.Encoding.RowIs at h
  rw [Option.map_eq_some_iff] at h
  obtain ⟨row, hrow, he⟩ := h
  simp only [Prod.mk.injEq] at he
  exact ⟨row, hrow, he.2.2⟩

/-- A row reads as many operand bytes as its mode has. -/
theorem rowOf_length {op : Byte} {row : Row} (h : rowOf op = some row) : match row.shape with
    | .none i => row.mode.length = 1 ∧ i.length = 1
    | .byte f => row.mode.length = 2 ∧ ∀ b, (f b).length = 2
    | .word f => row.mode.length = 3 ∧ ∀ w, (f w).length = 3 := by
  have hs := rowOf_shape h
  cases hr : row.shape with
  | none i =>
    rw [hr] at hs
    have hl := length_encode i
    rw [hs.1] at hl
    exact ⟨hs.2 ▸ hl.symm, hl.symm⟩
  | byte f =>
    rw [hr] at hs
    have hl := fun b => (length_encode (f b)).symm
    simp only [fun b => (hs b).1, List.length_cons, List.length_nil] at hl
    exact ⟨(hs 0).2 ▸ hl 0, hl⟩
  | word f =>
    rw [hr] at hs
    have hl := fun b => (length_encode (f b)).symm
    simp only [fun b => (hs b).1, List.length_cons, List.length_nil] at hl
    exact ⟨(hs 0).2 ▸ hl 0, hl⟩

/-! Fetching. -/

theorem fetchByte_ok {s : State} {a : Word} {v : Byte} : fetchByte s a = .ok v ↔ memRead s a = .ok v := by
  simp only [fetchByte]
  cases memRead s a <;> simp

theorem fetchByte_of_error {s : State} {a : Word} {e : Access} (h : memRead s a = .error e) :
    fetchByte s a = .error (.memoryFault a .read s.pc) := by
  obtain ⟨rfl, -⟩ := memRead_error.mp h
  simp only [fetchByte, h]

/-- Fetching reads the bytes of one instruction, and changes PC alone. -/
theorem fetch_ok {s t : State} {i : Instr} (h : fetch s = .ok (i, t)) :
    t = setPc (s.pc + BitVec.ofNat 16 i.length) s ∧ memRead s s.pc = .ok i.opcode := by
  simp only [fetch] at h
  split at h
  · cases h
  rename_i op hop
  split at h
  · cases h
  rename_i row hrow
  have hs := rowOf_shape hrow
  have hl := rowOf_length hrow
  have hopc := fetchByte_ok.mp hop
  split at h
  · rename_i j hj
    rw [hj] at hs hl
    cases h
    have : op = i.opcode := ((List.cons.inj hs.1).1).symm
    exact ⟨by rw [hl.2]; rfl, this ▸ hopc⟩
  · rename_i f hj
    rw [hj] at hs hl
    split at h
    · cases h
    rename_i b1 _
    cases h
    have : op = (f b1).opcode := ((List.cons.inj (hs b1).1).1).symm
    exact ⟨by rw [hl.2]; rfl, this ▸ hopc⟩
  · rename_i f hj
    rw [hj] at hs hl
    split at h
    · cases h
    split at h
    · cases h
    rename_i b1 _ _ b2 _
    cases h
    have : op = (f (word b2 b1)).opcode := ((List.cons.inj (hs (word b2 b1)).1).1).symm
    exact ⟨by rw [hl.2]; rfl, this ▸ hopc⟩

/-! The stack slots the claims name. -/

theorem pushSlot_zero (s : State) : pushSlot s 0 = stackAddr s.sp := by simp [pushSlot, stackAddr]
theorem pushSlot_one (s : State) : pushSlot s 1 = stackAddr (s.sp - 1) := rfl
theorem pushSlot_two (s : State) : pushSlot s 2 = stackAddr (s.sp - 1 - 1) := by
  rw [pushSlot, show s.sp - BitVec.ofNat 8 2 = s.sp - 1 - 1 by bv_omega]
  rfl
theorem pullSlot_one (s : State) : pullSlot s 1 = stackAddr (s.sp + 1) := rfl
theorem pullSlot_two (s : State) : pullSlot s 2 = stackAddr (s.sp + 1 + 1) := by
  rw [pullSlot, show s.sp + BitVec.ofNat 8 2 = s.sp + 1 + 1 by bv_omega]
  rfl
theorem pullSlot_three (s : State) : pullSlot s 3 = stackAddr (s.sp + 1 + 1 + 1) := by
  rw [pullSlot, show s.sp + BitVec.ofNat 8 3 = s.sp + 1 + 1 + 1 by bv_omega]
  rfl

/-! What an operation can do. -/

/-- Bytes put one after another. -/
def putAll (m : Memory) (l : List (Word × Byte)) : Memory := l.foldl (fun m c => m.put c.1.toNat c.2) m

@[simp] theorem putAll_nil (m : Memory) : putAll m [] = m := rfl
@[simp] theorem putAll_cons (m : Memory) (c : Word × Byte) (l : List (Word × Byte)) :
    putAll m (c :: l) = putAll (m.put c.1.toNat c.2) l := rfl
theorem putAll_append (m : Memory) (l r : List (Word × Byte)) : putAll m (l ++ r) = putAll (putAll m l) r :=
  List.foldl_append

@[simp] theorem putAll_writable (m : Memory) (l : List (Word × Byte)) (a : Nat) :
    (putAll m l).writable a = m.writable a := by
  induction l generalizing m with
  | nil => rfl
  | cons c l ih => rw [putAll_cons, ih, Memory.put_writable]

@[simp] theorem putAll_allows (m : Memory) (l : List (Word × Byte)) (acc : Access) :
    (putAll m l).allows acc = m.allows acc := by
  induction l generalizing m with
  | nil => rfl
  | cons c l ih => rw [putAll_cons, ih, Memory.put_allows]

theorem putAll_wf {m : Memory} (h : m.wf = true) (l : List (Word × Byte)) : (putAll m l).wf = true := by
  induction l generalizing m with
  | nil => exact h
  | cons c l ih => exact ih (Memory.put_wf h)

/-- A byte that no put reaches reads as before. -/
theorem putAll_read {m : Memory} {b : Word} (h : m.wf = true) : ∀ (l : List (Word × Byte)),
    (∀ c ∈ l, m.writable c.1.toNat = true ∧ c.1 ≠ b) → (putAll m l).read b.toNat = m.read b.toNat := by
  intro l
  induction l generalizing m with
  | nil => exact fun _ => rfl
  | cons c l ih =>
    intro hl
    obtain ⟨hw, hne⟩ := hl c List.mem_cons_self
    rw [putAll_cons, ih (Memory.put_wf h) fun d hd => ?_, Memory.read_put _ _ h (Memory.read_of_writable hw), if_neg]
    · exact fun he => hne (BitVec.eq_of_toNat_eq he.symm)
    · have := hl d (List.mem_cons_of_mem _ hd)
      simpa using this

/-- Everything an operation that succeeds can do to the state: put bytes at allowed addresses its access list writes, and
change registers and flags, but not B, and not U when it is 1. Parameters, the fault mark and the irq level stay. -/
structure Reaches (l : List Access) (s t : State) : Prop where
  mem : ∃ cs, t.mem = putAll s.mem cs ∧ ∀ c ∈ cs, s.mem.writable c.1.toNat = true ∧ writeOf c.1 ∈ l
  cfg : t.cfg = s.cfg
  faulted : t.faulted = s.faulted
  irq : t.irq = s.irq
  freeCount : t.freeCount = s.freeCount
  flagB : getFlag t.p .B = getFlag s.p .B
  flagU : getFlag s.p .U = true → getFlag t.p .U = true

theorem Reaches.refl (s : State) : Reaches [] s s := ⟨⟨[], rfl, by simp⟩, rfl, rfl, rfl, rfl, rfl, id⟩

theorem Reaches.weaken {l l' : List Access} {s t : State} (h : Reaches l s t) (hl : ∀ x ∈ l, x ∈ l') : Reaches l' s t := by
  obtain ⟨⟨cs, hm, hc⟩, h2, h3, h4, h5, h6, h7⟩ := h
  exact ⟨⟨cs, hm, fun c hcc => ⟨(hc c hcc).1, hl _ (hc c hcc).2⟩⟩, h2, h3, h4, h5, h6, h7⟩

theorem Reaches.trans {l l' : List Access} {s t u : State} (h : Reaches l s t) (h' : Reaches l' t u) :
    Reaches (l ++ l') s u := by
  obtain ⟨⟨cs, hm, hc⟩, h2, h3, h4, h5, h6, h7⟩ := h
  obtain ⟨⟨ds, gm, gc⟩, g2, g3, g4, g5, g6, g7⟩ := h'
  refine ⟨⟨cs ++ ds, by rw [gm, hm, putAll_append], fun c hcc => ?_⟩, g2.trans h2, g3.trans h3, g4.trans h4, g5.trans h5,
    g6.trans h6, g7 ∘ h7⟩
  rcases List.mem_append.mp hcc with hcc | hcc
  · exact ⟨(hc c hcc).1, List.mem_append_left _ (hc c hcc).2⟩
  · have := gc c hcc
    rw [hm, putAll_writable] at this
    exact ⟨this.1, List.mem_append_right _ this.2⟩

/-- An update of registers and of flags other than B and U. -/
theorem Reaches.ofRegs {l : List Access} (s t : State) (hm : t.mem = s.mem) (hc : t.cfg = s.cfg) (hf : t.faulted = s.faulted)
    (hi : t.irq = s.irq) (hn : t.freeCount = s.freeCount) (hB : getFlag t.p .B = getFlag s.p .B)
    (hU : getFlag s.p .U = true → getFlag t.p .U = true) : Reaches l s t :=
  ⟨⟨[], hm, by simp⟩, hc, hf, hi, hn, hB, hU⟩

theorem reaches_regFn {l : List Access} {f : State → State} (h : RegFn f) (s : State) : Reaches l s (f s) := by
  obtain ⟨a, x, y, sp, pc, p, he, hB, hU⟩ := h s
  rw [he]
  exact .ofRegs _ _ rfl rfl rfl rfl rfl hB fun h => hU.trans h

theorem reaches_memWrite {s t : State} {a : Word} {v : Byte} (h : memWrite s a v = .ok t) : Reaches [writeOf a] s t := by
  obtain ⟨hw, rfl⟩ := memWrite_ok.mp h
  exact ⟨⟨[(a, v)], rfl, by simpa using hw⟩, rfl, rfl, rfl, rfl, rfl, id⟩

theorem reaches_pushed {v : Byte} {s : State} (h : s.mem.writable (stackAddr s.sp).toNat = true) :
    Reaches (pushAccesses s.sp 1) s (pushed v s) :=
  ⟨⟨[(stackAddr s.sp, v)], rfl, by simpa [pushAccesses] using h⟩, rfl, rfl, rfl, rfl, rfl, id⟩

theorem reaches_pushWord {w : Word} {s t : State} (h : pushWord w s = .ok t) : Reaches (pushAccesses s.sp 2) s t := by
  obtain ⟨h1, h2, rfl⟩ := pushWord_ok.mp h
  exact Reaches.trans (reaches_pushed h1) (reaches_pushed (s := pushed (hiByte w) s) (by simpa using h2))

theorem reaches_enterHandler {ret : Word} {status : Byte} {vector : Word} {s t : State}
    (h : enterHandler ret status vector s = .ok t) : Reaches (entryAccesses s.sp vector) s t := by
  obtain ⟨h1, h2, h3, lo, hi, -, -, rfl⟩ := enterHandler_ok.mp h
  have hp := Reaches.trans (reaches_pushWord (w := ret) (pushWord_ok.mpr ⟨h1, h2, rfl⟩))
    (reaches_pushed (v := status) (s := pushed (loByte ret) (pushed (hiByte ret) s)) (by simpa using h3))
  refine (hp.trans (Reaches.ofRegs (l := []) _ (setPc (word hi lo) (setStatus (setFlag .I true s.p)
    (pushed status (pushed (loByte ret) (pushed (hiByte ret) s))))) rfl rfl rfl rfl rfl ?_ ?_)).weaken ?_
  · show getFlag (setFlag .I true s.p) .B = getFlag s.p .B
    simp
  · intro hu
    show getFlag (setFlag .I true s.p) .U = true
    replace hu : getFlag s.p .U = true := hu
    simpa using hu
  · intro x hx
    rw [List.append_nil] at hx
    exact (List.mem_append (s := pushAccesses s.sp 3)).mpr (.inl hx)

theorem reaches_returnFromHandler {l : List Access} {s t : State} (h : returnFromHandler s = .ok t) : Reaches l s t := by
  obtain ⟨v, lo, hi, -, -, -, rfl⟩ := returnFromHandler_ok.mp h
  exact .ofRegs _ _ rfl rfl rfl rfl rfl (by simp [getFlag_pulledStatus]) fun _ => by simp [getFlag_pulledStatus]

/-- The effective address of an operation that succeeds is in its access list. -/
theorem mem_eaAccesses {m : MemArg} {s : State} {ea : Word} {use : Word → List Access} (h : effAddr m s = .ok ea)
    {x : Access} (hx : x ∈ use ea) : x ∈ eaAccesses m s use := by
  simp only [eaAccesses, h]
  exact List.mem_append_right _ hx

/-- Everything an instruction can do. -/
theorem exec_reaches {i : Instr} {s t : State} (h : exec i s = .next t) : Reaches (dataAccesses i s) s t := by
  rw [exec_eq_conclude, conclude_next] at h
  rw [dataAccesses_eq]
  have hg := view_good i
  revert h hg
  cases view i with
  | regs f =>
    intro h hg
    cases h
    exact reaches_regFn hg s
  | flag f v =>
    intro h hg
    cases h
    exact .ofRegs _ _ rfl rfl rfl rfl rfl (by simp [Ne.symm hg.1]) fun hu => by simpa [Ne.symm hg.2] using hu
  | branch f want d =>
    intro h _
    cases h
    cases (if want then getFlag s.p f else !getFlag s.p f)
    · exact .ofRegs _ _ rfl rfl rfl rfl rfl rfl id
    · exact .ofRegs _ _ rfl rfl rfl rfl rfl rfl id
  | modifyA f =>
    intro h hg
    cases h
    exact .ofRegs _ _ rfl rfl rfl rfl rfl (hg _ _).1 fun hu => (hg _ _).2.trans hu
  | read m f =>
    intro h hg
    simp only [View.op] at h
    split at h
    · cases h
      exact reaches_regFn (hg _) s
    · cases h
  | store m v =>
    intro h _
    simp only [View.op, store] at h
    split at h
    · rename_i ea hea
      exact (reaches_memWrite h).weaken fun x hx => mem_eaAccesses hea hx
    · cases h
  | modify m f =>
    intro h hg
    simp only [View.op, modifyTarget] at h
    split at h
    · cases h
    rename_i ea hea
    split at h
    · cases h
    rename_i v _
    split at h
    · cases h
    rename_i u hu
    cases h
    have hp : u.p = s.p := by
      rw [(memWrite_ok.mp hu).2]
      rfl
    have hr := (reaches_memWrite hu).trans (Reaches.ofRegs (l := []) u (setStatus (f v s.p).status u) rfl rfl rfl rfl rfl
      (hp ▸ (hg v s.p).1) (fun hs => (hg v s.p).2.trans (hp ▸ hs)))
    refine hr.weaken fun x hx => mem_eaAccesses hea ?_
    rw [List.append_nil] at hx
    exact List.mem_cons_of_mem _ hx
  | jumpInd w =>
    intro h _
    simp only [View.op, jumpIndirect] at h
    split at h
    · cases h
      exact .ofRegs _ _ rfl rfl rfl rfl rfl rfl id
    · cases h
  | push v =>
    intro h _
    obtain ⟨hw, rfl⟩ := push_ok.mp h
    exact reaches_pushed hw
  | pullA =>
    intro h _
    simp only [View.op, pullA] at h
    split at h
    · rename_i v u hp
      obtain ⟨-, rfl⟩ := pull_ok.mp hp
      cases h
      exact .ofRegs _ _ rfl rfl rfl rfl rfl (by simp [writeA, getFlag_setZN]) (by simp [writeA, getFlag_setZN])
    · cases h
  | pullP =>
    intro h _
    simp only [View.op, pullP] at h
    split at h
    · rename_i v u hp
      obtain ⟨-, rfl⟩ := pull_ok.mp hp
      cases h
      exact .ofRegs _ _ rfl rfl rfl rfl rfl (by simp [getFlag_pulledStatus]) (by simp [getFlag_pulledStatus])
    · cases h
  | call w =>
    intro h _
    simp only [View.op, callTo] at h
    split at h
    · rename_i u hp
      cases h
      have hr := (reaches_pushWord hp).trans (Reaches.ofRegs (l := []) u (setPc w u) rfl rfl rfl rfl rfl rfl id)
      rwa [List.append_nil] at hr
    · cases h
  | ret =>
    intro h _
    simp only [View.op, returnFromCall] at h
    split at h
    · rename_i w u hp
      obtain ⟨lo, hi, -, -, -, rfl⟩ := pullWord_ok.mp hp
      cases h
      exact .ofRegs _ _ rfl rfl rfl rfl rfl rfl id
    · cases h
  | brk =>
    intro h _
    exact reaches_enterHandler h
  | rti =>
    intro h _
    exact reaches_returnFromHandler h

/-! Interrupts and steps. -/

theorem takeInterrupt_of_none {s : State} (h : pendingVector s = none) : takeInterrupt s = .ok s := by
  simp only [takeInterrupt, h]

/-- Taking a pending interrupt, or nothing. -/
theorem takeInterrupt_reaches {s t : State} (h : takeInterrupt s = .ok t) :
    Reaches (match pendingVector s with | none => [] | some vector => entryAccesses s.sp vector) s t := by
  simp only [takeInterrupt] at h
  cases hp : pendingVector s with
  | none =>
    rw [hp] at h
    cases h
    exact .refl s
  | some vector =>
    rw [hp] at h
    obtain ⟨h1, h2, h3, h4, h5, h6, h7⟩ := reaches_enterHandler (s := { s with nmi := false }) h
    exact ⟨h1, h2, h3, h4, h5, h6, h7⟩

/-- The two ways a step can succeed: a halted core does nothing; any other takes its interrupt, fetches and executes. -/
theorem step_next {s t : State} (h : step s = .next t) :
    (s.faulted = true ∧ t = s) ∨ ∃ s1 s2 i, s.faulted = false ∧ takeInterrupt s = .ok s1 ∧ fetch s1 = .ok (i, s2) ∧
      exec i s2 = .next t := by
  unfold step at h
  split at h
  · cases h
    exact .inl ⟨‹_›, rfl⟩
  · rename_i hf
    split at h
    · cases h
    · rename_i s1 h1
      split at h
      · cases h
      · rename_i i s2 h2
        exact .inr ⟨s1, s2, i, by simpa using hf, h1, h2, h⟩

theorem fetch_reaches {s t : State} {i : Instr} (h : fetch s = .ok (i, t)) : Reaches [] s t :=
  (fetch_ok h).1 ▸ .ofRegs _ _ rfl rfl rfl rfl rfl rfl id

/-- Everything a step can do. -/
theorem step_reaches {s t : State} (hf : s.faulted = false) (h : step s = .next t) : Reaches (stepAccesses s) s t := by
  rcases step_next h with ⟨h1, -⟩ | ⟨s1, s2, i, -, ht, hfe, he⟩
  · rw [hf] at h1
    cases h1
  · refine ((takeInterrupt_reaches ht).trans ((fetch_reaches hfe).trans (exec_reaches he))).weaken fun x hx => ?_
    have key : ∀ x ∈ dataAccesses i s2, x ∈ instrAccesses s1 := by
      intro x hx
      simp only [instrAccesses, hfe]
      exact List.mem_append_right _ hx
    simp only [List.nil_append, List.mem_append] at hx
    simp only [stepAccesses]
    cases hp : pendingVector s with
    | none =>
      rw [takeInterrupt_of_none hp] at ht
      cases ht
      rcases hx with hx | hx
      · rw [hp] at hx
        cases hx
      · exact key x hx
    | some vector =>
      rw [hp] at hx
      simp only [ht]
      rcases hx with hx | hx
      · exact List.mem_append_left _ hx
      · exact List.mem_append_right _ (key x hx)

/-- What every step that succeeds keeps, halted or not. -/
theorem step_keeps {s t : State} (h : step s = .next t) : ∃ l, Reaches l s t := by
  cases hf : s.faulted
  · exact ⟨_, step_reaches hf h⟩
  · rcases step_next h with ⟨-, rfl⟩ | ⟨s1, s2, i, hn, -⟩
    · exact ⟨_, .refl _⟩
    · rw [hf] at hn
      cases hn

end Sys2Proof.Machine
end

