-- ==== Sys2Proof/Laws/Relabel.lean ====
section
/-! SUPPORT. Changing P and the interrupt inputs by functions that each instruction's computations commute with commutes
with the operations, the instructions, fetching and the step. -/
namespace Sys2Proof.Machine

/-- A change of P and of the interrupt inputs. -/
def relabel (h : Byte → Byte) (q n : Bool → Bool) (s : State) : State :=
  { s with p := h s.p, irq := q s.irq, nmi := n s.nmi }

variable (h : Byte → Byte) (q n : Bool → Bool)

theorem memRead_relabel (s : State) (a) : memRead (relabel h q n s) a = memRead s a := rfl
theorem memWrite_relabel (s : State) (a v) : memWrite (relabel h q n s) a v = (memWrite s a v).map (relabel h q n) := by
  simp only [memWrite, show (relabel h q n s).mem = s.mem from rfl]
  cases s.mem.write a.toNat v <;> rfl
theorem readPair_relabel (s : State) (a b) : readPair (relabel h q n s) a b = readPair s a b := rfl
theorem effAddr_relabel (s : State) (m) : effAddr m (relabel h q n s) = effAddr m s := by cases m <;> rfl
theorem load_relabel (s : State) (m) : load m (relabel h q n s) = load m s := by simp only [load, effAddr_relabel]; rfl
theorem store_relabel (s : State) (m v) : store m v (relabel h q n s) = (store m v s).map (relabel h q n) := by
  simp only [store, effAddr_relabel, memWrite_relabel]; cases effAddr m s <;> rfl
theorem push_relabel (s : State) (v) : push v (relabel h q n s) = (push v s).map (relabel h q n) := by
  simp only [push, memWrite_relabel, show (relabel h q n s).sp = s.sp from rfl]; cases memWrite s (stackAddr s.sp) v <;> rfl
theorem pull_relabel (s : State) : pull (relabel h q n s) = (pull s).map fun r => (r.1, relabel h q n r.2) := by
  simp only [pull, memRead_relabel, show (relabel h q n s).sp = s.sp from rfl]; cases memRead s (stackAddr (s.sp+1)) <;> rfl
theorem pushWord_relabel (s : State) (v) : pushWord v (relabel h q n s) = (pushWord v s).map (relabel h q n) := by
  simp only [pushWord, push_relabel]; cases push (hiByte v) s with
  | error e => rfl
  | ok t => simp only [Except.map, push_relabel]
theorem pullWord_relabel (s : State) : pullWord (relabel h q n s) = (pullWord s).map fun r => (r.1, relabel h q n r.2) := by
  simp only [pullWord, pull_relabel]
  rcases hp : pull s with e | ⟨lo, t⟩
  · rfl
  · simp only [Except.map, pull_relabel]
    rcases hp2 : pull t with e | ⟨lo, t⟩ <;> rfl
theorem enterHandler_relabel (s : State) (ret st st' vec) (hst : st' = st)
    (hI : ∀ p, setFlag .I true (h p) = h (setFlag .I true p)) :
    enterHandler ret st' vec (relabel h q n s) = (enterHandler ret st vec s).map (relabel h q n) := by
  subst hst
  simp only [enterHandler, pushWord_relabel]
  rcases pushWord ret s with e | t
  · rfl
  · simp only [Except.map, push_relabel]
    rcases push st' t with e | t
    · rfl
    · simp only [readPair_relabel]
      rcases readPair t vec (vec+1) with e | w
      · rfl
      · simp only [setPc, setStatus, relabel, hI]
theorem returnFromHandler_relabel (s : State) (hP : ∀ v p, pulledStatus v (h p) = h (pulledStatus v p)) :
    returnFromHandler (relabel h q n s) = (returnFromHandler s).map (relabel h q n) := by
  simp only [returnFromHandler, pull_relabel]
  rcases pull s with e | ⟨v, t⟩
  · rfl
  · simp only [Except.map, pullWord_relabel]
    rcases pullWord t with e | ⟨w, u⟩
    · rfl
    · simp only [setPc, setStatus, relabel, hP]

/-- The computations inside a shape commute with the change. -/
def View.Commutes : View → Prop
  | .regs f => ∀ s, f (relabel h q n s) = relabel h q n (f s)
  | .flag f v => ∀ p, setFlag f v (h p) = h (setFlag f v p)
  | .branch f _ _ => ∀ p, getFlag (h p) f = getFlag p f
  | .modifyA f => ∀ b p, f b (h p) = ⟨(f b p).value, h (f b p).status⟩
  | .modify _ f => ∀ b p, f b (h p) = ⟨(f b p).value, h (f b p).status⟩
  | .read _ f => ∀ v s, f v (relabel h q n s) = relabel h q n (f v s)
  | .push v => ∀ s, v (relabel h q n s) = v s
  | .store _ v => ∀ s, v (relabel h q n s) = v s
  | .pullP => ∀ v p, pulledStatus v (h p) = h (pulledStatus v p)
  | .rti => ∀ v p, pulledStatus v (h p) = h (pulledStatus v p)
  | .brk => (∀ p, pushedByProgram (h p) = pushedByProgram p) ∧ ∀ p, setFlag .I true (h p) = h (setFlag .I true p)
  | .pullA => ∀ v p, setZN v (h p) = h (setZN v p)
  | _ => True

/-- A change that commutes with an instruction's computations commutes with the instruction. -/
theorem op_relabel (v : View) (hv : v.Commutes h q n) (s : State) : v.op (relabel h q n s) = (v.op s).map (relabel h q n) := by
  cases v with
  | regs f => simp only [View.op, hv s]; rfl
  | flag f v => simp only [View.op, Except.map, setStatus, relabel, hv s.p]
  | branch f want d =>
    have := hv s.p
    simp only [View.op, show (relabel h q n s).p = h s.p from rfl, this]
    cases (if want then getFlag s.p f else !getFlag s.p f) <;> rfl
  | modifyA f =>
    have := hv s.a s.p
    simp only [View.op, show (relabel h q n s).p = h s.p from rfl, show (relabel h q n s).a = s.a from rfl, this]; rfl
  | read m f =>
    simp only [View.op, load_relabel]
    cases load m s with
    | error e => rfl
    | ok v => simp only [Except.map, hv v s]
  | store m v => simp only [View.op, hv s, store_relabel]
  | modify m f =>
    simp only [View.op, modifyTarget, effAddr_relabel, memRead_relabel]
    cases effAddr m s with
    | error e => rfl
    | ok ea =>
      simp only
      cases memRead s ea with
      | error e => rfl
      | ok b =>
        have := hv b s.p
        simp only [show (relabel h q n s).p = h s.p from rfl, this, memWrite_relabel]
        cases memWrite s ea (f b s.p).value <;> rfl
  | jumpInd w =>
    simp only [View.op, jumpIndirect, indirectTarget, readPair_relabel, show (relabel h q n s).cfg = s.cfg from rfl]
    cases readPair s w (pointerHigh s.cfg.jmpIndPageWrap w) <;> rfl
  | push v => simp only [View.op, hv s, push_relabel]
  | pullA =>
    simp only [View.op, pullA, pull_relabel]
    rcases pull s with e | ⟨v, t⟩
    · rfl
    · simp only [Except.map, writeA, relabel, hv v]
  | pullP =>
    simp only [View.op, pullP, pull_relabel]
    rcases pull s with e | ⟨v, t⟩
    · rfl
    · simp only [Except.map, setStatus, relabel, hv v]
  | call w =>
    simp only [View.op, callTo, pushWord_relabel, show (relabel h q n s).cfg = s.cfg from rfl, show (relabel h q n s).pc = s.pc from rfl]
    cases pushWord (returnAddress s.cfg.jsrReturn s.pc) s <;> rfl
  | ret =>
    simp only [View.op, returnFromCall, pullWord_relabel, show (relabel h q n s).cfg = s.cfg from rfl]
    rcases pullWord s with e | ⟨v, t⟩ <;> rfl
  | brk => exact enterHandler_relabel h q n s _ _ _ _ (hv.1 s.p) hv.2
  | rti => exact returnFromHandler_relabel h q n s hv

theorem exec_relabel (i : Instr) (hv : (view i).Commutes h q n) (s : State) :
    exec i (relabel h q n s) = mapNext (relabel h q n) (exec i s) := by
  rw [exec_eq_conclude, exec_eq_conclude, op_relabel h q n _ hv, show opcodeAt i (relabel h q n s) = opcodeAt i s from rfl]
  cases (view i).op s <;> rfl

theorem fetchByte_relabel (s : State) (a) : fetchByte (relabel h q n s) a = fetchByte s a := rfl
theorem fetch_relabel (s : State) : fetch (relabel h q n s) = (fetch s).map fun r => (r.1, relabel h q n r.2) := by
  simp only [fetch, fetchByte_relabel, show (relabel h q n s).pc = s.pc from rfl]
  rcases fetchByte s s.pc with e | op
  · rfl
  · simp only
    rcases rowOf op with _ | row
    · rfl
    · simp only
      rcases row.shape with i | f | f
      · rfl
      · simp only
        rcases fetchByte s (s.pc+1) with e | b <;> rfl
      · simp only
        rcases fetchByte s (s.pc+1) with e | b
        · rfl
        · simp only
          rcases fetchByte s (s.pc+2) with e | b <;> rfl

theorem step_relabel (hv : ∀ i, (view i).Commutes h q n)
    (ht : ∀ s, takeInterrupt (relabel h q n s) = (takeInterrupt s).map (relabel h q n)) (s : State) :
    step (relabel h q n s) = mapNext (relabel h q n) (step s) := by
  simp only [step, show (relabel h q n s).faulted = s.faulted from rfl, ht]
  cases s.faulted
  · simp only [Bool.false_eq_true, if_false]
    rcases takeInterrupt s with e | t
    · rfl
    · simp only [Except.map, fetch_relabel]
      rcases fetch t with e | ⟨i, u⟩
      · rfl
      · simp only
        exact exec_relabel h q n i (hv i) u
  · rfl

end Sys2Proof.Machine
end

