-- ==== Sys2Proof/Tests/Slice0.lean ====
section
/-! SUPPORT. The model's own tests: the checks of WellFormed refuse, written-out words decode, the vectors of
spec/95_test_vectors.md hold (each cited by its number), and a witness for the hypotheses of every statement that has some. -/
namespace Sys2Proof.Tests
open Sys2Proof Sys2Proof.Machine

/-! Helpers. -/

/-- The next state of an outcome. -/
def nextOf (o : Host.Outcome State Fault Refusal) : Option State := match o with
  | .next t => some t
  | .fault _ => none
  | .refused _ => none

/-- The fault of an outcome. -/
def faultOf (o : Host.Outcome State Fault Refusal) : Option Fault := match o with
  | .next _ => none
  | .fault f => some f
  | .refused _ => none

/-- The baseline of spec/95_test_vectors.md section 1 on a memory, PC at `pc`. -/
def onMemory (pc : Word) (m : Memory) : State := { State.reset with pc := pc, p := 0x20, mem := m }

/-- Code at `pc` and data bytes loaded into a memory. -/
def loaded (m : Memory) (pc : Word) (code : List Byte) (data : List Host.Cell) : Memory :=
  data.foldl (fun m c => m.put c.1 c.2) (m.load pc code)

/-- Code at `pc` in a flat store of 65536 bytes. -/
def machineAt (pc : Word) (code : List Byte) (data : List Host.Cell) : State :=
  onMemory pc (loaded Memory.blank pc code data)

/-- Code at $0600. -/
def machine (code : List Byte) (data : List Host.Cell) : State := machineAt 0x0600 code data

/-- A flat store of `n` bytes. -/
def ofSize (n : Nat) (code : List Byte) (data : List Host.Cell) : State :=
  onMemory 0x0600 (loaded { stores := [⟨.flat, n, []⟩], base := some 0, overrides := [] } 0x0600 code data)

/-- The address `a` answered by a read-only store, every other by a flat store. -/
def readOnlyAt (a : Nat) (code : List Byte) (data : List Host.Cell) : State :=
  onMemory 0x0600 (loaded { stores := [⟨.flat, 65536, []⟩, ⟨.readOnly, 65536, []⟩], base := some 0, overrides := [(a, 1)] }
    0x0600 code data)

/-- No store answers any address but the listed ones. -/
def onlyAt (l : List Nat) (data : List Host.Cell) : State :=
  onMemory 0x0600 (loaded { stores := [⟨.flat, 65536, []⟩], base := none, overrides := l.map fun a => (a, 0) } 0x0600 [] data)

/-- What a test looks at: A, X, Y, S, PC, P, and some bytes of memory. -/
structure Seen where
  a     : Byte
  x     : Byte
  y     : Byte
  sp    : Byte
  pc    : Word
  p     : Byte
  bytes : List Byte
deriving DecidableEq, Repr

/-- The registers and the bytes at the listed addresses after one step. -/
def after (s : State) (l : List Word) : Option Seen :=
  (nextOf (step s)).map fun t => ⟨t.a, t.x, t.y, t.sp, t.pc, t.p, l.filterMap fun a => t.mem.read a.toNat⟩

/-! WellFormed refuses each kind of ill-formed term, and accepts the good ones. -/

/-- S4 and R103: STA has no Immediate form. -/
theorem test_wf_refuses_undeclared_pair : (SymInstr.wf ⟨.STA, .IMM, 0⟩, SymInstr.pairLegal ⟨.STA, .IMM, 0⟩) = (false, false) := by
  decide

/-- R102: an operand byte is not negative. -/
theorem test_wf_refuses_operand_below : (SymInstr.wf ⟨.LDA, .IMM, -1⟩, SymInstr.operandAtLeast ⟨.LDA, .IMM, -1⟩) = (false, false) := by
  decide

/-- R102: an operand byte is at most 255. -/
theorem test_wf_refuses_operand_above : (SymInstr.wf ⟨.LDA, .IMM, 256⟩, SymInstr.operandAtMost ⟨.LDA, .IMM, 256⟩) = (false, false) := by
  decide

/-- R110: a displacement lies in [-128,127]. -/
theorem test_wf_displacement_range :
    ([-129, -128, 127, 128].map fun v => SymInstr.wf ⟨.BNE, .REL, v⟩) = [false, true, true, false] := by decide

/-- R101: an Implied instruction has no operand; an address has 16 bits. -/
theorem test_wf_operand_sizes :
    (SymInstr.wf ⟨.NOP, .IMP, 1⟩, SymInstr.wf ⟨.JMP, .IND, 65535⟩, SymInstr.wf ⟨.JMP, .IND, 65536⟩) = (false, true, false) := by
  decide

/-- Every constructor carries a declared pair and operands in range; two samples. -/
theorem test_instr_wf : ((Instr.bcc 0x80).wf, (Instr.jmpInd 0xFFFF).wf) = (true, true) := by decide

/-! Decoding, by words written out from R104's map; one or more for each family and each operand form. -/

/-- What decoding gives, with the rest of the bytes. -/
def decoded (bs : List Byte) : Option (Instr × List Byte) := (decode bs).toOption

theorem test_decode_arithmetic :
    (decoded [0x69, 0x01], decoded [0x7D, 0xF0, 0x12], decoded [0xF1, 0x10])
      = (some (.adcImm 0x01, []), some (.adcAbsx 0x12F0, []), some (.sbcIndy 0x10, [])) := by decide

theorem test_decode_shifts :
    (decoded [0x0A], decoded [0x56, 0x10], decoded [0x2E, 0x00, 0x03], decoded [0x66, 0x10])
      = (some (.aslAcc, []), some (.lsrZpx 0x10, []), some (.rolAbs 0x0300, []), some (.rorZp 0x10, [])) := by decide

theorem test_decode_logic :
    (decoded [0x21, 0xFF], decoded [0x1D, 0x34, 0x12], decoded [0x59, 0x34, 0x12], decoded [0x24, 0x20])
      = (some (.andIndx 0xFF, []), some (.oraAbsx 0x1234, []), some (.eorAbsy 0x1234, []), some (.bitZp 0x20, [])) := by decide

theorem test_decode_compares :
    (decoded [0xD1, 0x10], decoded [0xE0, 0x05], decoded [0xCC, 0x00, 0x02])
      = (some (.cmpIndy 0x10, []), some (.cpxImm 0x05, []), some (.cpyAbs 0x0200, [])) := by decide

theorem test_decode_increments :
    (decoded [0xF6, 0x10], decoded [0xCE, 0x00, 0x03], decoded [0xE8], decoded [0x88])
      = (some (.incZpx 0x10, []), some (.decAbs 0x0300, []), some (.inx, []), some (.dey, [])) := by decide

theorem test_decode_control :
    (decoded [0x90, 0xFE], decoded [0x4C, 0x34, 0x12], decoded [0x6C, 0xFF, 0x30], decoded [0x20, 0x34, 0x12])
      = (some (.bcc 0xFE, []), some (.jmpAbs 0x1234, []), some (.jmpInd 0x30FF, []), some (.jsr 0x1234, [])) := by decide

theorem test_decode_stack :
    (decoded [0x48], decoded [0x28], decoded [0x60]) = (some (.pha, []), some (.plp, []), some (.rts, [])) ∧
    (decoded [0x00, 0xEA], decoded [0x40]) = (some (.brk, [0xEA]), some (.rti, [])) := by decide

theorem test_decode_flags : (decoded [0x18], decoded [0xB8], decoded [0xEA]) = (some (.clc, []), some (.clv, []), some (.nop, [])) := by
  decide

theorem test_decode_loads :
    (decoded [0xA9, 0xAA], decoded [0xB6, 0x10], decoded [0xBC, 0x00, 0x02])
      = (some (.ldaImm 0xAA, []), some (.ldxZpy 0x10, []), some (.ldyAbsx 0x0200, [])) ∧
    (decoded [0x81, 0x40], decoded [0x9A]) = (some (.staIndx 0x40, []), some (.txs, [])) := by decide

/-- Every listed byte sequence decodes to the instruction beside it. -/
def decodeEach (l : List (List Byte × Instr)) : Bool := l.all fun c => decoded c.1 == some (c.2, [])

/-! Every constructor: the bytes are R104's table by mnemonic, with operand bytes $F1 and $12. -/

theorem test_decode_every_arithmetic_and_shift :
    decodeEach ([([0x69, 0xF1], .adcImm 0xF1), ([0x65, 0xF1], .adcZp 0xF1), ([0x75, 0xF1], .adcZpx 0xF1),
      ([0x6D, 0xF1, 0x12], .adcAbs 0x12F1), ([0x7D, 0xF1, 0x12], .adcAbsx 0x12F1),
      ([0x79, 0xF1, 0x12], .adcAbsy 0x12F1), ([0x61, 0xF1], .adcIndx 0xF1), ([0x71, 0xF1], .adcIndy 0xF1),
      ([0xE9, 0xF1], .sbcImm 0xF1), ([0xE5, 0xF1], .sbcZp 0xF1), ([0xF5, 0xF1], .sbcZpx 0xF1),
      ([0xED, 0xF1, 0x12], .sbcAbs 0x12F1), ([0xFD, 0xF1, 0x12], .sbcAbsx 0x12F1),
      ([0xF9, 0xF1, 0x12], .sbcAbsy 0x12F1), ([0xE1, 0xF1], .sbcIndx 0xF1), ([0xF1, 0xF1], .sbcIndy 0xF1),
      ([0x0A], .aslAcc), ([0x06, 0xF1], .aslZp 0xF1), ([0x16, 0xF1], .aslZpx 0xF1),
      ([0x0E, 0xF1, 0x12], .aslAbs 0x12F1), ([0x1E, 0xF1, 0x12], .aslAbsx 0x12F1), ([0x4A], .lsrAcc),
      ([0x46, 0xF1], .lsrZp 0xF1), ([0x56, 0xF1], .lsrZpx 0xF1)] ++
     [([0x4E, 0xF1, 0x12], .lsrAbs 0x12F1), ([0x5E, 0xF1, 0x12], .lsrAbsx 0x12F1), ([0x2A], .rolAcc),
      ([0x26, 0xF1], .rolZp 0xF1), ([0x36, 0xF1], .rolZpx 0xF1), ([0x2E, 0xF1, 0x12], .rolAbs 0x12F1),
      ([0x3E, 0xF1, 0x12], .rolAbsx 0x12F1), ([0x6A], .rorAcc), ([0x66, 0xF1], .rorZp 0xF1),
      ([0x76, 0xF1], .rorZpx 0xF1), ([0x6E, 0xF1, 0x12], .rorAbs 0x12F1), ([0x7E, 0xF1, 0x12], .rorAbsx 0x12F1)]) = true := by decide +kernel

theorem test_decode_every_logic_and_compare :
    decodeEach ([([0x29, 0xF1], .andImm 0xF1), ([0x25, 0xF1], .andZp 0xF1), ([0x35, 0xF1], .andZpx 0xF1),
      ([0x2D, 0xF1, 0x12], .andAbs 0x12F1), ([0x3D, 0xF1, 0x12], .andAbsx 0x12F1),
      ([0x39, 0xF1, 0x12], .andAbsy 0x12F1), ([0x21, 0xF1], .andIndx 0xF1), ([0x31, 0xF1], .andIndy 0xF1),
      ([0x09, 0xF1], .oraImm 0xF1), ([0x05, 0xF1], .oraZp 0xF1), ([0x15, 0xF1], .oraZpx 0xF1),
      ([0x0D, 0xF1, 0x12], .oraAbs 0x12F1), ([0x1D, 0xF1, 0x12], .oraAbsx 0x12F1),
      ([0x19, 0xF1, 0x12], .oraAbsy 0x12F1), ([0x01, 0xF1], .oraIndx 0xF1), ([0x11, 0xF1], .oraIndy 0xF1),
      ([0x49, 0xF1], .eorImm 0xF1), ([0x45, 0xF1], .eorZp 0xF1), ([0x55, 0xF1], .eorZpx 0xF1),
      ([0x4D, 0xF1, 0x12], .eorAbs 0x12F1), ([0x5D, 0xF1, 0x12], .eorAbsx 0x12F1),
      ([0x59, 0xF1, 0x12], .eorAbsy 0x12F1), ([0x41, 0xF1], .eorIndx 0xF1), ([0x51, 0xF1], .eorIndy 0xF1)] ++
     [([0x24, 0xF1], .bitZp 0xF1), ([0x2C, 0xF1, 0x12], .bitAbs 0x12F1), ([0xC9, 0xF1], .cmpImm 0xF1),
      ([0xC5, 0xF1], .cmpZp 0xF1), ([0xD5, 0xF1], .cmpZpx 0xF1), ([0xCD, 0xF1, 0x12], .cmpAbs 0x12F1),
      ([0xDD, 0xF1, 0x12], .cmpAbsx 0x12F1), ([0xD9, 0xF1, 0x12], .cmpAbsy 0x12F1), ([0xC1, 0xF1], .cmpIndx 0xF1),
      ([0xD1, 0xF1], .cmpIndy 0xF1), ([0xE0, 0xF1], .cpxImm 0xF1), ([0xE4, 0xF1], .cpxZp 0xF1),
      ([0xEC, 0xF1, 0x12], .cpxAbs 0x12F1), ([0xC0, 0xF1], .cpyImm 0xF1), ([0xC4, 0xF1], .cpyZp 0xF1),
      ([0xCC, 0xF1, 0x12], .cpyAbs 0x12F1)]) = true := by decide +kernel

theorem test_decode_every_increment_and_control :
    decodeEach ([([0xE6, 0xF1], .incZp 0xF1), ([0xF6, 0xF1], .incZpx 0xF1), ([0xEE, 0xF1, 0x12], .incAbs 0x12F1),
      ([0xFE, 0xF1, 0x12], .incAbsx 0x12F1), ([0xC6, 0xF1], .decZp 0xF1), ([0xD6, 0xF1], .decZpx 0xF1),
      ([0xCE, 0xF1, 0x12], .decAbs 0x12F1), ([0xDE, 0xF1, 0x12], .decAbsx 0x12F1), ([0xE8], .inx), ([0xC8], .iny),
      ([0xCA], .dex), ([0x88], .dey), ([0x90, 0xF1], .bcc 0xF1), ([0xB0, 0xF1], .bcs 0xF1),
      ([0xF0, 0xF1], .beq 0xF1), ([0xD0, 0xF1], .bne 0xF1), ([0x30, 0xF1], .bmi 0xF1), ([0x10, 0xF1], .bpl 0xF1),
      ([0x50, 0xF1], .bvc 0xF1), ([0x70, 0xF1], .bvs 0xF1), ([0x4C, 0xF1, 0x12], .jmpAbs 0x12F1),
      ([0x6C, 0xF1, 0x12], .jmpInd 0x12F1)]) = true := by decide +kernel

theorem test_decode_every_stack_and_flag :
    decodeEach ([([0x48], .pha), ([0x68], .pla), ([0x08], .php), ([0x28], .plp), ([0x20, 0xF1, 0x12], .jsr 0x12F1),
      ([0x60], .rts), ([0x00], .brk), ([0x40], .rti), ([0x18], .clc), ([0x38], .sec), ([0x58], .cli), ([0x78], .sei),
      ([0xD8], .cld), ([0xF8], .sed), ([0xB8], .clv), ([0xEA], .nop)]) = true := by decide +kernel

theorem test_decode_every_load_store_transfer :
    decodeEach ([([0xA9, 0xF1], .ldaImm 0xF1), ([0xA5, 0xF1], .ldaZp 0xF1), ([0xB5, 0xF1], .ldaZpx 0xF1),
      ([0xAD, 0xF1, 0x12], .ldaAbs 0x12F1), ([0xBD, 0xF1, 0x12], .ldaAbsx 0x12F1),
      ([0xB9, 0xF1, 0x12], .ldaAbsy 0x12F1), ([0xA1, 0xF1], .ldaIndx 0xF1), ([0xB1, 0xF1], .ldaIndy 0xF1),
      ([0xA2, 0xF1], .ldxImm 0xF1), ([0xA6, 0xF1], .ldxZp 0xF1), ([0xB6, 0xF1], .ldxZpy 0xF1),
      ([0xAE, 0xF1, 0x12], .ldxAbs 0x12F1), ([0xBE, 0xF1, 0x12], .ldxAbsy 0x12F1), ([0xA0, 0xF1], .ldyImm 0xF1),
      ([0xA4, 0xF1], .ldyZp 0xF1), ([0xB4, 0xF1], .ldyZpx 0xF1), ([0xAC, 0xF1, 0x12], .ldyAbs 0x12F1),
      ([0xBC, 0xF1, 0x12], .ldyAbsx 0x12F1), ([0x85, 0xF1], .staZp 0xF1), ([0x95, 0xF1], .staZpx 0xF1),
      ([0x8D, 0xF1, 0x12], .staAbs 0x12F1), ([0x9D, 0xF1, 0x12], .staAbsx 0x12F1),
      ([0x99, 0xF1, 0x12], .staAbsy 0x12F1), ([0x81, 0xF1], .staIndx 0xF1)] ++
     [([0x91, 0xF1], .staIndy 0xF1), ([0x86, 0xF1], .stxZp 0xF1), ([0x96, 0xF1], .stxZpy 0xF1),
      ([0x8E, 0xF1, 0x12], .stxAbs 0x12F1), ([0x84, 0xF1], .styZp 0xF1), ([0x94, 0xF1], .styZpx 0xF1),
      ([0x8C, 0xF1, 0x12], .styAbs 0x12F1), ([0xAA], .tax), ([0xA8], .tay), ([0x8A], .txa), ([0x98], .tya),
      ([0xBA], .tsx), ([0x9A], .txs)]) = true := by decide +kernel

/-- R105, R106: an unassigned byte is rejected with the byte, whatever follows; missing operand bytes are no instruction. -/
theorem test_decode_rejects :
    ((match decode [0x02, 0xA9, 0x00] with | .error e => some e | .ok _ => none) = some (.unknownOpcode 0x02)) ∧
    ((match decode [0xAD, 0x00] with | .error e => some e | .ok _ => none) = some (.truncated 0xAD)) ∧
    ((match decode [] with | .error e => some e | .ok _ => none) = some .empty) := by decide

/-- R103: 151 entries, every byte value once, every pair once. -/
theorem test_catalog_entries : catalog.length = 151 ∧ (catalog.map Row.opcode).Nodup
    ∧ (catalog.map fun r => (r.mnemonic, r.mode)).Nodup := by
  refine ⟨rfl, ?_, ?_⟩ <;> decide +kernel

/-- R103 invariant 3: WellFormed's modes and the catalog's rows are the same pairs. -/
theorem test_catalog_modes :
    (catalog.all fun r => r.mnemonic.modes.contains r.mode) = true ∧
    ((catalog.map fun r => r.mnemonic).dedup.all fun m =>
      m.modes.length == (catalog.filter fun r => r.mnemonic == m).length) = true := by
  constructor <;> decide +kernel

/-- The host's numbering: bit 0 is the least significant bit of the first byte; missing operand bytes are zeros. -/
theorem test_decodeTableWord :
    (decodeTableWord 8 0xEA, decodeTableWord 16 0xAAA9, decodeTableWord 24 0x12346C, decodeTableWord 8 0x4C, decodeTableWord 8 0x02)
      = (some .nop, some (.ldaImm 0xAA), some (.jmpInd 0x1234), some (.jmpAbs 0x0000), none) := by decide

/-- The instruction that withFetchWord places is the one the next step after reset runs. -/
theorem test_withFetchWord :
    (nextOf (step (State.reset.withFetchWord 24 0x12344C))).map (fun t => t.pc) = some 0x1234 ∧
    (nextOf (step (State.reset.withFetchWord 16 0xAAA9))).map (fun t => (t.a, t.p, t.pc)) = some (0xAA, 0xB4, 0x0002) := by decide

/-! The catalog's lookups and descriptions (R107 to R110). -/

theorem test_catalog_by_name :
    ((fromNameMode "ADC" .IMM).toOption.map fun r => r.opcode) = some 0x69 ∧
    ((fromName "TXS").toOption.map fun r => r.opcode) = some 0x9A ∧ ((fromName "ASL").toOption.map fun r => r.opcode) = none := by
  decide

/-- S5. -/
theorem test_catalog_indexing :
    ((xIndexed .ZP).toOption, (yIndexed .ABS).toOption, (xIndexed .IND).toOption, (xIndexed .IMM).toOption, (yIndexed .ZPX).toOption)
      = (some .ZPX, some .ABSY, some .INDX, none, none) := by decide

/-- S4 and R109. -/
theorem test_catalog_descriptions :
    description .ADC .IMM = "ADC (Immediate)" ∧ description .LDA .ZPX = "LDA (Zero Page) [X]" ∧
    description .ADC .INDX = "ADC (Indirect) [X]" ∧ description .BCC .REL = "BCC (Relative)" := by decide

/-- R110 with the examples of R221, R224 and R226. -/
theorem test_branch_operands :
    (branchOperand 0x0600 0x0610, branchOperand 0x0600 0x0600, branchOperand 0x0600 0x0582, branchOperand 0x0600 0x0682)
      = (some 0x0E, some 0xFE, some 0x80, none) := by decide

/-- S2: the signed constructor. -/
theorem test_signed_constructor : (signedByte (-128), signedByte 127, signedByte 128, signedByte (-129)) = (some 0x80, some 0x7F, none, none) := by
  decide

/-- S3: bit operations. -/
theorem test_bit_operations :
    (withBit 0x00 7, withoutBit 0xFF 0, withBit 0x00 8, isBitSet 0x80 7, isBitSet 0x80 8) = (some 0x80, some 0xFE, none, some true, none) := by
  decide

/-! The vectors of spec/95_test_vectors.md. -/

/-- V41.2: ADC #$01. -/
theorem test_adc_signed_overflow :
    after { machine [0x69, 0x01] [] with a := 0x7F } []
    = some ⟨0x80, 0x00, 0x00, 0xFF, 0x0602, 0xE0, []⟩ := by decide

/-- V41.6: ADC #$50. -/
theorem test_adc_ignores_decimal :
    after { machine [0x69, 0x50] [] with a := 0x50, p := 0x29 } []
    = some ⟨0xA1, 0x00, 0x00, 0xFF, 0x0602, 0xE8, []⟩ := by decide

/-- V41.8: ADC ($10),Y. -/
theorem test_adc_indirect_y_crosses_page :
    after { machine [0x71, 0x10] [(0x0010, 0xF8), (0x0011, 0x12), (0x1308, 0x05)] with a := 0x01, y := 0x10 } []
    = some ⟨0x06, 0x00, 0x10, 0xFF, 0x0602, 0x20, []⟩ := by decide

/-- V41.11: SBC #$01. -/
theorem test_sbc_signed_overflow :
    after { machine [0xE9, 0x01] [] with a := 0x80, p := 0x21 } []
    = some ⟨0x7F, 0x00, 0x00, 0xFF, 0x0602, 0x61, []⟩ := by decide

/-- V41.13: SBC #$05. -/
theorem test_sbc_borrow_in :
    after { machine [0xE9, 0x05] [] with a := 0x05 } []
    = some ⟨0xFF, 0x00, 0x00, 0xFF, 0x0602, 0xA0, []⟩ := by decide

/-- V41.15: SBC $2000,X. -/
theorem test_sbc_absolute_x :
    after { machine [0xFD, 0x00, 0x20] [(0x2005, 0xB0)] with a := 0x50, x := 0x05, p := 0x21 } []
    = some ⟨0xA0, 0x05, 0x00, 0xFF, 0x0603, 0xE0, []⟩ := by decide

/-- V42.1: ASL A. -/
theorem test_asl_accumulator :
    after { machine [0x0A] [] with a := 0xC1 } []
    = some ⟨0x82, 0x00, 0x00, 0xFF, 0x0601, 0xA1, []⟩ := by decide

/-- V42.3: ASL $10. -/
theorem test_asl_zero_page :
    after (machine [0x06, 0x10] [(0x0010, 0x40)]) [0x0010]
    = some ⟨0x00, 0x00, 0x00, 0xFF, 0x0602, 0xA0, [0x80]⟩ := by decide

/-- V42.5: LSR A. -/
theorem test_lsr_clears_negative :
    after { machine [0x4A] [] with a := 0x01, p := 0xA0 } []
    = some ⟨0x00, 0x00, 0x00, 0xFF, 0x0601, 0x23, []⟩ := by decide

/-- V42.6: LSR $0300,X. -/
theorem test_lsr_absolute_x :
    after { machine [0x5E, 0x00, 0x03] [(0x0301, 0x80)] with x := 0x01 } [0x0301]
    = some ⟨0x00, 0x01, 0x00, 0xFF, 0x0603, 0x20, [0x40]⟩ := by decide

/-- V42.7: ROL A. -/
theorem test_rol_carry_in :
    after { machine [0x2A] [] with a := 0x40, p := 0x21 } []
    = some ⟨0x81, 0x00, 0x00, 0xFF, 0x0601, 0xA0, []⟩ := by decide

/-- V42.8: ROL A. -/
theorem test_rol_carry_out :
    after { machine [0x2A] [] with a := 0x80 } []
    = some ⟨0x00, 0x00, 0x00, 0xFF, 0x0601, 0x23, []⟩ := by decide

/-- V42.9: ROR $10. -/
theorem test_ror_zero_page :
    after { machine [0x66, 0x10] [(0x0010, 0x02)] with p := 0x21 } [0x0010]
    = some ⟨0x00, 0x00, 0x00, 0xFF, 0x0602, 0xA0, [0x81]⟩ := by decide

/-- V42.10: ROR A. -/
theorem test_ror_to_zero :
    after { machine [0x6A] [] with a := 0x01 } []
    = some ⟨0x00, 0x00, 0x00, 0xFF, 0x0601, 0x23, []⟩ := by decide

/-- V42.11: ASL $8000. -/
theorem test_asl_read_only_faults :
    faultOf (step (readOnlyAt 0x8000 [0x0E, 0x00, 0x80] [(0x8000, 0x01)])) = some (.memoryFault 0x8000 .write 0x0600) := by decide

/-- V43.2: AND #$0F. -/
theorem test_and_keeps_carry :
    after { machine [0x29, 0x0F] [] with a := 0xF0, p := 0x21 } []
    = some ⟨0x00, 0x00, 0x00, 0xFF, 0x0602, 0x23, []⟩ := by decide

/-- V43.3: ORA #$80. -/
theorem test_ora_negative :
    after { machine [0x09, 0x80] [] with a := 0x01 } []
    = some ⟨0x81, 0x00, 0x00, 0xFF, 0x0602, 0xA0, []⟩ := by decide

/-- V43.5: EOR #$FF. -/
theorem test_eor_keeps_carry_and_overflow :
    after { machine [0x49, 0xFF] [] with a := 0xFF, p := 0x61 } []
    = some ⟨0x00, 0x00, 0x00, 0xFF, 0x0602, 0x63, []⟩ := by decide

/-- V43.6: ORA ($20,X). -/
theorem test_ora_indirect_x :
    after { machine [0x01, 0x20] [(0x0024, 0x00), (0x0025, 0x04), (0x0400, 0x10)] with a := 0x01, x := 0x04 } []
    = some ⟨0x11, 0x04, 0x00, 0xFF, 0x0602, 0x20, []⟩ := by decide

/-- V43.7: AND ($FF,X). -/
theorem test_and_pointer_wraps :
    after { machine [0x21, 0xFF] [(0x0000, 0x05), (0x00FF, 0x00), (0x0500, 0x81)] with a := 0xFF, x := 0x00 } []
    = some ⟨0x81, 0x00, 0x00, 0xFF, 0x0602, 0xA0, []⟩ := by decide

/-- V43.9: BIT $1234. -/
theorem test_bit_flags_from_operand :
    after { machine [0x2C, 0x34, 0x12] [(0x1234, 0xC0)] with a := 0x00 } []
    = some ⟨0x00, 0x00, 0x00, 0xFF, 0x0603, 0xE2, []⟩ := by decide

/-- V43.10: BIT $20. -/
theorem test_bit_clears_overflow :
    after { machine [0x24, 0x20] [(0x0020, 0x80)] with a := 0x80, p := 0xE0 } []
    = some ⟨0x80, 0x00, 0x00, 0xFF, 0x0602, 0xA0, []⟩ := by decide

/-- V44.4: CMP #$01. -/
theorem test_cmp_keeps_overflow :
    after { machine [0xC9, 0x01] [] with a := 0x80, p := 0x60 } []
    = some ⟨0x80, 0x00, 0x00, 0xFF, 0x0602, 0x61, []⟩ := by decide

/-- V44.5: CMP #$FF. -/
theorem test_cmp_is_unsigned :
    after { machine [0xC9, 0xFF] [] with a := 0x00 } []
    = some ⟨0x00, 0x00, 0x00, 0xFF, 0x0602, 0x20, []⟩ := by decide

/-- V44.6: CPX #$05. -/
theorem test_cpx_equal :
    after { machine [0xE0, 0x05] [] with x := 0x05 } []
    = some ⟨0x00, 0x05, 0x00, 0xFF, 0x0602, 0x23, []⟩ := by decide

/-- V44.7: CPX $10. -/
theorem test_cpx_zero_page :
    after { machine [0xE4, 0x10] [(0x0010, 0x00)] with x := 0xFF } []
    = some ⟨0x00, 0xFF, 0x00, 0xFF, 0x0602, 0xA1, []⟩ := by decide

/-- V44.8: CPY #$03. -/
theorem test_cpy_below :
    after { machine [0xC0, 0x03] [] with y := 0x02 } []
    = some ⟨0x00, 0x00, 0x02, 0xFF, 0x0602, 0xA0, []⟩ := by decide

/-- V44.9: CPY $0200. -/
theorem test_cpy_absolute :
    after { machine [0xCC, 0x00, 0x02] [(0x0200, 0x10)] with y := 0x90 } []
    = some ⟨0x00, 0x00, 0x90, 0xFF, 0x0603, 0xA1, []⟩ := by decide

/-- V45.1: INC $0200. -/
theorem test_inc_wraps :
    after { machine [0xEE, 0x00, 0x02] [(0x0200, 0xFF)] with p := 0x21 } [0x0200]
    = some ⟨0x00, 0x00, 0x00, 0xFF, 0x0603, 0x23, [0x00]⟩ := by decide

/-- V45.2: INC $10,X. -/
theorem test_inc_zero_page_wraps :
    after { machine [0xF6, 0x10] [(0x0005, 0x7F)] with x := 0xF5 } [0x0005]
    = some ⟨0x00, 0xF5, 0x00, 0xFF, 0x0602, 0xA0, [0x80]⟩ := by decide

/-- V45.3: DEC $10. -/
theorem test_dec_to_zero :
    after (machine [0xC6, 0x10] [(0x0010, 0x01)]) [0x0010]
    = some ⟨0x00, 0x00, 0x00, 0xFF, 0x0602, 0x22, [0x00]⟩ := by decide

/-- V45.4: DEC $0300. -/
theorem test_dec_wraps :
    after (machine [0xCE, 0x00, 0x03] [(0x0300, 0x00)]) [0x0300]
    = some ⟨0x00, 0x00, 0x00, 0xFF, 0x0603, 0xA0, [0xFF]⟩ := by decide

/-- V45.6: INX. -/
theorem test_inx_wraps :
    after { machine [0xE8] [] with x := 0xFF } []
    = some ⟨0x00, 0x00, 0x00, 0xFF, 0x0601, 0x22, []⟩ := by decide

/-- V45.7: INY. -/
theorem test_iny_wraps :
    after { machine [0xC8] [] with y := 0xFF } []
    = some ⟨0x00, 0x00, 0x00, 0xFF, 0x0601, 0x22, []⟩ := by decide

/-- V45.9: DEX. -/
theorem test_dex_wraps :
    after { machine [0xCA] [] with x := 0x00 } []
    = some ⟨0x00, 0xFF, 0x00, 0xFF, 0x0601, 0xA0, []⟩ := by decide

/-- V45.11: DEY. -/
theorem test_dey :
    after { machine [0x88] [] with y := 0x81 } []
    = some ⟨0x00, 0x00, 0x80, 0xFF, 0x0601, 0xA0, []⟩ := by decide

/-- V46.1: BCC $0610. -/
theorem test_bcc_taken :
    after (machine [0x90, 0x0E] []) []
    = some ⟨0x00, 0x00, 0x00, 0xFF, 0x0610, 0x20, []⟩ := by decide

/-- V46.2: BCC $0610. -/
theorem test_bcc_not_taken :
    after { machine [0x90, 0x0E] [] with p := 0x21 } []
    = some ⟨0x00, 0x00, 0x00, 0xFF, 0x0602, 0x21, []⟩ := by decide

/-- V46.3: BCS $0610. -/
theorem test_bcs :
    after { machine [0xB0, 0x0E] [] with p := 0x21 } []
    = some ⟨0x00, 0x00, 0x00, 0xFF, 0x0610, 0x21, []⟩ := by decide

/-- V46.4: BEQ $05F0. -/
theorem test_beq_backward :
    after { machine [0xF0, 0xEE] [] with p := 0x22 } []
    = some ⟨0x00, 0x00, 0x00, 0xFF, 0x05F0, 0x22, []⟩ := by decide

/-- V46.5: BNE $0600. -/
theorem test_bne_self :
    after (machine [0xD0, 0xFE] []) []
    = some ⟨0x00, 0x00, 0x00, 0xFF, 0x0600, 0x20, []⟩ := by decide

/-- V46.7: BMI $0681. -/
theorem test_bmi_farthest_forward :
    after { machine [0x30, 0x7F] [] with p := 0xA0 } []
    = some ⟨0x00, 0x00, 0x00, 0xFF, 0x0681, 0xA0, []⟩ := by decide

/-- V46.8: BPL $0582. -/
theorem test_bpl_farthest_back :
    after (machine [0x10, 0x80] []) []
    = some ⟨0x00, 0x00, 0x00, 0xFF, 0x0582, 0x20, []⟩ := by decide

/-- V46.9: BVC $0012. -/
theorem test_bvc_wraps_up :
    after (machineAt 0xFFF0 [0x50, 0x20] []) []
    = some ⟨0x00, 0x00, 0x00, 0xFF, 0x0012, 0x20, []⟩ := by decide

/-- V46.11: BVS $FFFF. -/
theorem test_bvs_wraps_down :
    after { machineAt 0x0001 [0x70, 0xFC] [] with p := 0x60 } []
    = some ⟨0x00, 0x00, 0x00, 0xFF, 0xFFFF, 0x60, []⟩ := by decide

/-- V46.12: JMP $1234. -/
theorem test_jmp_absolute :
    after (machine [0x4C, 0x34, 0x12] []) []
    = some ⟨0x00, 0x00, 0x00, 0xFF, 0x1234, 0x20, []⟩ := by decide

/-- V46.14: JMP ($30FF). -/
theorem test_jmp_indirect_page_wrap :
    after (machine [0x6C, 0xFF, 0x30] [(0x3000, 0x50), (0x30FF, 0x80), (0x3100, 0x40)]) []
    = some ⟨0x00, 0x00, 0x00, 0xFF, 0x5080, 0x20, []⟩ := by decide

/-- V46.15: JMP ($30FF). -/
theorem test_jmp_indirect_no_page_wrap :
    after { machine [0x6C, 0xFF, 0x30] [(0x3000, 0x50), (0x30FF, 0x80), (0x3100, 0x40)] with cfg := { jmpIndPageWrap := false } } []
    = some ⟨0x00, 0x00, 0x00, 0xFF, 0x4080, 0x20, []⟩ := by decide

/-- V47.2: PHA. -/
theorem test_pha_wraps :
    after { machine [0x48] [] with a := 0x5A, sp := 0x00 } [0x0100]
    = some ⟨0x5A, 0x00, 0x00, 0xFF, 0x0601, 0x20, [0x5A]⟩ := by decide

/-- V47.4: PLA. -/
theorem test_pla_wraps :
    after { machine [0x68] [(0x0100, 0x00)] with a := 0x12, sp := 0xFF } []
    = some ⟨0x00, 0x00, 0x00, 0x00, 0x0601, 0x22, []⟩ := by decide

/-- V47.6: PHP. -/
theorem test_php_pushes_b :
    after { machine [0x08] [] with p := 0xE3 } [0x01FF]
    = some ⟨0x00, 0x00, 0x00, 0xFE, 0x0601, 0xE3, [0xF3]⟩ := by decide

/-- V47.7: PLP. -/
theorem test_plp_keeps_b_set :
    after { machine [0x28] [(0x01FF, 0xC3)] with sp := 0xFE, p := 0x34 } []
    = some ⟨0x00, 0x00, 0x00, 0xFF, 0x0601, 0xF3, []⟩ := by decide

/-- V47.8: PLP. -/
theorem test_plp_keeps_b_clear :
    after { machine [0x28] [(0x01FF, 0xFF)] with sp := 0xFE, p := 0x24 } []
    = some ⟨0x00, 0x00, 0x00, 0xFF, 0x0601, 0xEF, []⟩ := by decide

/-- V47.9: JSR $1234. -/
theorem test_jsr_hw :
    after (machine [0x20, 0x34, 0x12] []) [0x01FE, 0x01FF]
    = some ⟨0x00, 0x00, 0x00, 0xFD, 0x1234, 0x20, [0x02, 0x06]⟩ := by decide

/-- V47.10: JSR $1234. -/
theorem test_jsr_literal :
    after { machine [0x20, 0x34, 0x12] [] with cfg := { jsrReturn := .literal } } [0x01FE, 0x01FF]
    = some ⟨0x00, 0x00, 0x00, 0xFD, 0x1234, 0x20, [0x03, 0x06]⟩ := by decide

/-- V47.11: RTS. -/
theorem test_rts :
    after { machine [0x60] [(0x01FE, 0x02), (0x01FF, 0x06)] with sp := 0xFD } []
    = some ⟨0x00, 0x00, 0x00, 0xFF, 0x0603, 0x20, []⟩ := by decide

/-- V47.12: RTS. -/
theorem test_rts_wraps :
    after { machine [0x60] [(0x01FE, 0xFF), (0x01FF, 0xFF)] with sp := 0xFD } []
    = some ⟨0x00, 0x00, 0x00, 0xFF, 0x0000, 0x20, []⟩ := by decide

/-- V47.14: BRK. -/
theorem test_brk_keeps_decimal :
    after { machine [0x00, 0xEA] [(0xFFFE, 0x00), (0xFFFF, 0x80)] with p := 0xEB } [0x01FD, 0x01FE, 0x01FF]
    = some ⟨0x00, 0x00, 0x00, 0xFC, 0x8000, 0xEF, [0xFB, 0x02, 0x06]⟩ := by decide

/-- V47.16: RTI. -/
theorem test_rti_keeps_b :
    after { machine [0x40] [(0x01FD, 0xC3), (0x01FE, 0x00), (0x01FF, 0x90)] with sp := 0xFC, p := 0x34 } []
    = some ⟨0x00, 0x00, 0x00, 0xFF, 0x9000, 0xF3, []⟩ := by decide

/-- V48.1: CLC. -/
theorem test_clc :
    after { machine [0x18] [] with p := 0x21 } []
    = some ⟨0x00, 0x00, 0x00, 0xFF, 0x0601, 0x20, []⟩ := by decide

/-- V48.2: SEC. -/
theorem test_sec :
    after (machine [0x38] []) []
    = some ⟨0x00, 0x00, 0x00, 0xFF, 0x0601, 0x21, []⟩ := by decide

/-- V48.3: CLI. -/
theorem test_cli :
    after { machine [0x58] [] with p := 0x24 } []
    = some ⟨0x00, 0x00, 0x00, 0xFF, 0x0601, 0x20, []⟩ := by decide

/-- V48.4: SEI. -/
theorem test_sei :
    after (machine [0x78] []) []
    = some ⟨0x00, 0x00, 0x00, 0xFF, 0x0601, 0x24, []⟩ := by decide

/-- V48.5: CLD. -/
theorem test_cld :
    after { machine [0xD8] [] with p := 0x28 } []
    = some ⟨0x00, 0x00, 0x00, 0xFF, 0x0601, 0x20, []⟩ := by decide

/-- V48.6: SED. -/
theorem test_sed :
    after (machine [0xF8] []) []
    = some ⟨0x00, 0x00, 0x00, 0xFF, 0x0601, 0x28, []⟩ := by decide

/-- V48.8: CLV. -/
theorem test_clv :
    after { machine [0xB8] [] with p := 0xE3 } []
    = some ⟨0x00, 0x00, 0x00, 0xFF, 0x0601, 0xA3, []⟩ := by decide

/-- V48.9: NOP. -/
theorem test_nop :
    after { machine [0xEA] [] with a := 0x11, p := 0xA3 } []
    = some ⟨0x11, 0x00, 0x00, 0xFF, 0x0601, 0xA3, []⟩ := by decide

/-- V49.1: LDA #$AA. -/
theorem test_lda_immediate :
    after (machine [0xA9, 0xAA] []) []
    = some ⟨0xAA, 0x00, 0x00, 0xFF, 0x0602, 0xA0, []⟩ := by decide

/-- V49.3: LDA $10,X. -/
theorem test_lda_zero_page_x_wraps :
    after { machine [0xB5, 0x10] [(0x000F, 0x7F)] with x := 0xFF } []
    = some ⟨0x7F, 0xFF, 0x00, 0xFF, 0x0602, 0x20, []⟩ := by decide

/-- V49.5: LDA $FFF0,Y. -/
theorem test_lda_absolute_y_wraps :
    after { machine [0xB9, 0xF0, 0xFF] [(0x0010, 0x99)] with y := 0x20 } []
    = some ⟨0x99, 0x00, 0x20, 0xFF, 0x0603, 0xA0, []⟩ := by decide

/-- V49.6: LDA ($FF),Y. -/
theorem test_lda_pointer_wraps :
    after { machine [0xB1, 0xFF] [(0x0000, 0x30), (0x00FF, 0x00), (0x3001, 0x44)] with y := 0x01 } []
    = some ⟨0x44, 0x00, 0x01, 0xFF, 0x0602, 0x20, []⟩ := by decide

/-- V49.7: LDX #$00. -/
theorem test_ldx_immediate :
    after { machine [0xA2, 0x00] [] with x := 0x10 } []
    = some ⟨0x00, 0x00, 0x00, 0xFF, 0x0602, 0x22, []⟩ := by decide

/-- V49.8: LDX $10,Y. -/
theorem test_ldx_zero_page_y :
    after { machine [0xB6, 0x10] [(0x0015, 0x80)] with y := 0x05 } []
    = some ⟨0x00, 0x80, 0x05, 0xFF, 0x0602, 0xA0, []⟩ := by decide

/-- V49.9: LDY #$FF. -/
theorem test_ldy_immediate :
    after (machine [0xA0, 0xFF] []) []
    = some ⟨0x00, 0x00, 0xFF, 0xFF, 0x0602, 0xA0, []⟩ := by decide

/-- V49.10: LDY $0200,X. -/
theorem test_ldy_absolute_x :
    after { machine [0xBC, 0x00, 0x02] [(0x0203, 0x00)] with x := 0x03, y := 0x44 } []
    = some ⟨0x00, 0x03, 0x00, 0xFF, 0x0603, 0x22, []⟩ := by decide

/-- V49.11: STA $0200. -/
theorem test_sta_keeps_flags :
    after { machine [0x8D, 0x00, 0x02] [] with a := 0x42, p := 0xA3 } [0x0200]
    = some ⟨0x42, 0x00, 0x00, 0xFF, 0x0603, 0xA3, [0x42]⟩ := by decide

/-- V49.12: STA ($40),Y. -/
theorem test_sta_indirect_y :
    after { machine [0x91, 0x40] [(0x0040, 0x00), (0x0041, 0x03)] with a := 0x42, y := 0x02 } [0x0302]
    = some ⟨0x42, 0x00, 0x02, 0xFF, 0x0602, 0x20, [0x42]⟩ := by decide

/-- V49.13: STA ($40,X). -/
theorem test_sta_indirect_x :
    after { machine [0x81, 0x40] [(0x0042, 0x10), (0x0043, 0x03)] with a := 0x42, x := 0x02 } [0x0310]
    = some ⟨0x42, 0x02, 0x00, 0xFF, 0x0602, 0x20, [0x42]⟩ := by decide

/-- V49.14: STX $FF,Y. -/
theorem test_stx_zero_page_y_wraps :
    after { machine [0x96, 0xFF] [] with x := 0x07, y := 0x02 } [0x0001]
    = some ⟨0x00, 0x07, 0x02, 0xFF, 0x0602, 0x20, [0x07]⟩ := by decide

/-- V49.15: STY $30. -/
theorem test_sty_zero_page :
    after { machine [0x84, 0x30] [] with y := 0x09 } [0x0030]
    = some ⟨0x00, 0x00, 0x09, 0xFF, 0x0602, 0x20, [0x09]⟩ := by decide

/-- V49.16: STA $8000. -/
theorem test_sta_read_only_faults :
    faultOf (step { readOnlyAt 0x8000 [0x8D, 0x00, 0x80] [] with a := 0x42 }) = some (.memoryFault 0x8000 .write 0x0600) := by decide

/-- V49.18: TAX. -/
theorem test_tax :
    after { machine [0xAA] [] with a := 0x80 } []
    = some ⟨0x80, 0x80, 0x00, 0xFF, 0x0601, 0xA0, []⟩ := by decide

/-- V49.19: TAY. -/
theorem test_tay :
    after { machine [0xA8] [] with a := 0x00, y := 0x33 } []
    = some ⟨0x00, 0x00, 0x00, 0xFF, 0x0601, 0x22, []⟩ := by decide

/-- V49.20: TXA. -/
theorem test_txa :
    after { machine [0x8A] [] with x := 0x01 } []
    = some ⟨0x01, 0x01, 0x00, 0xFF, 0x0601, 0x20, []⟩ := by decide

/-- V49.21: TYA. -/
theorem test_tya :
    after { machine [0x98] [] with y := 0xFE } []
    = some ⟨0xFE, 0x00, 0xFE, 0xFF, 0x0601, 0xA0, []⟩ := by decide

/-- V49.22: TSX. -/
theorem test_tsx :
    after { machine [0xBA] [] with sp := 0xFD } []
    = some ⟨0x00, 0xFD, 0x00, 0xFD, 0x0601, 0xA0, []⟩ := by decide

/-- V49.23: TXS. -/
theorem test_txs_keeps_flags :
    after { machine [0x9A] [] with x := 0x00 } []
    = some ⟨0x00, 0x00, 0x00, 0x00, 0x0601, 0x20, []⟩ := by decide

/-- V30.1: (unassigned $02). -/
theorem test_unassigned_byte_faults :
    faultOf (step (machine [0x02] [])) = some (.unknownOpcode 0x02 0x0600) := by decide

/-- V40.1: LDA $9000 on MEM_SIZE=$8000. -/
theorem test_lda_out_of_range_faults :
    faultOf (step (ofSize 32768 [0xAD, 0x00, 0x90] [])) = some (.memoryFault 0x9000 .read 0x0600) := by decide

/-! Memory, reset, faults and interrupts. -/

/-- A default store and a store mapped at three addresses. -/
def threeMapped : Memory :=
  { stores := [⟨.flat, 65536, [(0x2000, 0x11)]⟩, ⟨.flat, 65536, [(0x2001, 0x22)]⟩]
    base := some 0
    overrides := [(0x2000, 1), (0x2001, 1), (0x2002, 1)] }

/-- S6: a write through an override reaches its store and not the default; three overrides of one store are one reset. -/
theorem test_composite :
    ((threeMapped.write 0x2000 0x55).map fun m' => (m'.read 0x2000, (m'.stores[0]?).map fun st => st.cells)) = some (some 0x55, some [(0x2000, 0x11)])
      ∧ threeMapped.backing = [0, 1] ∧ threeMapped.clear.read 0x2001 = some 0x00 := by decide

/-- R68, R69: the contract's word is big-endian; blocks write and read in order. -/
theorem test_blocks :
    (((Memory.blank.setBlock 0x10 [0x12, 0x34]).bind fun m => m.getWord 0x10),
      ((Memory.blank.setBlock 0x10 [0x12, 0x34]).bind fun m => m.getBlock 0x10 0x12), (Memory.blank.setBlock 0xFFFF [1, 2]).isSome)
      = (some 0x1234, some [0x12, 0x34], false) := by decide

/-- V70.1 and V70.2, on the registers a reset leaves. -/
theorem test_reset :
    ((hostReset (machine [] [(0xFFFD, 0x80)])).1.pc, (hostReset (machine [] [(0xFFFD, 0x80)])).1.p,
      (hostReset { machine [] [] with cfg := { resetP := 0x04 } }).1.p) = (0x8000, 0x34, 0x24) := by decide

/-- R319: reset leaves the inputs the host drives. -/
theorem test_reset_keeps_irq : ((hostReset { machine [] [] with irq := true, cfg := { hasIrqNmi := true } }).1.irq) = true := by decide

/-- R67: a lone store reports its total addressable size, whatever was loaded. -/
theorem test_size : (Memory.blank.size, (ofSize 32768 [0xEA] []).mem.size) = (65536, 32768) := by decide

/-- V70.3. -/
theorem test_reset_faults : (hostReset (ofSize 32768 [] [])).2 = some { addr := 0xFFFC, kind := .read } := by decide

/-- V40.2: the second of two NOPs lies outside the store. -/
theorem test_second_fetch_out_of_range : (hostSteps 2 (ofSize 1537 [0xEA] [])).2 = some (.memoryFault 0x0601 .read 0x0601) := by
  decide

/-- R311: with HAS_IRQ_NMI an IRQ enters its handler with B = 0 in the pushed byte; the handler's first instruction runs. -/
theorem test_irq :
    after { machine [] [(0xFFFE, 0x00), (0xFFFF, 0x80), (0x8000, 0xEA)] with irq := true, cfg := { hasIrqNmi := true }, p := 0x30 }
      [0x01FF, 0x01FE, 0x01FD] = some ⟨0, 0, 0, 0xFC, 0x8001, 0x34, [0x06, 0x00, 0x20]⟩ := by decide

/-- R311: NMI comes first, whatever I is. -/
theorem test_nmi :
    after { machine [] [(0xFFFA, 0x00), (0xFFFB, 0x90), (0x9000, 0xEA)] with irq := true, nmi := true, cfg := { hasIrqNmi := true }, p := 0x24 }
      [0x01FD] = some ⟨0, 0, 0, 0xFC, 0x9001, 0x24, [0x24]⟩ := by decide

/-! Witnesses: for every statement with hypotheses, a concrete state and operands that meet them together. -/

/-- A memory with a read-only store at the whole stack page's top, for pushes that fail. -/
def romStack : State := readOnlyAt 0x01FF [] []

/-- EncodeOfDecodeGivesBytesBack. -/
theorem witness_decodes : decode [0xAD, 0x34, 0x12, 0xFF] = .ok (.ldaAbs 0x1234, [0xFF]) := rfl

/-- UnassignedBytesAreRejected, at the first and the last such byte, and a byte that is none. -/
theorem witness_unassigned :
    (∀ op ∈ [(0x02 : Byte), 0xFF], op ∈ unassignedBytes ∧ (machine [op] []).faulted = false ∧
      pendingVector (machine [op] []) = none ∧ (machine [op] []).mem.read 0x0600 = some op) ∧ (0xEA : Byte) ∉ unassignedBytes := by
  decide

/-- UnassignedBytesAreRejected, FetchFaults: with no interrupt pending the state after the entry is the state itself; with an
IRQ taken it is another. -/
theorem witness_take_interrupt :
    takeInterrupt (machine [0x02] []) = .ok (machine [0x02] []) ∧ takeInterrupt (ofSize 0x0600 [] []) = .ok (ofSize 0x0600 [] []) ∧
    takeInterrupt (ofSize 0x0601 [0xA9] []) = .ok (ofSize 0x0601 [0xA9] []) ∧
    takeInterrupt (ofSize 0x0602 [0xAD, 0x34] []) = .ok (ofSize 0x0602 [0xAD, 0x34] []) ∧
    ((takeInterrupt { machine [] [(0xFFFF, 0x80)] with irq := true, cfg := { hasIrqNmi := true } }).toOption.map fun t => t.pc)
      = some 0x8000 := by
  refine ⟨rfl, rfl, rfl, rfl, by decide⟩

/-- AssembledBranchReachesTarget, at both ends of the range. -/
theorem witness_branch_operand : (branchOperand 0x0600 0x0582, branchOperand 0x0600 0x0681) = (some 0x80, some 0x7F) := by decide

/-- StepRunsDecodedInstruction, NoOperation: a three-byte instruction that wraps past $FFFF, and a NOP. -/
theorem witness_step_runs :
    takeInterrupt (machineAt 0xFFFE [0xAD, 0x34, 0x12] []) = .ok (machineAt 0xFFFE [0xAD, 0x34, 0x12] []) ∧
    decode [0xAD, 0x34, 0x12] = .ok (.ldaAbs 0x1234, []) ∧
    (∀ (k : Nat) (b : Byte), [(0xAD : Byte), 0x34, 0x12][k]? = some b →
      memRead (machineAt 0xFFFE [0xAD, 0x34, 0x12] []) (0xFFFE + BitVec.ofNat 16 k) = .ok b) ∧
    (machine [0xEA] []).faulted = false ∧ memRead (machine [0xEA] []) 0x0600 = .ok 0xEA := by
  refine ⟨rfl, rfl, ?_, rfl, rfl⟩
  intro k b h
  match k, h with
  | 0, h => cases h; rfl
  | 1, h => cases h; rfl
  | 2, h => cases h; rfl

/-- FetchFaults: the opcode byte, the second and the third byte out of range. -/
theorem witness_fetch_faults :
    (ofSize 0x0600 [] []).mem.read 0x0600 = none ∧
    ((ofSize 0x0601 [0xA9] []).mem.read 0x0600 = some (Instr.ldaImm 0).opcode ∧ (ofSize 0x0601 [0xA9] []).mem.read 0x0601 = none ∧
      (Instr.ldaImm 0).length = 2) ∧
    ((ofSize 0x0602 [0xAD, 0x34] []).mem.read 0x0600 = some (Instr.ldaAbs 0).opcode ∧
      (ofSize 0x0602 [0xAD, 0x34] []).mem.read 0x0601 = some 0x34 ∧ (ofSize 0x0602 [0xAD, 0x34] []).mem.read 0x0602 = none ∧
      (Instr.ldaAbs 0).length = 3) := by decide

/-- FaultedCoreIsHalted, FaultHaltsTheCore: a state that faults, its memory well formed, and an address it does not write. -/
theorem witness_fault :
    faultOf (step (machine [0x02] [])) = some (.unknownOpcode 0x02 0x0600) ∧ (machine [0x02] []).mem.wf = true ∧
    writes (performed (machine [0x02] []).mem (stepAccesses (machine [0x02] []))) 0x0600 = false ∧
    { machine [0x02] [] with faulted := true }.faulted = true := by decide

/-- StepsRunInSequence, FaultedCoreIsHalted: a step that completes, one that faults, a reset that faults; a run that is
successful. -/
theorem witness_runs :
    (nextOf (step (machine [0xEA] []))).isSome = true ∧ (faultOf (step (machine [0x02] []))).isSome = true ∧
    (hostReset (ofSize 32768 [] [])).2 = some ⟨0xFFFC, .read⟩ ∧ (hostReset (ofSize 32768 [] [])).1.faulted = true ∧
    SuccessfulRun 1 (machine [0xEA] []) := by
  refine ⟨by decide, by decide, by decide, by decide, by decide, by decide, by decide⟩

/-- InstructionEndsAsItsAccessesDo, OnlyListedWritesChangeMemory: the failing access is the second of a JSR's pushes; an RTS
completes; a store's neighbour is not written. -/
theorem witness_accesses :
    firstFailing (readOnlyAt 0x01FE [] []).mem (dataAccesses (.jsr 0x1234) (readOnlyAt 0x01FE [] [])) = some ⟨0x01FE, .write⟩ ∧
    firstFailing (machine [] []).mem (dataAccesses .rts (machine [] [])) = none ∧
    (nextOf (exec (.staAbs 0x0200) (machine [] []))).isSome = true ∧ (machine [] []).mem.wf = true ∧
    writes (dataAccesses (.staAbs 0x0200) (machine [] [])) 0x0201 = false ∧
    writes (dataAccesses (.staAbs 0x0200) (machine [] [])) 0x0200 = true := by decide

/-- StepEndsAsItsAccessesDo, OnlyListedWritesChangeMemory: a step that fails at its data access, one that completes, and an
unknown opcode. -/
theorem witness_step_accesses :
    firstFailing (ofSize 32768 [0xAD, 0x00, 0x90] []).mem (stepAccesses (ofSize 32768 [0xAD, 0x00, 0x90] [])) = some ⟨0x9000, .read⟩ ∧
    firstFailing (machine [0x48] []).mem (stepAccesses (machine [0x48] [])) = none ∧
    firstFailing (machine [0x02] []).mem (stepAccesses (machine [0x02] [])) = none ∧
    (machine [0x48] []).faulted = false ∧ (nextOf (step (machine [0x48] []))).isSome = true ∧
    writes (stepAccesses (machine [0x48] [])) 0x01FE = false ∧ writes (stepAccesses (machine [0x48] [])) 0x01FF = true := by decide

/-- StepKeepsInvariant, StepKeepsHardware, ResetMeetsInvariant: the state after reset has the invariant, and steps. -/
theorem witness_invariant :
    State.reset.mem.wf = true ∧ getFlag State.reset.p .U = true ∧ getFlag State.reset.p .B = getFlag State.reset.cfg.resetP .B ∧
    (nextOf (step State.reset)).isSome = true := by decide

/-- InterruptInputsIgnoredByDefault, StepRunsDecodedInstruction's second clause. -/
theorem witness_no_interrupts : State.reset.cfg.hasIrqNmi = false := by decide

/-- DecimalFlagChangesNoArithmetic: ADC is one of the instructions it speaks of, and a branch. -/
theorem witness_decimal :
    (Instr.adcImm 1).mnemonic ∉ [.PHP, .BRK, .PLP, .RTI, .SED, .CLD] ∧ (Instr.bne 1).mnemonic ∉ [.PHP, .BRK, .PLP, .RTI, .SED, .CLD] := by
  decide

/-- IndirectEffectiveAddresses: pointers that wrap from $FF to $00, and the failing first and second byte of each. -/
theorem witness_pointers :
    (memRead { machine [] [(0x00FF, 0x34), (0x0000, 0x12)] with x := 0x0F } (BitVec.ofNat 16 ((0xF0 + 0x0F) % 256)) = .ok 0x34 ∧
      memRead { machine [] [(0x00FF, 0x34), (0x0000, 0x12)] with x := 0x0F } (BitVec.ofNat 16 ((0xF0 + 0x0F + 1) % 256)) = .ok 0x12) ∧
    (memRead (machine [] [(0x00FF, 0x34), (0x0000, 0x12)]) (BitVec.ofNat 16 0xFF) = .ok 0x34 ∧
      memRead (machine [] [(0x00FF, 0x34), (0x0000, 0x12)]) (BitVec.ofNat 16 ((0xFF + 1) % 256)) = .ok 0x12) ∧
    memRead (onlyAt [] []) (BitVec.ofNat 16 0xFF) = .error ⟨0x00FF, .read⟩ ∧
    (memRead (onlyAt [0x00FF] [(0x00FF, 0x34)]) (BitVec.ofNat 16 0xFF) = .ok 0x34 ∧
      memRead (onlyAt [0x00FF] [(0x00FF, 0x34)]) (BitVec.ofNat 16 ((0xFF + 1) % 256)) = .error ⟨0x0000, .read⟩) := by
  refine ⟨⟨rfl, rfl⟩, ⟨rfl, rfl⟩, rfl, rfl, rfl⟩

/-- The read statements (ADC, SBC, AND, ORA, EOR, BIT, CMP, CPX, CPY, LDA, LDX, LDY): an immediate and a memory operand that
read, and a memory operand and a pointer that do not. -/
theorem witness_operands :
    OperandReads (.imm 0xFF) (machine [] []) 0xFF ∧
    OperandReads (.mem (.zp 0xFF)) (machine [] [(0x00FF, 0x80)]) 0x80 ∧
    OperandReads (.mem (.indy 0xFF)) { machine [] [(0x00FF, 0xFF), (0x0000, 0xFF), (0x0000, 0xFF)] with y := 0xFF } 0x00 ∧
    OperandFails (.mem (.abs 0x9000)) (ofSize 32768 [] []) ⟨0x9000, .read⟩ ∧
    OperandFails (.mem (.indx 0x10)) (onlyAt [0x0010] []) ⟨0x0011, .read⟩ := by
  refine ⟨rfl, ⟨0x00FF, rfl, rfl⟩, ⟨0x00FE, rfl, rfl⟩, .inr ⟨0x9000, rfl, rfl⟩, .inl rfl⟩

/-- Stores: a zero-page address that wraps, a failing pointer, a read-only target. -/
theorem witness_stores :
    effAddr (.zpy 0xFF) { machine [] [] with y := 2 } = .ok 0x0001 ∧ (machine [] []).mem.wf = true ∧
    (machine [] []).mem.writable 0x0001 = true ∧ effAddr (.indx 0x10) (onlyAt [] []) = .error ⟨0x0010, .read⟩ ∧
    effAddr (.abs 0x8000) (readOnlyAt 0x8000 [] []) = .ok 0x8000 ∧ (readOnlyAt 0x8000 [] []).mem.writable 0x8000 = false := by
  refine ⟨rfl, by decide, by decide, rfl, rfl, by decide⟩

/-- ShiftsAndRotates, IncrementsOnMemory: a target that reads and writes at the end of memory, one that does not read, one
that does not write. -/
theorem witness_modify :
    (effAddr (.absx 0xFFF0) { machine [] [] with x := 0x0F } = .ok 0xFFFF ∧ memRead (machine [] []) 0xFFFF = .ok 0 ∧
      (machine [] []).mem.wf = true ∧ (machine [] []).mem.writable 0xFFFF = true) ∧
    memRead (ofSize 32768 [] []) 0x8000 = .error ⟨0x8000, .read⟩ ∧
    (memRead (readOnlyAt 0x8000 [] []) 0x8000 = .ok 0 ∧ (readOnlyAt 0x8000 [] []).mem.writable 0x8000 = false) := by
  refine ⟨⟨rfl, rfl, by decide, by decide⟩, rfl, rfl, by decide⟩

/-- Branches: the flag clear and set. -/
theorem witness_branches : (getFlag 0x20 .C, getFlag 0x21 .C, getFlag 0x22 .Z, getFlag 0xA0 .N, getFlag 0x60 .V) = (false, true, true, true, true) := by
  decide

/-- Jumps: a pointer at the end of a page under each value of JMP_IND_PAGE_WRAP, and its failing first and second byte. -/
theorem witness_jumps :
    (0x3000 : Word).toNat = (if State.reset.cfg.jmpIndPageWrap then 0x30FF / 256 * 256 + (0x30FF + 1) % 256 else (0x30FF + 1) % 65536) ∧
    (0x0000 : Word).toNat = (if ({ jmpIndPageWrap := false } : Config).jmpIndPageWrap then 0xFFFF / 256 * 256 + (0xFFFF + 1) % 256
      else (0xFFFF + 1) % 65536) ∧
    memRead (machine [] [(0x30FF, 0x80)]) 0x30FF = .ok 0x80 ∧ memRead (machine [] [(0x3000, 0x50)]) 0x3000 = .ok 0x50 ∧
    memRead (onlyAt [] []) 0x30FF = .error ⟨0x30FF, .read⟩ ∧
    (memRead (onlyAt [0x30FF] []) 0x30FF = .ok 0 ∧ memRead (onlyAt [0x30FF] []) 0x3000 = .error ⟨0x3000, .read⟩) := by
  refine ⟨by decide, by decide, rfl, rfl, rfl, rfl, rfl⟩

/-- StackPrimitives, PushInstructions, PushThenPullRestores: S = $00 pushes at $0100 and pulls at $0101, S = $FF pulls at $0100;
and each fails where the memory does not allow it. -/
theorem witness_stack :
    ((0x0100 : Word).toNat = 256 + ({ machine [] [] with sp := 0x00 } : State).sp.toNat ∧
      (0x0101 : Word).toNat = 256 + (({ machine [] [] with sp := 0x00 } : State).sp.toNat + 1) % 256) ∧
    ((0x01FF : Word).toNat = 256 + (machine [] []).sp.toNat ∧ (0x0100 : Word).toNat = 256 + ((machine [] []).sp.toNat + 1) % 256) ∧
    (machine [] []).mem.wf = true ∧ (machine [] []).mem.writable 0x01FF = true ∧ romStack.mem.writable 0x01FF = false ∧
    memRead (machine [] [(0x0100, 0x80)]) 0x0100 = .ok 0x80 ∧ memRead (ofSize 0x0100 [] []) 0x0100 = .error ⟨0x0100, .read⟩ ∧
    pushSlot romStack 0 = 0x01FF ∧ (nextOf (exec .pha (machine [] []))).isSome = true ∧
    (nextOf (exec .php (machine [] []))).isSome = true := by
  refine ⟨by decide, by decide, by decide, by decide, by decide, rfl, rfl, by decide, by decide, by decide⟩

/-- PullAccumulator, PullStatus, ReturnFromSubroutine, ReturnFromInterrupt: slots that wrap from $01FF to $0100, and each pull
failing in turn. -/
theorem witness_pulls :
    (memRead { machine [] [] with sp := 0xFE } (pullSlot { machine [] [] with sp := 0xFE } 1) = .ok 0 ∧
      pullSlot { machine [] [] with sp := 0xFE } 1 = 0x01FF ∧ pullSlot { machine [] [] with sp := 0xFE } 2 = 0x0100 ∧
      memRead { machine [] [] with sp := 0xFE } 0x0100 = .ok 0 ∧ memRead { machine [] [] with sp := 0xFE } 0x0101 = .ok 0) ∧
    memRead (ofSize 0x0100 [] []) (pullSlot (ofSize 0x0100 [] []) 1) = .error ⟨0x0100, .read⟩ ∧
    (memRead (ofSize 0x0101 [] []) (pullSlot (ofSize 0x0101 [] []) 1) = .ok 0 ∧
      memRead (ofSize 0x0101 [] []) (pullSlot (ofSize 0x0101 [] []) 2) = .error ⟨0x0101, .read⟩) ∧
    firstFailing (ofSize 0x0102 [] []).mem [readOf (pullSlot (ofSize 0x0102 [] []) 1), readOf (pullSlot (ofSize 0x0102 [] []) 2),
      readOf (pullSlot (ofSize 0x0102 [] []) 3)] = some ⟨0x0102, .read⟩ := by
  refine ⟨⟨rfl, by decide, by decide, rfl, rfl⟩, rfl, ⟨rfl, rfl⟩, by decide⟩

/-- S = $00, so that pushes wrap. -/
def emptyStack : State := { machine [] [] with sp := 0x00 }

/-- The second push fails. -/
def romSecond : State := readOnlyAt 0x01FE [] []

/-- JumpToSubroutine, CallThenReturnResumes: both pushes allowed with S = $00, the first not, the second not. -/
theorem witness_call :
    (emptyStack.mem.wf = true ∧ emptyStack.mem.writable (pushSlot emptyStack 0).toNat = true ∧
      emptyStack.mem.writable (pushSlot emptyStack 1).toNat = true ∧ pushSlot emptyStack 0 = 0x0100 ∧
      pushSlot emptyStack 1 = 0x01FF ∧ (nextOf (exec (.jsr 0x1234) emptyStack)).isSome = true) ∧
    romStack.mem.writable (pushSlot romStack 0).toNat = false ∧
    (romSecond.mem.writable (pushSlot romSecond 0).toNat = true ∧ romSecond.mem.writable (pushSlot romSecond 1).toNat = false) ∧
    (0x05FF : Word) = (match (machine [] []).cfg.jsrReturn with | .hw => (machine [] []).pc - 1 | .literal => (machine [] []).pc) := by
  decide

/-- The accesses of entering a handler, as the statements list them. -/
def entryOf (s : State) (vector : Word) : List Access :=
  [writeOf (pushSlot s 0), writeOf (pushSlot s 1), writeOf (pushSlot s 2), readOf vector, readOf (vector + 1)]

/-- BreakEntersHandler, BreakThenReturnResumes: an entry that is allowed, and one whose third push is not; bit 5 of P is 1. -/
theorem witness_break :
    EntryAllowed (machine [] []) (machine [] []).cfg.brkVector ∧ (machine [] []).mem.wf = true ∧
    getFlag (machine [] []).p .U = true ∧ (nextOf (exec .brk (machine [] []))).isSome = true ∧
    firstFailing (readOnlyAt 0x01FD [] []).mem (entryOf (readOnlyAt 0x01FD [] []) 0xFFFE) = some ⟨0x01FD, .write⟩ ∧
    firstFailing (ofSize 0xFFFF [] []).mem (entryOf (ofSize 0xFFFF [] []) 0xFFFE) = some ⟨0xFFFF, .read⟩ ∧
    (machine [] []).cfg.brkVector = 0xFFFE := by
  refine ⟨⟨by decide, by decide, by decide, by decide, by decide⟩, by decide, by decide, by decide, by decide, by decide, rfl⟩

/-- A state with the optional inputs. -/
def wired (irq nmi : Bool) (p : Byte) (s : State) : State := { s with irq := irq, nmi := nmi, p := p, cfg := { hasIrqNmi := true } }

/-- InterruptSelection, InterruptEntry: an NMI, an IRQ with I clear, none with I set; an entry that is allowed and one that is
not. -/
theorem witness_interrupts :
    pendingVector (wired true true 0x24 (machine [] [])) = some 0xFFFA ∧ pendingVector (wired true false 0x20 (machine [] [])) = some 0xFFFE ∧
    pendingVector (wired true false 0x24 (machine [] [])) = none ∧ pendingVector (wired false false 0x20 (machine [] [])) = none ∧
    EntryAllowed (wired true false 0x20 (machine [] [])) 0xFFFE ∧ (wired true false 0x20 (machine [] [])).mem.wf = true ∧
    (pendingVector (wired true false 0x20 romStack) = some 0xFFFE ∧ (wired true false 0x20 romStack).faulted = false ∧
      firstFailing romStack.mem (entryOf (wired true false 0x20 romStack) 0xFFFE) = some ⟨0x01FF, .write⟩) := by
  refine ⟨by decide, by decide, by decide, by decide, ⟨by decide, by decide, by decide, by decide, by decide⟩, by decide, by decide⟩

/-- ResetOperation, StateAfterReset: a vector that reads, one whose first byte does not, one whose second does not. -/
theorem witness_reset :
    (memRead (machine [] [(0xFFFC, 0x34)]) 0xFFFC = .ok 0x34 ∧ memRead (machine [] [(0xFFFD, 0x12)]) 0xFFFD = .ok 0x12 ∧
      (machine [] []).cfg.resetVector = 0xFFFC ∧ (machine [] []).cfg.resetP = 0x34) ∧
    firstFailing (ofSize 0xFFFC [] []).mem [readOf 0xFFFC, readOf 0xFFFD] = some ⟨0xFFFC, .read⟩ ∧
    firstFailing (ofSize 0xFFFD [] []).mem [readOf 0xFFFC, readOf 0xFFFD] = some ⟨0xFFFD, .read⟩ ∧
    (State.reset.mem = Memory.blank ∧ State.reset.cfg = {} ∧ State.reset.irq = false ∧ State.reset.nmi = false ∧
      State.reset.freeCount = 0 ∧ State.reset.cfg.hasIrqNmi = false) := by
  refine ⟨⟨rfl, rfl, rfl, rfl⟩, by decide, by decide, rfl, rfl, rfl, rfl, rfl, rfl⟩

/-- ReadAfterWrite, BlocksAndWords: a write and a block write at the last address, a lone store. -/
theorem witness_memory_write :
    Memory.blank.overrides = [] ∧ Memory.blank.base = some 0 ∧ Memory.blank.stores[0]? = some ⟨.flat, 65536, []⟩ ∧
    Memory.blank.wf = true ∧ (Memory.blank.write 0xFFFF 0x12).isSome = true ∧ (Memory.blank.setBlock 0xFFFE [0x12, 0x34]).isSome = true := by
  decide

/-- AccessFailsOutOfRangeOrReadOnly: a read and a write that fail. -/
theorem witness_access_fails :
    memRead (ofSize 32768 [] []) 0x8000 = .error ⟨0x8000, .read⟩ ∧
    (match memWrite (readOnlyAt 0x8000 [] []) 0x8000 1 with | .error e => some e | .ok _ => none) = some ⟨0x8000, .write⟩ := by
  refine ⟨rfl, by decide⟩

/-- ContractReset: a named flat store with a byte that an override hides, a named read-only store, a store not named. -/
theorem witness_clear :
    (readOnlyAt 0x8000 [] []).mem.base = some 0 ∧ (∃ o ∈ (readOnlyAt 0x8000 [] []).mem.overrides, o.2 = 1) ∧
    (readOnlyAt 0x8000 [] []).mem.stores[0]? = some ⟨.flat, 65536, []⟩ ∧
    (readOnlyAt 0x8000 [] []).mem.stores[1]? = some ⟨.readOnly, 65536, []⟩ ∧
    (readOnlyAt 0x8000 [] []).mem.base ≠ some 2 ∧ ∀ o ∈ (readOnlyAt 0x8000 [] []).mem.overrides, o.2 ≠ 2 := by
  refine ⟨rfl, ⟨(0x8000, 1), by decide, rfl⟩, by decide, by decide, by decide, by decide⟩

/-- CompositeWriteReachesOneStore, AddingAnOverride, ContractReset: an override, the default, an address no store answers, a
successful write through an override, a flat and a read-only answering store, a store that is not named. -/
theorem witness_composite :
    overrideAt (readOnlyAt 0x8000 [] []).mem.overrides 0x8000 = some 1 ∧ overrideAt (readOnlyAt 0x8000 [] []).mem.overrides 0x7FFF = none ∧
    (onlyAt [0x10] []).mem.route 0x11 = none ∧ ((onlyAt [0x10] []).mem.write 0x10 1).isSome = true ∧
    ((readOnlyAt 0x8000 [] []).mem.addOverride 0xFFFF 1).isSome = true ∧ (readOnlyAt 0x8000 [] []).mem.wf = true ∧
    (readOnlyAt 0x8000 [] []).mem.answering 0x8000 = some ⟨.readOnly, 65536, []⟩ ∧ Memory.blank.answering 0xFFFF = some ⟨.flat, 65536, []⟩ ∧
    (1 : Nat) ∉ Memory.blank.base.toList ∧ ∀ o ∈ Memory.blank.overrides, o.2 ≠ 1 := by decide

end Sys2Proof.Tests
end

section
/-! The parts of the machine that no step changes (R6, R71, R74), and the signed reading of a byte (R9, R13). -/
namespace Sys2Proof.Machine

/-! A byte stored where a write is allowed leaves the hardware as it is. -/

theorem SameHardware.refl (s : State) : SameHardware s s :=
  ⟨rfl, rfl, rfl, rfl, fun _ st hst => ⟨st, hst, rfl, rfl, fun _ => rfl⟩⟩

theorem SameHardware.trans {s t u : State} (h : SameHardware s t) (h' : SameHardware t u) : SameHardware s u := by
  obtain ⟨hcfg, hbase, hover, hlen, hstore⟩ := h
  obtain ⟨gcfg, gbase, gover, glen, gstore⟩ := h'
  refine ⟨gcfg.trans hcfg, gbase.trans hbase, gover.trans hover, glen.trans hlen, fun k st hst => ?_⟩
  obtain ⟨st', hst', hkind, hsize, hrom⟩ := hstore k st hst
  obtain ⟨st'', hst'', gkind, gsize, grom⟩ := gstore k st' hst'
  exact ⟨st'', hst'', gkind.trans hkind, gsize.trans hsize, fun ho => (grom (hkind.trans ho)).trans (hrom ho)⟩

/-- Storing a byte changes neither the mapping nor the number of stores. -/
theorem Memory.put_map (m : Memory) (a : Nat) (v : Byte) :
    (m.put a v).base = m.base ∧ (m.put a v).overrides = m.overrides ∧ (m.put a v).stores.length = m.stores.length := by
  simp only [Memory.put]
  split <;> simp [Memory.modify]

/-- Where a write is allowed, the one store that it changes is flat. -/
theorem Memory.put_store {m : Memory} {a k : Nat} {st : Store} (v : Byte) (h : m.writable a = true)
    (hk : m.stores[k]? = some st) :
    (m.put a v).stores[k]? = some st ∨ st.kind = .flat ∧ (m.put a v).stores[k]? = some (st.put a v) := by
  obtain ⟨i, flat, hroute, hi, hflat, ha⟩ := (m.writable_iff a).mp h
  simp only [Memory.put, hroute, Memory.modify_store, hk]
  by_cases hik : i = k
  · subst hik
    obtain rfl : flat = st := Option.some.inj (hi.symm.trans hk)
    exact .inr ⟨hflat, by simp [ha]⟩
  · exact .inl (if_neg hik)

theorem sameHardware_put {s : State} {a : Nat} (v : Byte) (h : s.mem.writable a = true) :
    SameHardware s (setMem (s.mem.put a v) s) := by
  obtain ⟨hbase, hover, hlen⟩ := s.mem.put_map a v
  refine ⟨rfl, hbase, hover, hlen, fun k st hk => ?_⟩
  rcases Memory.put_store v h hk with hsame | ⟨hflat, hput⟩
  · exact ⟨st, hsame, rfl, rfl, fun _ => rfl⟩
  · refine ⟨st.put a v, hput, rfl, rfl, fun hrom => ?_⟩
    rw [hflat] at hrom
    cases hrom

theorem sameHardware_putAll (cs : List (Word × Byte)) (s : State) (h : ∀ c ∈ cs, s.mem.writable c.1.toNat = true) :
    SameHardware s (setMem (putAll s.mem cs) s) := by
  induction cs generalizing s with
  | nil => exact .refl s
  | cons c cs ih =>
    obtain ⟨hc, hcs⟩ := List.forall_mem_cons.mp h
    exact (sameHardware_put c.2 hc).trans (ih (setMem (s.mem.put c.1.toNat c.2) s) fun d hd => by simpa using hcs d hd)

/-- An operation writes only where a write is allowed, so it changes nothing of the hardware. -/
theorem Reaches.sameHardware {l : List Access} {s t : State} (h : Reaches l s t) : SameHardware s t := by
  obtain ⟨cs, hmem, hcs⟩ := h.mem
  obtain ⟨-, hw⟩ := sameHardware_putAll cs s fun c hc => (hcs c hc).1
  exact ⟨h.cfg, hmem ▸ hw⟩

/-- Settles O18: a step does no more than `Reaches` allows, which is to write through the port and to change registers. -/
theorem stepKeepsHardware : Obligations.StepKeepsHardware := by
  intro s t hstep
  obtain ⟨l, hr⟩ := step_keeps hstep
  exact ⟨hr.sameHardware, hr.faulted, hr.irq, hr.freeCount⟩

end Sys2Proof.Machine

namespace Sys2Proof

theorem signed_eq_ite (b : Byte) : signed b = if b.getLsbD 7 then (b.toNat : Int) - 256 else b.toNat := by
  rw [signed_eq_toInt, BitVec.toInt_eq_msb_cond, BitVec.msb_eq_getLsbD_last]
  rfl

theorem signedByte_isSome (v : Int) : (signedByte v).isSome = true ↔ -128 ≤ v ∧ v ≤ 127 := by
  simp [signedByte]

theorem signedByte_signed (b : Byte) : signedByte (signed b) = some b := by
  have hlo : -128 ≤ b.toInt := BitVec.le_toInt b
  have hhi : b.toInt < 128 := BitVec.toInt_lt
  rw [signed_eq_toInt, signedByte, if_pos (by omega), BitVec.ofInt_toInt]

/-- Settles O60: the signed reading is the library's `BitVec.toInt`, which `BitVec.ofInt` inverts. -/
theorem signedBytes : Obligations.SignedBytes :=
  ⟨fun b => ⟨signed_eq_ite b, signedByte_signed b⟩, signedByte_isSome⟩

end Sys2Proof
end

section
/-! Every step keeps the invariant of the machine (R38, R39, R70), and a reset establishes it (R340). -/
namespace Sys2Proof.Machine

/-- An operation writes bytes through the port and touches neither B nor, once it is 1, U: the invariant survives it. -/
theorem Reaches.inv {l : List Access} {s t : State} (h : Reaches l s t) (hs : s.Inv) : t.Inv := by
  obtain ⟨hwf, hU, hB⟩ := hs
  obtain ⟨cs, hmem, -⟩ := h.mem
  refine ⟨?_, h.flagU hU, ?_⟩
  · rw [hmem]
    exact putAll_wf hwf cs
  · rw [h.flagB, h.cfg, hB]

/-- Settles O16: a step does no more than `Reaches` allows, which keeps the invariant. -/
theorem stepKeepsInvariant : Obligations.StepKeepsInvariant := by
  intro s t hinv hstep
  obtain ⟨l, hr⟩ := step_keeps hstep
  exact hr.inv hinv

/-- Whether or not its vector reads, a reset leaves the registers it wrote; what the vector decides is PC and the mark. -/
theorem hostReset_registers (s : State) : ∃ w faulted n,
    (hostReset s).1 = { resetRegisters s with pc := w, faulted := faulted, freeCount := n } := by
  simp only [hostReset]
  split
  · exact ⟨_, _, _, rfl⟩
  · exact ⟨_, _, _, rfl⟩

/-- The reset's status byte is `RESET_P` but for bit 5, which is 1 (R38, R340). -/
theorem getFlag_resetRegisters (f : Flag) (s : State) :
    getFlag (resetRegisters s).p f = if f = .U then true else getFlag s.cfg.resetP f := by
  cases f <;> simp [getFlag, resetRegisters, Flag.bit]

/-- Settles O17: a reset writes no memory, and the status byte it writes has the two bits the invariant asks for. -/
theorem resetMeetsInvariant : Obligations.ResetMeetsInvariant := by
  refine ⟨⟨Memory.blank_wf, rfl, rfl⟩, fun s hwf => ?_⟩
  obtain ⟨w, faulted, n, hreset⟩ := hostReset_registers s
  rw [hreset]
  exact ⟨hwf, getFlag_resetRegisters .U s, getFlag_resetRegisters .B s⟩

/-- A reset whose vector reads: PC is the word there and the core runs (R340). -/
theorem hostReset_of_vector {s : State} {lo hi : Byte} (hlo : memRead s s.cfg.resetVector = .ok lo)
    (hhi : memRead s (s.cfg.resetVector + 1) = .ok hi) :
    hostReset s = (setPc (word hi lo) (resetRegisters s), none) := by
  have hpair : readPair (resetRegisters s) s.cfg.resetVector (s.cfg.resetVector + 1) = .ok (word hi lo) :=
    readPair_ok.mpr ⟨lo, hi, hlo, hhi, rfl⟩
  simp only [hostReset, show (resetRegisters s).cfg = s.cfg from rfl, hpair, setPc]

/-- A reset depends on the memory, the parameters, the inputs and the counter alone (R343). -/
theorem hostReset_congr {s t : State} (hmem : s.mem = t.mem) (hcfg : s.cfg = t.cfg) (hirq : s.irq = t.irq)
    (hnmi : s.nmi = t.nmi) (hfree : s.freeCount = t.freeCount) : hostReset s = hostReset t := by
  have hregs : resetRegisters s = setPc s.pc (resetRegisters t) := by
    simp only [resetRegisters, setPc, hmem, hcfg, hirq, hnmi, hfree]
  simp only [hostReset, hregs]
  rfl

/-- `State.reset` is what the model's reset makes of it: the blank memory's vector reads $0000. -/
theorem hostReset_reset : hostReset State.reset = (State.reset, none) := rfl

/-- Without `HAS_IRQ_NMI` nothing is pending (R310). -/
theorem pendingVector_of_not_hasIrqNmi {s : State} (h : s.cfg.hasIrqNmi = false) : pendingVector s = none := by
  simp [pendingVector, h]

/-- Settles O53: each clause reads off the registers a reset writes, or the word at its vector. -/
theorem stateAfterReset : Obligations.StateAfterReset := by
  refine ⟨fun s hP => ?_, fun s lo hi hvec hlo hhi => ?_, fun s hno => ?_, fun s t => hostReset_congr, ?_⟩
  · obtain ⟨w, faulted, n, hreset⟩ := hostReset_registers s
    have hp : (resetRegisters s).p = 0x34 := by
      simp only [resetRegisters, hP]
      rfl
    rw [hreset]
    exact ⟨rfl, hp, rfl, rfl, rfl⟩
  · have hnext : s.cfg.resetVector + 1 = 0xFFFD := by
      rw [hvec]
      rfl
    rw [hostReset_of_vector (hvec ▸ hlo) (hnext ▸ hhi)]
    exact ⟨word_toNat hi lo, rfl⟩
  · obtain ⟨w, faulted, n, hreset⟩ := hostReset_registers s
    rw [hreset]
    exact pendingVector_of_not_hasIrqNmi hno
  · intro s hmem hcfg hirq hnmi hfree
    rw [hostReset_congr (t := State.reset) hmem hcfg hirq hnmi hfree, hostReset_reset]

end Sys2Proof.Machine
end

section
/-! B and D are carried along (R39, R41): a change of one flag that no computation of an instruction names commutes with
the instructions, and a change of B with the whole step. -/
namespace Sys2Proof.Machine

/-- A status byte with one flag passed through `c`. -/
def changeFlag (g : Flag) (c : Bool → Bool) (p : Byte) : Byte := setFlag g (c (getFlag p g)) p

/-- A state with one flag of P passed through `c`. -/
def changeP (g : Flag) (c : Bool → Bool) : State → State := relabel (changeFlag g c) id id

/-- The flag is none of those that the instructions' computations read and write one by one. -/
def Flag.Inert (g : Flag) : Prop := .C ≠ g ∧ .Z ≠ g ∧ .I ≠ g ∧ .V ≠ g ∧ .N ≠ g

theorem inert_B : Flag.Inert .B := by simp [Flag.Inert]
theorem inert_D : Flag.Inert .D := by simp [Flag.Inert]

section
variable {g : Flag} {c : Bool → Bool}

/-! Status bytes. -/

@[simp] theorem getFlag_changeFlag (f : Flag) (p : Byte) :
    getFlag (changeFlag g c p) f = if f = g then c (getFlag p g) else getFlag p f := by
  simp [changeFlag]

theorem setFlag_changeFlag {f : Flag} (hne : f ≠ g) (v : Bool) (p : Byte) :
    setFlag f v (changeFlag g c p) = changeFlag g c (setFlag f v p) := by
  refine status_ext fun k => ?_
  by_cases hk : k = f
  · subst hk
    simp [hne]
  · simp [hk, hne.symm]

theorem setZN_changeFlag (hg : g.Inert) (v p : Byte) : setZN v (changeFlag g c p) = changeFlag g c (setZN v p) := by
  obtain ⟨-, hZ, -, -, hN⟩ := hg
  simp only [setZN, setFlag_changeFlag hZ, setFlag_changeFlag hN]

theorem sumFlags_changeFlag (hg : g.Inert) (r : AluSum) (p : Byte) :
    sumFlags r (changeFlag g c p) = changeFlag g c (sumFlags r p) := by
  have ⟨hC, _, _, hV, _⟩ := hg
  simp only [sumFlags, setFlag_changeFlag hC, setFlag_changeFlag hV, setZN_changeFlag hg]

theorem compareFlags_changeFlag (hg : g.Inert) (r m p : Byte) :
    compareFlags r m (changeFlag g c p) = changeFlag g c (compareFlags r m p) := by
  obtain ⟨hC, hZ, -, -, hN⟩ := hg
  simp only [compareFlags, setFlag_changeFlag hC, setFlag_changeFlag hZ, setFlag_changeFlag hN]

theorem bitTestFlags_changeFlag (hg : g.Inert) (a m p : Byte) :
    bitTestFlags a m (changeFlag g c p) = changeFlag g c (bitTestFlags a m p) := by
  obtain ⟨-, hZ, -, hV, hN⟩ := hg
  simp only [bitTestFlags, setFlag_changeFlag hZ, setFlag_changeFlag hN, setFlag_changeFlag hV]

theorem shifted_changeFlag (hg : g.Inert) (r : Byte) (b : Bool) (p : Byte) :
    shifted r b (changeFlag g c p) = ⟨(shifted r b p).value, changeFlag g c (shifted r b p).status⟩ := by
  simp only [shifted, setFlag_changeFlag hg.1, setZN_changeFlag hg]

theorem pulledStatus_changeFlag_B (v p : Byte) :
    pulledStatus v (changeFlag .B c p) = changeFlag .B c (pulledStatus v p) := by
  refine status_ext fun k => ?_
  by_cases hk : k = .B <;> simp [getFlag_pulledStatus, hk]

theorem pushedByProgram_changeFlag_B (p : Byte) : pushedByProgram (changeFlag .B c p) = pushedByProgram p := by
  refine status_ext fun k => ?_
  by_cases hk : k = .B <;> simp [getFlag_pushedByProgram, hk]

theorem pushedByInterrupt_changeFlag_B (p : Byte) : pushedByInterrupt (changeFlag .B c p) = pushedByInterrupt p := by
  refine status_ext fun k => ?_
  by_cases hk : k = .B <;> simp [getFlag_pushedByInterrupt, hk]

/-! States. -/

theorem relabel_changeFlag : relabel (changeFlag g c) id id = changeP g c := rfl

@[simp] theorem changeP_a (s : State) : (changeP g c s).a = s.a := rfl
@[simp] theorem changeP_x (s : State) : (changeP g c s).x = s.x := rfl
@[simp] theorem changeP_y (s : State) : (changeP g c s).y = s.y := rfl
@[simp] theorem changeP_sp (s : State) : (changeP g c s).sp = s.sp := rfl
@[simp] theorem changeP_p (s : State) : (changeP g c s).p = changeFlag g c s.p := rfl

theorem setPc_changeP (w : Word) (s : State) : setPc w (changeP g c s) = changeP g c (setPc w s) := rfl
theorem setSp_changeP (v : Byte) (s : State) : setSp v (changeP g c s) = changeP g c (setSp v s) := rfl
theorem setStatus_changeP (q : Byte) (s : State) :
    setStatus (changeFlag g c q) (changeP g c s) = changeP g c (setStatus q s) := rfl
theorem setAStatus_changeP (v q : Byte) (s : State) :
    setAStatus v (changeFlag g c q) (changeP g c s) = changeP g c (setAStatus v q s) := rfl

theorem writeA_changeP (hg : g.Inert) (v : Byte) (s : State) : writeA v (changeP g c s) = changeP g c (writeA v s) := by
  simp only [writeA, changeP_p, setZN_changeFlag hg]
  rfl

theorem writeX_changeP (hg : g.Inert) (v : Byte) (s : State) : writeX v (changeP g c s) = changeP g c (writeX v s) := by
  simp only [writeX, changeP_p, setZN_changeFlag hg]
  rfl

theorem writeY_changeP (hg : g.Inert) (v : Byte) (s : State) : writeY v (changeP g c s) = changeP g c (writeY v s) := by
  simp only [writeY, changeP_p, setZN_changeFlag hg]
  rfl

/-- The adder reads C and no other flag: the sum is binary whatever D is (R161). -/
theorem adc_changeP (hg : g.Inert) (m : Byte) (s : State) : adc m (changeP g c s) = changeP g c (adc m s) := by
  have hcarry : getFlag (changeFlag g c s.p) .C = getFlag s.p .C := by simp [hg.1]
  simp only [adc, changeP_a, changeP_p, hcarry, sumFlags_changeFlag hg, setAStatus_changeP]

/-! Instructions. -/

/-- An instruction that neither pushes nor replaces P, nor writes D, computes with registers and the other flags only. -/
theorem view_commutes_changeP (hg : g.Inert) (i : Instr) (hi : i.mnemonic ∉ [.PHP, .BRK, .PLP, .RTI, .SED, .CLD]) :
    (view i).Commutes (changeFlag g c) id id := by
  have ⟨hC, hZ, hI, hV, hN⟩ := hg
  cases i with
  | php | brk | plp | rti | sed | cld => exact absurd hi (by decide)
  | _ =>
    simp [view, View.Commutes, relabel_changeFlag, hg, hC, hZ, hI, hV, hN,
      setPc_changeP, setSp_changeP, setStatus_changeP, writeA_changeP, writeX_changeP, writeY_changeP,
      adc_changeP, sbc, andA, oraA, eorA, bitA, bitTestFlags_changeFlag, cmpA, cmpX, cmpY, compareFlags_changeFlag,
      shiftLeft, shiftRight, rotateLeft, rotateRight, shifted_changeFlag, incremented, decremented, setZN_changeFlag,
      setFlag_changeFlag]

/-- B is the bit that a push overwrites and a pull keeps, so the instructions left out above are blind to it too (R39). -/
theorem view_commutes_changeP_B (i : Instr) : (view i).Commutes (changeFlag .B c) id id := by
  cases i with
  | php => exact fun s => pushedByProgram_changeFlag_B s.p
  | brk => exact ⟨pushedByProgram_changeFlag_B, setFlag_changeFlag (by decide) true⟩
  | plp | rti => exact pulledStatus_changeFlag_B
  | sed => exact setFlag_changeFlag (by decide) true
  | cld => exact setFlag_changeFlag (by decide) false
  | _ => exact view_commutes_changeP inert_B _ (by simp [Instr.mnemonic])

/-! Interrupts. -/

theorem pendingVector_changeP (hg : g.Inert) (s : State) : pendingVector (changeP g c s) = pendingVector s := by
  obtain ⟨-, -, hI, -, -⟩ := hg
  have hmask : getFlag (changeFlag g c s.p) .I = getFlag s.p .I := by simp [hI]
  simp only [pendingVector, changeP_p, hmask]
  rfl

theorem takeInterrupt_changeP_B (s : State) :
    takeInterrupt (changeP .B c s) = (takeInterrupt s).map (changeP .B c) := by
  simp only [takeInterrupt, pendingVector_changeP inert_B]
  cases pendingVector s with
  | none => rfl
  | some vector =>
    exact enterHandler_relabel (changeFlag .B c) id id { s with nmi := false } _ _ _ _
      (pushedByInterrupt_changeFlag_B s.p) (setFlag_changeFlag (by decide) true)

theorem step_changeP_B (s : State) : step (changeP .B c s) = mapNext (changeP .B c) (step s) :=
  step_relabel _ _ _ view_commutes_changeP_B takeInterrupt_changeP_B s

end

theorem flipB_eq_changeP : flipB = changeP .B not := by
  have hflip (p : Byte) : p ^^^ 0x10 = changeFlag .B not p := by
    refine status_ext fun f => ?_
    rw [getFlag_changeFlag]
    cases f <;> simp [getFlag, Flag.bit]
  funext s
  simp only [flipB, hflip]
  rfl

/-- Settles O19: flipping B is a change of one flag that neither an interrupt's entry nor an instruction can tell. -/
theorem breakBitIsUnobservable : Obligations.BreakBitIsUnobservable := by
  intro s
  rw [flipB_eq_changeP]
  exact step_changeP_B s

/-- Settles O21: setting D is a change of one flag that no instruction's computation names. -/
theorem decimalFlagChangesNoArithmetic : Obligations.DecimalFlagChangesNoArithmetic := by
  intro i s v hi
  exact exec_relabel _ id id i (view_commutes_changeP inert_D (c := fun _ => v) i hi) s

end Sys2Proof.Machine
end

section
/-! The frame of memory (R66, R157), and the contract of a memory read and written byte by byte (R61 to R73, R81). -/
namespace Sys2Proof.Machine

/-- An operation puts bytes at addresses its access list writes and nowhere else, so every other byte reads as before. -/
theorem Reaches.memRead_of_not_writes {l : List Access} {s t : State} {a : Word} (h : Reaches l s t)
    (hwf : s.mem.wf = true) (ha : writes l a = false) : memRead t a = memRead s a := by
  obtain ⟨cs, hmem, hcs⟩ := h.mem
  have hread : (putAll s.mem cs).read a.toNat = s.mem.read a.toNat := by
    refine putAll_read hwf cs fun c hc => ⟨(hcs c hc).1, ?_⟩
    rintro rfl
    simp [writes, (hcs c hc).2] at ha
  simp only [memRead, hmem, hread]

/-- Settles O15: an instruction and a step each do no more than `Reaches` allows with their own access list. -/
theorem onlyListedWritesChangeMemory : Obligations.OnlyListedWritesChangeMemory :=
  ⟨fun _ _ _ hwf hexec _ ha => (exec_reaches hexec).memRead_of_not_writes hwf ha,
    fun _ _ hwf hrunning hstep _ ha => (step_reaches hrunning hstep).memRead_of_not_writes hwf ha⟩

/-! One byte. -/

/-- A write that succeeds keeps the canonical form (R70). -/
theorem Memory.write_wf {m m' : Memory} {a : Nat} {v : Byte} (hwf : m.wf = true) (h : m.write a v = some m') :
    m'.wf = true := by
  obtain ⟨-, rfl⟩ := Memory.write_eq h
  exact Memory.put_wf hwf

/-- Read after a write that succeeds (R70, R81). -/
theorem Memory.read_write {m m' : Memory} {a : Nat} {v : Byte} (hwf : m.wf = true) (h : m.write a v = some m') (b : Nat) :
    m'.read b = if b = a then some v else m.read b := by
  obtain ⟨hw, rfl⟩ := Memory.write_eq h
  exact Memory.read_put b v hwf (Memory.read_of_writable hw)

/-- Settles O54: the three clauses are the canonical form after a write and the read after it at the two kinds of address. -/
theorem readAfterWrite : Obligations.ReadAfterWrite := by
  intro m m' a v hwf h
  have hread := Memory.read_write hwf h
  exact ⟨Memory.write_wf hwf h, by rw [hread, if_pos rfl], fun b hb => by rw [hread, if_neg hb]⟩

/-- A read succeeds exactly where some store answers, within its size (R61, R63, R72). -/
theorem memRead_succeeds_iff {s : State} {a : Word} :
    (∃ b, memRead s a = .ok b) ↔ ∃ st, s.mem.answering a.toNat = some st ∧ a.toNat < st.size := by
  simp only [memRead_ok, Memory.read]
  cases s.mem.answering a.toNat <;> simp [Store.read]

/-- A write succeeds exactly where the store that answers is flat, within its size (R61, R64, R71, R72). -/
theorem memWrite_succeeds_iff {s : State} {a : Word} {v : Byte} :
    (∃ t, memWrite s a v = .ok t) ↔
      ∃ st, s.mem.answering a.toNat = some st ∧ a.toNat < st.size ∧ st.kind = .flat := by
  simp only [memWrite_ok, exists_and_left, exists_eq, and_true, Memory.writable]
  cases s.mem.answering a.toNat <;> simp [Store.writable, and_comm]

/-- Settles O55: the answering store decides an access, and the port reports the access it was asked for. -/
theorem accessFailsOutOfRangeOrReadOnly : Obligations.AccessFailsOutOfRangeOrReadOnly := by
  intro s a v
  exact ⟨memRead_succeeds_iff, memWrite_succeeds_iff, fun _ h => (memRead_error.mp h).1, fun _ h => (memWrite_error.mp h).1⟩

/-! Blocks and words. -/

/-- A block that is written is its first byte written, and then the rest of it. -/
theorem Memory.setBlock_cons {m m' : Memory} {a : Nat} {v : Byte} {bs : List Byte} :
    m.setBlock a (v :: bs) = some m' ↔ ∃ m1, m.write a v = some m1 ∧ m1.setBlock (a + 1) bs = some m' := by
  rw [Memory.setBlock]
  cases m.write a v <;> simp

/-- A block leaves the addresses before it alone (R69, R73). -/
theorem Memory.read_setBlock_before {m m' : Memory} {a b : Nat} {bs : List Byte} (hwf : m.wf = true)
    (h : m.setBlock a bs = some m') (hb : b < a) : m'.read b = m.read b := by
  induction bs generalizing m a with
  | nil =>
    cases h
    rfl
  | cons v bs ih =>
    obtain ⟨m1, hfirst, hrest⟩ := Memory.setBlock_cons.mp h
    rw [ih (Memory.write_wf hwf hfirst) hrest (by omega), Memory.read_write hwf hfirst, if_neg (by omega)]

/-- A block that is written is read back: its rest by induction, its first byte because the rest lies after it (R69). -/
theorem Memory.readRange_setBlock {m m' : Memory} {a : Nat} {bs : List Byte} (hwf : m.wf = true)
    (h : m.setBlock a bs = some m') : m'.readRange a bs.length = some bs := by
  induction bs generalizing m a with
  | nil => rfl
  | cons v bs ih =>
    obtain ⟨m1, hfirst, hrest⟩ := Memory.setBlock_cons.mp h
    have hwf1 := Memory.write_wf hwf hfirst
    have hv : m'.read a = some v := by
      rw [Memory.read_setBlock_before hwf1 hrest (Nat.lt_succ_self a), Memory.read_write hwf hfirst, if_pos rfl]
    simp only [List.length_cons, Memory.readRange, hv, ih hwf1 hrest]

/-- A word is the one whose value is made of its two bytes (R10). -/
theorem eq_word_iff {w : Word} {hi lo : Byte} : w = word hi lo ↔ w.toNat = hi.toNat * 256 + lo.toNat := by
  rw [← BitVec.toNat_inj, word_toNat]

/-- The contract's word read takes the high byte first (R68). -/
theorem Memory.getWord_eq_some {m : Memory} {a : Nat} {w : Word} :
    m.getWord a = some w ↔ ∃ h l, m.read a = some h ∧ m.read (a + 1) = some l ∧ w = word h l := by
  simp only [Memory.getWord]
  cases m.read a <;> cases m.read (a + 1) <;> simp [eq_comm]

/-- Settles O59: the block read back, the word read by its bytes, and the size of a lone store. -/
theorem blocksAndWords : Obligations.BlocksAndWords := by
  refine ⟨fun m m' a bs hwf h => ?_, fun m a w => ?_, fun m k st => Memory.size_lone⟩
  · rw [Memory.getBlock, Nat.add_sub_cancel_left]
    exact Memory.readRange_setBlock hwf h
  · simp only [Memory.getWord_eq_some, eq_word_iff]

end Sys2Proof.Machine
end

section
/-! Composite memories (R72 to R74): where an address is routed, what a write, an added override and the contract's reset
change. -/
namespace Sys2Proof.Machine

/-! Routing. -/

theorem Memory.route_of_override {m : Memory} {a k : Nat} (h : overrideAt m.overrides a = some k) :
    m.route a = some k := by
  simp only [Memory.route, h]

theorem Memory.route_of_no_override {m : Memory} {a : Nat} (h : overrideAt m.overrides a = none) :
    m.route a = m.base := by
  simp only [Memory.route, h]

theorem Memory.answering_of_route {m : Memory} {a k : Nat} (h : m.route a = some k) : m.answering a = m.stores[k]? := by
  simp only [Memory.answering, h]

theorem Memory.answering_of_no_route {m : Memory} {a : Nat} (h : m.route a = none) : m.answering a = none := by
  simp only [Memory.answering, h]

/-- The store that answers an address is the one it is routed to. -/
theorem Memory.answering_eq_some {m : Memory} {a : Nat} {st : Store} :
    m.answering a = some st ↔ ∃ k, m.route a = some k ∧ m.stores[k]? = some st := by
  cases h : m.route a with
  | none => simp [Memory.answering_of_no_route h]
  | some k => simp [Memory.answering_of_route h]

theorem Memory.read_of_answering {m : Memory} {a : Nat} {st : Store} (h : m.answering a = some st) :
    m.read a = st.read a := by
  simp only [Memory.read, h]

/-- No access succeeds where no store answers (R72). -/
theorem Memory.access_of_no_route {m : Memory} {a : Nat} (h : m.route a = none) :
    m.read a = none ∧ ∀ v, m.write a v = none := by
  have hnone := Memory.answering_of_no_route h
  simp [Memory.read, Memory.write, Memory.writable, hnone]

/-- A write that succeeds puts the byte in the store the address is routed to, and leaves every other store (R72, R73). -/
theorem Memory.write_stores {m m' : Memory} {a : Nat} {v : Byte} (h : m.write a v = some m') :
    ∃ k st, m.route a = some k ∧ m.stores[k]? = some st ∧ m'.stores[k]? = some (st.put a v) ∧
      ∀ j, j ≠ k → m'.stores[j]? = m.stores[j]? := by
  obtain ⟨hw, rfl⟩ := Memory.write_eq h
  obtain ⟨k, st, hroute, hst, -, ha⟩ := (m.writable_iff a).mp hw
  refine ⟨k, st, hroute, hst, ?_, fun j hj => ?_⟩
  · simp [Memory.put, hroute, Memory.modify_store, hst, ha]
  · simp [Memory.put, hroute, Memory.modify_store, hj.symm]

/-- Settles O56: the routing by its cases, and a write as the one store it changes with the mapping it keeps. -/
theorem compositeWriteReachesOneStore : Obligations.CompositeWriteReachesOneStore := by
  intro m a
  refine ⟨fun k => Memory.route_of_override, Memory.route_of_no_override, Memory.access_of_no_route, fun v m' h => ?_⟩
  obtain ⟨k, st, hroute, hst, hput, hother⟩ := Memory.write_stores h
  obtain ⟨-, rfl⟩ := Memory.write_eq h
  obtain ⟨hbase, hover, -⟩ := m.put_map a v
  exact ⟨k, hroute, hother, hbase, hover, st, hst, hput⟩

/-! Adding an override. -/

/-- The inserted override answers its own address and no other. -/
theorem overrideAt_insertOverride (l : List (Nat × Nat)) (a i b : Nat) :
    overrideAt (insertOverride l a i) b = if b = a then some i else overrideAt l b := by
  induction l with
  | nil => simp [insertOverride, overrideAt, eq_comm]
  | cons o r ih =>
    obtain ⟨k, j⟩ := o
    simp only [insertOverride]
    split
    · simp [overrideAt, eq_comm]
    · split
      · rename_i hak
        subst hak
        by_cases hb : b = a
        · simp [overrideAt, hb]
        · simp [overrideAt, hb, Ne.symm hb]
      · rename_i hak
        simp only [overrideAt, ih]
        by_cases hb : b = a
        · simp [hb, Ne.symm hak]
        · simp [hb]

theorem Memory.addOverride_eq {m m' : Memory} {a k : Nat} (h : m.addOverride a k = some m') :
    m' = { m with overrides := insertOverride m.overrides a k } := by
  simp only [Memory.addOverride] at h
  split at h
  · exact (Option.some.inj h).symm
  · cases h

/-- After an override is added, its address is routed to the named store and every other address as before (R74). -/
theorem Memory.route_addOverride {m m' : Memory} {a k : Nat} (h : m.addOverride a k = some m') (b : Nat) :
    m'.route b = if b = a then some k else m.route b := by
  rw [Memory.addOverride_eq h]
  simp only [Memory.route, overrideAt_insertOverride]
  by_cases hb : b = a <;> simp [hb]

/-- Settles O57: an added override is one more entry of the mapping, which routes its own address only. -/
theorem addingAnOverride : Obligations.AddingAnOverride := by
  intro m m' a k hwf h
  have hwf' := Memory.addOverride_wf hwf h
  have hroute := Memory.route_addOverride h
  obtain rfl := Memory.addOverride_eq h
  exact ⟨hwf', rfl, rfl, by rw [hroute, if_pos rfl], fun b hb => by rw [hroute, if_neg hb]⟩

/-! The contract's reset. -/

/-- The stores a composite names are its default and those of its overrides (R74). -/
theorem Memory.mem_backing {m : Memory} {k : Nat} : k ∈ m.backing ↔ m.base = some k ∨ ∃ o ∈ m.overrides, o.2 = k := by
  simp [Memory.backing]

theorem mem_of_overrideAt {l : List (Nat × Nat)} {a k : Nat} (h : overrideAt l a = some k) : (a, k) ∈ l := by
  induction l with
  | nil => cases h
  | cons o r ih =>
    obtain ⟨j, i⟩ := o
    simp only [overrideAt] at h
    split at h
    · rename_i hja
      subst hja
      cases h
      exact List.mem_cons_self
    · exact List.mem_cons_of_mem _ (ih h)

/-- The store an address is routed to is one the composite names. -/
theorem Memory.mem_backing_of_route {m : Memory} {a k : Nat} (h : m.route a = some k) : k ∈ m.backing := by
  rw [Memory.mem_backing]
  cases ho : overrideAt m.overrides a with
  | none => exact .inl (Memory.route_of_no_override ho ▸ h)
  | some j =>
    obtain rfl : j = k := Option.some.inj (Memory.route_of_override ho ▸ h)
    exact .inr ⟨_, mem_of_overrideAt ho, rfl⟩

/-- The contract's reset changes no mapping (R74). -/
theorem Memory.clear_map (m : Memory) : m.clear.base = m.base ∧ m.clear.overrides = m.overrides := by
  rw [Memory.clear]
  generalize m.backing = l
  induction l generalizing m with
  | nil => exact ⟨rfl, rfl⟩
  | cons i r ih => exact ih (m.modify i Store.clear)

theorem Memory.clear_route (m : Memory) (a : Nat) : m.clear.route a = m.route a := by
  obtain ⟨hbase, hover⟩ := m.clear_map
  simp only [Memory.route, hbase, hover]

/-- The store that answers an address is reset (R74). -/
theorem Memory.clear_answering {m : Memory} {a : Nat} {st : Store} (h : m.answering a = some st) :
    m.clear.answering a = some st.clear := by
  obtain ⟨k, hroute, hst⟩ := Memory.answering_eq_some.mp h
  refine Memory.answering_eq_some.mpr ⟨k, m.clear_route a ▸ hroute, ?_⟩
  rw [Memory.clear_store, if_pos (Memory.mem_backing_of_route hroute), hst]
  rfl

theorem Store.clear_kind (st : Store) : st.clear.kind = st.kind := by
  cases h : st.kind <;> simp [Store.clear, h]

theorem Store.clear_size (st : Store) : st.clear.size = st.size := by
  cases h : st.kind <;> simp [Store.clear, h]

/-- A flat store that is reset reads $00 in all its size (R70). -/
theorem Store.clear_read_of_flat {st : Store} {a : Nat} (hflat : st.kind = .flat) (ha : a < st.size) :
    st.clear.read a = some 0 := by
  simp [Store.clear, hflat, Store.read, ha, cellsRead, unlistedByte]

/-- A read-only store that is reset stays as it is (R71). -/
theorem Store.clear_of_readOnly {st : Store} (h : st.kind = .readOnly) : st.clear = st := by
  simp [Store.clear, h]

/-- Settles O58: the reset of a composite is that of each store it names, and the routing stays. -/
theorem contractReset : Obligations.ContractReset := by
  intro m
  obtain ⟨hbase, hover⟩ := m.clear_map
  refine ⟨fun k st hk hst => ?_, fun k hkb hko => ?_, hbase, hover, fun a st hst ha => ?_⟩
  · refine ⟨st.clear, ?_, st.clear_kind, st.clear_size, ?_⟩
    · rw [Memory.clear_store, if_pos (Memory.mem_backing.mpr hk), hst]
      rfl
    · cases hkind : st.kind with
      | flat => exact fun a => Store.clear_read_of_flat hkind
      | readOnly => exact Store.clear_of_readOnly hkind
  · rw [Memory.clear_store, if_neg]
    rw [Memory.mem_backing]
    rintro (hb | ⟨o, ho, he⟩)
    · exact hkb hb
    · exact hko o ho he
  · rw [Memory.read_of_answering (Memory.clear_answering hst)]
    cases hkind : st.kind with
    | flat => exact Store.clear_read_of_flat hkind ha
    | readOnly => rw [Store.clear_of_readOnly hkind, Memory.read_of_answering hst]

end Sys2Proof.Machine
end

section
/-! Decoding and encoding are inverse to each other (R100 to R106): a catalog row pairs operand bytes with the instruction it
makes of them (`Shape.Makes`), `decode` reads exactly such a pair, and every instruction is one of its row's. -/
namespace Sys2Proof

/-- The row's shape makes this instruction of these operand bytes, low byte first (R102). -/
inductive Shape.Makes : Shape → List Byte → Instr → Prop
  | none (i : Instr) : Makes (.none i) [] i
  | byte (f : Byte → Instr) (b : Byte) : Makes (.byte f) [b] (f b)
  | word (f : Word → Instr) (w : Word) : Makes (.word f) [loByte w, hiByte w] (f w)

/-- Two bytes are the operand bytes of the word they form. -/
theorem Shape.Makes.wordOfBytes (f : Word → Instr) (b1 b2 : Byte) :
    (Shape.word f).Makes [b1, b2] (f (Sys2Proof.word b2 b1)) := by
  simpa using Makes.word f (Sys2Proof.word b2 b1)

end Sys2Proof

namespace Sys2Proof.Machine

/-- Any two bytes begin with operand bytes of every shape. -/
theorem shape_makes_of_two_bytes (sh : Shape) (b1 b2 : Byte) : ∃ bs r i, sh.Makes bs i ∧ [b1, b2] = bs ++ r := by
  cases sh with
  | none i => exact ⟨[], [b1, b2], i, .none i, rfl⟩
  | byte f => exact ⟨[b1], [b2], f b1, .byte f b1, rfl⟩
  | word f => exact ⟨[b1, b2], [], f (word b2 b1), .wordOfBytes f b1 b2, rfl⟩

/-- Every instruction is what its opcode's row makes of its operand bytes. -/
theorem rowOf_makes (i : Instr) : ∃ row, rowOf i.opcode = some row ∧ row.shape.Makes i.operand.bytes i := by
  cases i <;> (dsimp only [Instr.opcode]; exact ⟨_, rfl, by constructor⟩)

/-- What a row makes of operand bytes is encoded as the row's opcode byte with those bytes. -/
theorem encode_of_makes {op : Byte} {row : Row} {bs : List Byte} {i : Instr} (h : rowOf op = some row)
    (hm : row.shape.Makes bs i) : encode i = op :: bs := by
  have hs := rowOf_shape h
  generalize row.shape = sh at hm hs
  cases hm with
  | none => exact hs.1
  | byte _ b => exact (hs b).1
  | word _ w => exact (hs w).1

/-- A row makes of its operand bytes what `decode` reads from them (R102, R106). -/
theorem decode_of_makes {op : Byte} {row : Row} {bs : List Byte} {i : Instr} (h : rowOf op = some row)
    (hm : row.shape.Makes bs i) (rest : List Byte) : decode (op :: (bs ++ rest)) = .ok (i, rest) := by
  simp only [decode, h]
  generalize row.shape = sh at hm
  cases hm with
  | none | byte => rfl
  | word f w => simp

/-- Whatever decodes was made by the row of its first byte of the bytes after it. -/
theorem decode_ok {bs rest : List Byte} {i : Instr} (h : decode bs = .ok (i, rest)) :
    ∃ op row os, bs = op :: (os ++ rest) ∧ rowOf op = some row ∧ row.shape.Makes os i := by
  cases bs with
  | nil => cases h
  | cons op bs =>
    simp only [decode] at h
    split at h
    · cases h
    rename_i row hrow
    split at h
    case h_1 hsh => cases h; exact ⟨op, row, [], rfl, hrow, hsh ▸ .none _⟩
    case h_2 b1 _ hsh => cases h; exact ⟨op, row, [b1], rfl, hrow, hsh ▸ .byte _ b1⟩
    case h_3 b1 b2 _ hsh => cases h; exact ⟨op, row, [b1, b2], rfl, hrow, hsh ▸ .wordOfBytes _ b1 b2⟩
    case h_4 => cases h

theorem decode_unknownOpcode_iff {op : Byte} {rest : List Byte} :
    decode (op :: rest) = .error (.unknownOpcode op) ↔ rowOf op = none := by
  cases h : rowOf op with
  | none => simp [decode, h]
  | some row =>
    simp only [decode, h]
    split <;> simp

theorem decode_encode (i : Instr) (rest : List Byte) : decode (encode i ++ rest) = .ok (i, rest) := by
  obtain ⟨row, hrow, hm⟩ := rowOf_makes i
  exact decode_of_makes hrow hm rest

/-- Settles O1: each instruction is what its opcode's row makes of its operand bytes. -/
theorem decodeOfEncodeGivesInstructionBack : Obligations.DecodeOfEncodeGivesInstructionBack :=
  decode_encode

/-- Settles O2: the row that made the instruction encodes it as the bytes it was made of. -/
theorem encodeOfDecodeGivesBytesBack : Obligations.EncodeOfDecodeGivesBytesBack := by
  intro bs rest i h
  obtain ⟨op, row, os, rfl, hrow, hm⟩ := decode_ok h
  rw [encode_of_makes hrow hm, List.cons_append]

/-- Settles O4: the bytes written out are those of the instruction's encoding, which decodes to it. -/
theorem writtenBytesDecode : Obligations.WrittenBytesDecode :=
  ⟨decode_encode (.adcImm 0x01) [], decode_encode (.sbcIndy 0x10) [], decode_encode .aslAcc [],
    decode_encode (.rorAbsx 0x0300) [], decode_encode (.andIndx 0xFF) [], decode_encode (.bitAbs 0x1234) [],
    decode_encode (.cpxZp 0x10) [], decode_encode (.decAbsx 0xABCD) [], decode_encode .dey [], decode_encode (.bcc 0xFE) [],
    decode_encode (.jmpInd 0x30FF) [], decode_encode (.jsr 0x1234) [], decode_encode .brk [0xEA], decode_encode .clv [],
    decode_encode (.ldxZpy 0x10) [], decode_encode .txs []⟩

end Sys2Proof.Machine
end

section
/-! The bytes that are no opcode (R105), and the step that fetches one (R132, R301). -/
namespace Sys2Proof.Machine

/-- R105's bytes, in order, are the byte values for which the opcode map has no entry. -/
theorem filter_rowOf_isNone :
    ((List.range 256).filter fun n => (rowOf (BitVec.ofNat 8 n)).isNone) = unassignedBytes.map BitVec.toNat := by
  decide

theorem mem_unassignedBytes_iff (op : Byte) : op ∈ unassignedBytes ↔ rowOf op = none := by
  have hinj : Function.Injective (BitVec.toNat : Byte → Nat) := fun _ _ => BitVec.eq_of_toNat_eq
  rw [← List.mem_map_of_injective hinj, ← filter_rowOf_isNone, List.mem_filter, List.mem_range, BitVec.ofNat_toNat,
    BitVec.setWidth_eq, Option.isNone_iff_eq_none]
  exact and_iff_right op.isLt

theorem fetch_of_rowOf_none {s : State} {op : Byte} (hop : memRead s s.pc = .ok op) (hrow : rowOf op = none) :
    fetch s = .error (.unknownOpcode op s.pc) := by
  simp only [fetch, fetchByte_ok.mpr hop, hrow]

/-- A failing fetch is the step's fault. -/
theorem step_of_fetch_error {s s1 : State} {f : Fault} (hs : s.faulted = false) (hi : takeInterrupt s = .ok s1)
    (hf : fetch s1 = .error f) : step s = .fault f := by
  simp [step, hs, hi, hf]

/-- With two bytes after it, every byte that has a row decodes to an instruction with that opcode byte. -/
theorem decode_of_rowOf_some {op : Byte} {row : Row} (h : rowOf op = some row) (b1 b2 : Byte) :
    ∃ i r, decode [op, b1, b2] = .ok (i, r) ∧ i.opcode = op := by
  obtain ⟨bs, r, i, hm, hbs⟩ := shape_makes_of_two_bytes row.shape b1 b2
  exact ⟨i, r, hbs ▸ decode_of_makes h hm r, (List.cons.inj (encode_of_makes h hm)).1⟩

/-- Settles O3: the listed bytes are those without a row; any other byte's row makes an instruction of the bytes after it. -/
theorem unassignedBytesAreRejected : Obligations.UnassignedBytesAreRejected := by
  refine ⟨fun op rest => ?_, fun op b1 b2 hop => ?_, fun s s1 op hs hi hop hread => ?_⟩
  · rw [mem_unassignedBytes_iff, decode_unknownOpcode_iff]
  · rw [mem_unassignedBytes_iff, ← ne_eq, Option.ne_none_iff_exists'] at hop
    obtain ⟨row, hrow⟩ := hop
    exact decode_of_rowOf_some hrow b1 b2
  · exact step_of_fetch_error hs hi (fetch_of_rowOf_none hread ((mem_unassignedBytes_iff op).mp hop))

end Sys2Proof.Machine
end

section
/-! An opcode byte and a (mnemonic, mode) pair name one catalog row (R103), and the builder resolves by the
pair (R107, R110). -/
namespace Sys2Proof.Machine

/-- The row of an instruction's opcode byte carries its mnemonic and mode. -/
theorem rowOf_pair {i : Instr} {row : Row} (h : rowOf i.opcode = some row) :
    row.mnemonic = i.mnemonic ∧ row.mode = i.mode := by
  have hrow := (Sys2Proof.Laws.Encoding.every i).1
  rw [Sys2Proof.Laws.Encoding.RowIs, h, Option.map_some, Option.some_inj, Prod.mk.injEq, Prod.mk.injEq] at hrow
  exact hrow.2

/-- The rows of a mnemonic have exactly the modes that its table lists. -/
theorem catalog_modes_perm (m : Mnemonic) :
    ((catalog.filter fun r => r.mnemonic == m).map Row.mode).Perm m.modes := by
  cases m <;> decide

theorem modes_nodup (m : Mnemonic) : m.modes.Nodup := by
  cases m <;> decide

/-- Every declared pair has a row (R103 invariant 3). -/
theorem exists_row_of_mem_modes {m : Mnemonic} {md : Mode} (h : md ∈ m.modes) :
    ∃ r ∈ catalog, r.mnemonic = m ∧ r.mode = md := by
  simpa [and_assoc] using (catalog_modes_perm m).mem_iff.mpr h

/-- No pair has two rows (R103 invariant 2). -/
theorem catalog_pair_inj {r r' : Row} (hr : r ∈ catalog) (hr' : r' ∈ catalog) (hm : r.mnemonic = r'.mnemonic)
    (hmd : r.mode = r'.mode) : r = r' :=
  List.inj_on_of_nodup_map ((catalog_modes_perm r'.mnemonic).nodup_iff.mpr (modes_nodup _))
    (by simp [hr, hm]) (by simp [hr']) hmd

/-- Settles O5: an opcode byte has one row, which carries the pair; a pair has one row, which carries the opcode byte. -/
theorem opcodeAndPairDetermineEachOther : Obligations.OpcodeAndPairDetermineEachOther := by
  intro i j
  obtain ⟨r, hr, -⟩ := rowOf_makes i
  obtain ⟨r', hr', -⟩ := rowOf_makes j
  obtain ⟨him, himd⟩ := rowOf_pair hr
  obtain ⟨hjm, hjmd⟩ := rowOf_pair hr'
  constructor
  · intro h
    obtain rfl : r = r' := Option.some.inj (hr.symm.trans (h ▸ hr'))
    exact ⟨him.symm.trans hjm, himd.symm.trans hjmd⟩
  · rintro ⟨hm, hmd⟩
    obtain rfl := catalog_pair_inj (rowOf_mem hr) (rowOf_mem hr') (by rw [him, hjm, hm]) (by rw [himd, hjmd, hmd])
    exact (rowOf_opcode hr).symm.trans (rowOf_opcode hr')

/-- Each mnemonic is found again in the catalog by its written name. -/
theorem find_mnemonicName (m : Mnemonic) :
    (catalog.find? fun r => mnemonicName r.mnemonic == mnemonicName m).map Row.mnemonic = some m := by
  cases m <;> decide

theorem mnemonicName_injective : Function.Injective mnemonicName := by
  intro m n h
  have hm := find_mnemonicName m
  rw [h, find_mnemonicName n] at hm
  exact (Option.some.inj hm).symm

/-- The lookup by name and mode finds the row of that pair (R107). -/
theorem fromNameMode_of_mem {r : Row} (hr : r ∈ catalog) : fromNameMode (mnemonicName r.mnemonic) r.mode = .ok r := by
  rw [fromNameMode]
  split
  · rename_i r' hfind
    have hr' := List.mem_of_find?_eq_some hfind
    have hp := List.find?_some hfind
    simp only [Bool.and_eq_true, beq_iff_eq] at hp
    rw [catalog_pair_inj hr' hr (mnemonicName_injective hp.1) hp.2]
  · rename_i hnone
    simpa using List.find?_eq_none.mp hnone r hr

theorem operand_value_mem_range (o : Operand) : o.mode.operandMin ≤ o.value ∧ o.value ≤ o.mode.operandMax := by
  have hbyte (b : Byte) : (0 : Int) ≤ b.toNat ∧ (b.toNat : Int) ≤ 255 := by have := b.isLt; omega
  have hword (w : Word) : (0 : Int) ≤ w.toNat ∧ (w.toNat : Int) ≤ 65535 := by have := w.isLt; omega
  cases o with
  | imp | acc => decide
  | imm v => exact hbyte v
  | mem m =>
    cases m with
    | zp b | zpx b | zpy b | indx b | indy b => exact hbyte b
    | abs w | absx w | absy w => exact hword w
  | ind w => exact hword w
  | rel d => exact ⟨BitVec.le_toInt d, Int.le_of_lt_add_one BitVec.toInt_lt⟩

theorem symInstr_wf_iff (y : SymInstr) :
    y.wf = true ↔ y.mode ∈ y.mnemonic.modes ∧ y.mode.operandMin ≤ y.operand ∧ y.operand ≤ y.mode.operandMax := by
  simp [SymInstr.wf, SymInstr.pairLegal, SymInstr.operandAtLeast, SymInstr.operandAtMost, and_assoc]

theorem instr_wf (i : Instr) : i.wf = true := by
  have hpair : i.toSym.pairLegal = true := (Sys2Proof.Laws.Encoding.every i).2.2
  exact (symInstr_wf_iff i.toSym).mpr ⟨by simpa [SymInstr.pairLegal] using hpair, operand_value_mem_range i.operand⟩

theorem ofInt_value_of_bytes_byte {o : Operand} {b : Byte} (h : o.bytes = [b]) : BitVec.ofInt 8 o.value = b := by
  cases o with
  | imp | acc | ind => cases h
  | imm v => cases h; simp [Operand.value]
  | rel d => cases h; exact BitVec.ofInt_toInt
  | mem m => cases m <;> cases h <;> simp [Operand.value]

theorem word_eq_of_bytes {v w : Word} (h : [loByte v, hiByte v] = [loByte w, hiByte w]) : v = w := by
  obtain ⟨hlo, hhi⟩ : loByte v = loByte w ∧ hiByte v = hiByte w := by simpa using h
  rw [← word_hi_lo v, hlo, hhi, word_hi_lo]

theorem ofInt_value_of_bytes_word {o : Operand} {w : Word} (h : o.bytes = [loByte w, hiByte w]) :
    BitVec.ofInt 16 o.value = w := by
  cases o with
  | imp | acc | imm | rel => cases h
  | ind v => simp [Operand.value, word_eq_of_bytes h]
  | mem m =>
    cases m with
    | zp | zpx | zpy | indx | indy => cases h
    | abs v | absx v | absy v => simp [Operand.value, word_eq_of_bytes h]

/-- A well-formed symbolic instruction is resolved to what the row of its pair makes of the operand. -/
theorem assemble_of_wf {y : SymInstr} {r : Row} (hwf : y.wf = true) (hr : r ∈ catalog) (hm : r.mnemonic = y.mnemonic)
    (hmd : r.mode = y.mode) : assemble y = some (rowInstr r y.operand) := by
  rw [assemble, if_pos hwf, ← hm, ← hmd, fromNameMode_of_mem hr]

theorem assemble_isSome (y : SymInstr) : (assemble y).isSome = y.wf := by
  cases hwf : y.wf with
  | false => simp [assemble, hwf]
  | true =>
    obtain ⟨r, hr, hm, hmd⟩ := exists_row_of_mem_modes ((symInstr_wf_iff y).mp hwf).1
    rw [assemble_of_wf hwf hr hm hmd, Option.isSome_some]

/-- The builder's row makes of the operand's number what the decoder's makes of its bytes. -/
theorem rowInstr_of_makes {r : Row} {o : Operand} {i : Instr} (h : r.shape.Makes o.bytes i) : rowInstr r o.value = i := by
  rw [rowInstr]
  generalize hbs : o.bytes = bs at h
  generalize r.shape = sh at h
  cases h with
  | none => rfl
  | byte f b => exact congrArg f (ofInt_value_of_bytes_byte hbs)
  | word f w => exact congrArg f (ofInt_value_of_bytes_word hbs)

/-- Settles O6: the pair's row is the row of the instruction's opcode byte, and every declared pair has one. -/
theorem builderResolvesSymbolicForms : Obligations.BuilderResolvesSymbolicForms := by
  refine ⟨fun i => ?_, assemble_isSome⟩
  obtain ⟨r, hr, hmakes⟩ := rowOf_makes i
  obtain ⟨hm, hmd⟩ := rowOf_pair hr
  rw [assemble_of_wf (instr_wf i) (rowOf_mem hr) hm hmd]
  exact congrArg some (rowInstr_of_makes hmakes)

end Sys2Proof.Machine
end

section
/-! The displacement an assembler stores for a branch (R110, R220). -/
namespace Sys2Proof

theorem signedByte_eq_some {v : Int} {d : Byte} : signedByte v = some d ↔ signed d = v := by
  constructor
  · intro h
    rw [signedByte] at h
    split at h
    · cases h
      rw [signed_eq_toInt, BitVec.toInt_ofInt, Int.bmod_eq_of_le (by omega) (by omega)]
    · cases h
  · rintro rfl
    exact signedByte_signed d

theorem toInt_sext (d : Byte) : (sext d).toInt = signed d := by
  rw [signed_eq_toInt, sext, BitVec.toInt_signExtend_of_le (by decide)]

end Sys2Proof

namespace Sys2Proof.Machine

/-- The stored displacement is the one byte that reaches the target. -/
theorem branchOperand_eq_some {at0 target : Word} {d : Byte} :
    branchOperand at0 target = some d ↔ at0 + 2 + sext d = target := by
  rw [branchOperand, signedByte_eq_some, ← toInt_sext, BitVec.toInt_inj, eq_sub_iff_add_eq, add_comm]

/-- Settles O7: the stored displacement is exactly the byte that reaches the target, whichever byte that is. -/
theorem assembledBranchReachesTarget : Obligations.AssembledBranchReachesTarget := by
  intro at0 target
  exact ⟨fun d => branchOperand_eq_some.mp, by simp only [Option.isSome_iff_exists, branchOperand_eq_some]⟩

end Sys2Proof.Machine
end

section
/-! The effective addresses of the addressing modes (R143 to R151). -/
namespace Sys2Proof.Machine

/-! Zero-page addresses, as the numbers the rules name. -/

theorem zext_eq_ofNat (b : Byte) : zext b = BitVec.ofNat 16 b.toNat := by
  rw [zext, BitVec.ofNat_toNat]

/-- Zero-page sums wrap modulo 256 (R144, R145). -/
theorem zext_add_toNat (b r : Byte) : (zext (b + r)).toNat = (b.toNat + r.toNat) % 256 := by
  rw [zext_toNat, BitVec.toNat_add]

/-- Absolute sums wrap modulo 65536 (R147, R148, R151). -/
theorem add_zext_toNat (w : Word) (r : Byte) : (w + zext r).toNat = (w.toNat + r.toNat) % 65536 := by
  rw [BitVec.toNat_add, zext_toNat]

/-- Settles O22: each direct mode is one sum, in the zero page or in the whole address space. -/
theorem directEffectiveAddresses : Obligations.DirectEffectiveAddresses := by
  intro s b w
  exact ⟨⟨_, rfl, zext_toNat b⟩, ⟨_, rfl, zext_add_toNat b s.x⟩, ⟨_, rfl, zext_add_toNat b s.y⟩, ⟨_, rfl, rfl⟩,
    ⟨_, rfl, add_zext_toNat w s.x⟩, ⟨_, rfl, add_zext_toNat w s.y⟩⟩

/-! Pointers. -/

theorem readPair_of_low_error {s : State} {lo hi : Word} {e : Access} (h : memRead s lo = .error e) :
    readPair s lo hi = .error e := by
  simp only [readPair, h]

theorem readPair_of_high_error {s : State} {lo hi : Word} {v : Byte} {e : Access} (hlo : memRead s lo = .ok v)
    (hhi : memRead s hi = .error e) : readPair s lo hi = .error e := by
  simp only [readPair, hlo, hhi]

/-- The pointer of INDX: two bytes of the zero page, from `b + X` on with wrap (R150). -/
theorem effAddr_indx (b : Byte) (s : State) : effAddr (.indx b) s =
    readPair s (BitVec.ofNat 16 ((b.toNat + s.x.toNat) % 256)) (BitVec.ofNat 16 ((b.toNat + s.x.toNat + 1) % 256)) := by
  have hlo : zext (b + s.x) = BitVec.ofNat 16 ((b.toNat + s.x.toNat) % 256) := by
    rw [zext_eq_ofNat, BitVec.toNat_add]
  have hhi : zext (b + s.x + 1) = BitVec.ofNat 16 ((b.toNat + s.x.toNat + 1) % 256) := by
    rw [zext_eq_ofNat, BitVec.toNat_add, BitVec.toNat_add]
    exact congrArg _ (Nat.mod_add_mod _ _ _)
  rw [← hlo, ← hhi, effAddr]

/-- INDY adds Y to its pointer: two bytes of the zero page, from `b` on with wrap (R151). -/
theorem effAddr_indy (b : Byte) (s : State) : effAddr (.indy b) s =
    (readPair s (BitVec.ofNat 16 b.toNat) (BitVec.ofNat 16 ((b.toNat + 1) % 256))).map (· + zext s.y) := by
  have hhi : zext (b + 1) = BitVec.ofNat 16 ((b.toNat + 1) % 256) := by
    rw [zext_eq_ofNat, BitVec.toNat_add]
    rfl
  rw [← hhi, ← zext_eq_ofNat, effAddr]
  cases readPair s (zext b) (zext (b + 1)) <;> rfl

/-- Settles O23: each mode reads its pointer as a pair, which fails at its first failing byte. -/
theorem indirectEffectiveAddresses : Obligations.IndirectEffectiveAddresses := by
  intro s b lo hi
  rw [effAddr_indx, effAddr_indy]
  refine ⟨fun hlo hhi => ?_, fun hlo hhi => ?_, fun e he => ?_, fun e hlo he => ?_, fun e he => ?_, fun e hlo he => ?_⟩
  · exact ⟨_, readPair_ok.mpr ⟨lo, hi, hlo, hhi, rfl⟩, word_toNat hi lo⟩
  · refine ⟨word hi lo + zext s.y, ?_, ?_⟩
    · rw [readPair_ok.mpr ⟨lo, hi, hlo, hhi, rfl⟩]
      rfl
    · rw [add_zext_toNat, word_toNat]
  · exact readPair_of_low_error he
  · exact readPair_of_high_error hlo he
  · rw [readPair_of_low_error he]
    rfl
  · rw [readPair_of_high_error hlo he]
    rfl

end Sys2Proof.Machine
end

section
/-! A step as the host calls it and runs of steps (R136, R303, R345): where a run stops, and when it is successful. -/
namespace Sys2Proof.Machine

/-! One step. -/

theorem step_of_faulted {s : State} (h : s.faulted = true) : step s = .next s := by
  simp only [step, h, if_true]

theorem hostStep_of_next {s t : State} (h : step s = .next t) : hostStep s = (t, none) := by
  simp only [hostStep, h]

theorem hostStep_of_fault {s : State} {f : Fault} (h : step s = .fault f) : hostStep s = (afterFault s, some f) := by
  simp only [hostStep, h]

/-- A step that reports no fault leaves the fault mark as it was. -/
theorem faulted_of_hostStep_none {s t : State} (h : hostStep s = (t, none)) : t.faulted = s.faulted := by
  cases hstep : step s with
  | next u =>
    cases h.symm.trans (hostStep_of_next hstep)
    obtain ⟨l, hr⟩ := step_keeps hstep
    exact hr.faulted
  | fault f => cases h.symm.trans (hostStep_of_fault hstep)
  | refused r =>
    simp only [hostStep, hstep] at h
    cases h
    rfl

/-! Runs. -/

theorem hostSteps_succ_of_none {s t : State} (n : Nat) (h : hostStep s = (t, none)) :
    hostSteps (n + 1) s = hostSteps n t := by
  simp only [hostSteps, h]

theorem hostSteps_succ_of_some {s t : State} {f : Fault} (n : Nat) (h : hostStep s = (t, some f)) :
    hostSteps (n + 1) s = (t, some f) := by
  simp only [hostSteps, h]

/-- Steps of a halted core do nothing (R130, R303). -/
theorem hostSteps_of_faulted {s : State} (h : s.faulted = true) (n : Nat) : hostSteps n s = (s, none) := by
  induction n with
  | zero => rfl
  | succ n ih => rw [hostSteps_succ_of_none n (hostStep_of_next (step_of_faulted h)), ih]

/-- No run from a halted core is successful (R303, R345). -/
theorem not_safeRun_of_faulted {s : State} (h : s.faulted = true) (n : Nat) : ¬ SafeRun n s := by
  rintro ⟨-, hend⟩
  rw [hostSteps_of_faulted h n, h] at hend
  cases hend

/-- Settles O10: the first test of a step is the fault mark. -/
theorem faultedCoreIsHalted : Obligations.FaultedCoreIsHalted := fun n _ h =>
  ⟨step_of_faulted h, hostSteps_of_faulted h n, not_safeRun_of_faulted h n⟩

/-- A run that reports no fault leaves the fault mark as it was. -/
theorem faulted_of_hostSteps_none {n : Nat} {s : State} (h : (hostSteps n s).2 = none) :
    (hostSteps n s).1.faulted = s.faulted := by
  induction n generalizing s with
  | zero => rfl
  | succ n ih =>
    rcases hs : hostStep s with ⟨t, _ | f⟩
    · rw [hostSteps_succ_of_none n hs] at h ⊢
      rw [ih h, faulted_of_hostStep_none hs]
    · rw [hostSteps_succ_of_some n hs] at h
      cases h

/-- A run is successful exactly when it starts from a core that runs and reports no fault (R345). -/
theorem safeRun_iff (n : Nat) (s : State) : SafeRun n s ↔ s.faulted = false ∧ (hostSteps n s).2 = none := by
  rw [SafeRun, and_comm]
  exact and_congr_left fun hnone => by rw [faulted_of_hostSteps_none hnone]

/-- m + n steps are m steps, then n more unless one of the m faulted (R136). -/
theorem hostSteps_add (m n : Nat) (s : State) : hostSteps (m + n) s = match hostSteps m s with
    | (t, none) => hostSteps n t
    | (t, some f) => (t, some f) := by
  induction m generalizing s with
  | zero =>
    rw [Nat.zero_add]
    rfl
  | succ m ih =>
    rw [Nat.add_right_comm]
    rcases hs : hostStep s with ⟨t, _ | f⟩
    · rw [hostSteps_succ_of_none _ hs, hostSteps_succ_of_none _ hs, ih]
    · rw [hostSteps_succ_of_some _ hs, hostSteps_succ_of_some _ hs]

/-- A reset that faulted leaves the core halted (R341). -/
theorem faulted_of_hostReset_error {s : State} {e : Access} (h : (hostReset s).2 = some e) :
    (hostReset s).1.faulted = true := by
  simp only [hostReset] at h ⊢
  split at h
  · cases h
  · rfl

/-- Settles O12: each clause is one case of a step or of a run; a run's success turns on the mark that steps keep. -/
theorem stepsRunInSequence : Obligations.StepsRunInSequence := by
  refine ⟨fun s t => hostStep_of_next, fun s f h => ⟨_, hostStep_of_fault h, rfl⟩, fun s => rfl,
    fun n s t h => hostSteps_succ_of_none n (hostStep_of_next h), fun n s f h => ?_, hostSteps_add, safeRun_iff,
    fun n s e h => not_safeRun_of_faulted (faulted_of_hostReset_error h) n⟩
  rw [hostStep_of_fault h, hostSteps_succ_of_some n (hostStep_of_fault h)]

end Sys2Proof.Machine
end

section
/-! Every instruction ends as its access list says (R157, R302, R305). -/
namespace Sys2Proof.Machine

theorem Follows.error_of_firstFailing {α : Type} {m : Memory} {l : List Access} {r : Except Access α} {e : Access}
    (h : Follows m l r) (hl : firstFailing m l = some e) : r = .error e := by
  unfold Follows at h
  rwa [hl] at h

theorem Follows.ok_of_firstFailing {α : Type} {m : Memory} {l : List Access} {r : Except Access α}
    (h : Follows m l r) (hl : firstFailing m l = none) : ∃ v, r = .ok v := by
  unfold Follows at h
  rwa [hl] at h

/-- Computing with the value an operation gives makes no access. -/
theorem Follows.map {α β : Type} {m : Memory} {l : List Access} {r : Except Access α} (h : Follows m l r) (f : α → β) :
    Follows m l (r.map f) :=
  follows_map h (fun _ he => he ▸ rfl) fun v hv => ⟨f v, hv ▸ rfl⟩

/-- The operation of each shape follows the accesses R157 lists for it. -/
theorem follows_view (v : View) (s : State) : Follows s.mem (v.accesses s) (v.op s) := by
  cases v with
  | regs | flag | branch | modifyA => exact follows_ok _ _
  | read m f =>
    exact follows_map (follows_load m s) (fun e he => by simp only [View.op, he])
      fun v hv => ⟨f v s, by simp only [View.op, hv]⟩
  | store m v => exact follows_store m (v s) s
  | modify m f => exact follows_modifyTarget m f s
  | jumpInd w =>
    exact follows_map (follows_readPair s w (pointerHigh s.cfg.jmpIndPageWrap w))
      (fun e he => by simp only [View.op, jumpIndirect, indirectTarget, he])
      fun target ht => ⟨setPc target s, by simp only [View.op, jumpIndirect, indirectTarget, ht]⟩
  | push v => exact follows_push (v s) s
  | pullA =>
    exact follows_map (follows_pull s) (fun e he => by simp only [View.op, pullA, he])
      fun (v, t) ht => ⟨writeA v t, by simp only [View.op, pullA, ht]⟩
  | pullP =>
    exact follows_map (follows_pull s) (fun e he => by simp only [View.op, pullP, he])
      fun (v, t) ht => ⟨setStatus (pulledStatus v t.p) t, by simp only [View.op, pullP, ht]⟩
  | call w =>
    exact follows_map (follows_pushWord (returnAddress s.cfg.jsrReturn s.pc) s)
      (fun e he => by simp only [View.op, callTo, he]) fun t ht => ⟨setPc w t, by simp only [View.op, callTo, ht]⟩
  | ret =>
    exact follows_map (follows_pullWord s) (fun e he => by simp only [View.op, returnFromCall, he])
      fun (w, t) ht => ⟨setPc (resumeAddress s.cfg.jsrReturn w) t, by simp only [View.op, returnFromCall, ht]⟩
  | brk => exact follows_enterHandler (s.pc + 1) (pushedByProgram s.p) s.cfg.brkVector s
  | rti => exact follows_returnFromHandler s

/-- Settles O13: an instruction is its shape's operation, which follows the instruction's access list. -/
theorem instructionEndsAsItsAccessesDo : Obligations.InstructionEndsAsItsAccessesDo := by
  intro i s
  have hf : Follows s.mem (dataAccesses i s) ((view i).op s) := dataAccesses_eq i s ▸ follows_view (view i) s
  refine ⟨fun e he => ?_, fun hnone => ?_⟩
  · rw [FaultsAt, exec_eq_conclude, conclude_fault]
    exact ⟨e, hf.error_of_firstFailing he, rfl⟩
  · obtain ⟨t, ht⟩ := hf.ok_of_firstFailing hnone
    exact ⟨t, by rw [exec_eq_conclude, conclude_next, ht]⟩

end Sys2Proof.Machine
end

section
/-! A fetch and a step end as their access lists say (R131 to R134, R157, R302, R305). -/
namespace Sys2Proof.Machine

/-! A read at the head of an access list. -/

theorem firstFailing_of_read_ok {s : State} {a : Word} {v : Byte} (h : memRead s a = .ok v) (l : List Access) :
    firstFailing s.mem (readOf a :: l) = firstFailing s.mem l := by
  have hallowed : s.mem.allows (readOf a) = true := by simp [Memory.allows, readOf, memRead_ok.mp h]
  rw [firstFailing_cons, if_pos hallowed]

theorem firstFailing_of_read_error {s : State} {a : Word} {e : Access} (h : memRead s a = .error e) (l : List Access) :
    firstFailing s.mem (readOf a :: l) = some (readOf a) := by
  obtain ⟨rfl, hno⟩ := memRead_error.mp h
  rw [firstFailing_cons, readOf, hno]
  rfl

/-! The operand bytes of a fetch. -/

/-- The operand-byte reads of an entry, by its shape (R102, R133). -/
def operandReads (s : State) : Shape → List Access
  | .none _ => []
  | .byte _ => [readOf (s.pc + 1)]
  | .word _ => [readOf (s.pc + 1), readOf (s.pc + 2)]

/-- The instruction an entry makes of the operand bytes after the opcode byte, or the read that fails. -/
def readOperands (s : State) : Shape → Except Access Instr
  | .none i => .ok i
  | .byte f => (memRead s (s.pc + 1)).map f
  | .word f => (readPair s (s.pc + 1) (s.pc + 2)).map f

theorem follows_readOperands (s : State) (sh : Shape) : Follows s.mem (operandReads s sh) (readOperands s sh) := by
  cases sh with
  | none i => exact follows_ok _ i
  | byte f => exact (follows_read s (s.pc + 1)).map f
  | word f => exact (follows_readPair s (s.pc + 1) (s.pc + 2)).map f

/-- Operand bytes found in order after the opcode byte make the instruction. -/
theorem readOperands_of_makes {s : State} {sh : Shape} {os : List Byte} {i : Instr} (hm : sh.Makes os i)
    (hread : ∀ (k : Nat) (b : Byte), os[k]? = some b → memRead s (s.pc + BitVec.ofNat 16 (k + 1)) = .ok b) :
    readOperands s sh = .ok i := by
  cases hm with
  | none => rfl
  | byte f b =>
    have h1 : memRead s (s.pc + 1) = .ok b := hread 0 b rfl
    simp only [readOperands, h1, Except.map]
  | word f w =>
    have h1 : memRead s (s.pc + 1) = .ok (loByte w) := hread 0 _ rfl
    have h2 : memRead s (s.pc + 2) = .ok (hiByte w) := hread 1 _ rfl
    simp only [readOperands, readPair_ok.mpr ⟨_, _, h1, h2, rfl⟩, Except.map, word_hi_lo]

/-! The fetch. -/

/-- The catalog's mode lengths give a fetch the operand reads of its entry's shape. -/
theorem fetchAccesses_of_row {s : State} {op : Byte} {row : Row} (hop : memRead s s.pc = .ok op)
    (hrow : rowOf op = some row) : fetchAccesses s = readOf s.pc :: operandReads s row.shape := by
  have hlen := rowOf_length hrow
  simp only [fetchAccesses, hop, hrow]
  cases hsh : row.shape with
  | none | byte | word =>
    rw [hsh] at hlen
    simp only [hlen.1, operandReads]

/-- After the opcode byte of an entry, a fetch reads the entry's operand bytes and moves PC past them (R133, R134). -/
theorem fetch_of_row {s : State} {op : Byte} {row : Row} (hop : memRead s s.pc = .ok op) (hrow : rowOf op = some row) :
    fetch s = ((readOperands s row.shape).mapError fun e => .memoryFault e.addr e.kind s.pc).map
      fun i => (i, setPc (s.pc + BitVec.ofNat 16 row.mode.length) s) := by
  have hlen := rowOf_length hrow
  simp only [fetch, fetchByte_ok.mpr hop, hrow]
  cases hsh : row.shape with
  | none i =>
    rw [hsh] at hlen
    rw [hlen.1]
    rfl
  | byte f =>
    rw [hsh] at hlen
    simp only [hlen.1, fetchByte, readOperands]
    cases memRead s (s.pc + 1) <;> rfl
  | word f =>
    rw [hsh] at hlen
    simp only [hlen.1, fetchByte, readOperands, readPair]
    cases memRead s (s.pc + 1) with
    | error e => rfl
    | ok b1 => cases memRead s (s.pc + 2) <;> rfl

theorem fetchAccesses_of_error {s : State} {e : Access} (h : memRead s s.pc = .error e) :
    fetchAccesses s = [readOf s.pc] := by
  simp only [fetchAccesses, h]

theorem fetchAccesses_of_rowOf_none {s : State} {op : Byte} (hop : memRead s s.pc = .ok op) (hrow : rowOf op = none) :
    fetchAccesses s = [readOf s.pc] := by
  simp only [fetchAccesses, hop, hrow]

/-- The first read of a fetch that the memory does not allow is its fault. -/
theorem fetch_of_firstFailing {s : State} {e : Access} (h : firstFailing s.mem (fetchAccesses s) = some e) :
    fetch s = .error (.memoryFault e.addr e.kind s.pc) := by
  cases hop : memRead s s.pc with
  | error e' =>
    rw [fetchAccesses_of_error hop, firstFailing_of_read_error hop] at h
    cases h
    simp only [fetch, fetchByte_of_error hop, readOf]
  | ok op =>
    cases hrow : rowOf op with
    | none =>
      rw [fetchAccesses_of_rowOf_none hop hrow, firstFailing_of_read_ok hop] at h
      cases h
    | some row =>
      rw [fetchAccesses_of_row hop hrow, firstFailing_of_read_ok hop] at h
      rw [fetch_of_row hop hrow, (follows_readOperands s row.shape).error_of_firstFailing h]
      rfl

/-- When the memory allows every read of a fetch, it gives an instruction or finds an unassigned byte (R132). -/
theorem fetch_of_all_allowed {s : State} (h : firstFailing s.mem (fetchAccesses s) = none) :
    (∃ i t, fetch s = .ok (i, t)) ∨ ∃ op ∈ unassignedBytes, fetch s = .error (.unknownOpcode op s.pc) := by
  cases hop : memRead s s.pc with
  | error e =>
    rw [fetchAccesses_of_error hop, firstFailing_of_read_error hop] at h
    cases h
  | ok op =>
    cases hrow : rowOf op with
    | none => exact .inr ⟨op, (mem_unassignedBytes_iff op).mpr hrow, fetch_of_rowOf_none hop hrow⟩
    | some row =>
      rw [fetchAccesses_of_row hop hrow, firstFailing_of_read_ok hop] at h
      obtain ⟨i, hi⟩ := (follows_readOperands s row.shape).ok_of_firstFailing h
      exact .inl ⟨i, _, by rw [fetch_of_row hop hrow, hi]; rfl⟩

/-! The step, by its parts. -/

theorem step_of_interrupt_error {s : State} {e : Access} (hs : s.faulted = false) (hi : takeInterrupt s = .error e) :
    step s = .fault (.memoryFault e.addr e.kind s.pc) := by
  simp [step, hs, hi]

/-- The step that fetches an instruction runs it. -/
theorem step_of_fetch {s s1 s2 : State} {i : Instr} (hs : s.faulted = false) (hi : takeInterrupt s = .ok s1)
    (hf : fetch s1 = .ok (i, s2)) : step s = exec i s2 := by
  simp [step, hs, hi, hf]

/-- Settles O8: the bytes that decode to an instruction are what the fetch reads, opcode first. -/
theorem stepRunsDecodedInstruction : Obligations.StepRunsDecodedInstruction := by
  refine ⟨fun s s1 bs i hs hi hdec hread => ?_, fun s hno => takeInterrupt_of_none (pendingVector_of_not_hasIrqNmi hno)⟩
  obtain ⟨op, row, os, rfl, hrow, hm⟩ := decode_ok hdec
  have hop : memRead s1 s1.pc = .ok op := by simpa using hread 0 op rfl
  have hos : readOperands s1 row.shape = .ok i :=
    readOperands_of_makes hm fun k b hk => hread (k + 1) b (by simpa using hk)
  have hfetch : fetch s1 = .ok (i, setPc (s1.pc + BitVec.ofNat 16 row.mode.length) s1) := by
    rw [fetch_of_row hop hrow, hos]
    rfl
  rw [step_of_fetch hs hi hfetch, (fetch_ok hfetch).1, setPc]

/-- The reads of the fetch of an instruction longer than one byte: its opcode, the first operand byte, and in a
three-byte instruction the second. -/
theorem fetchAccesses_of_opcode {s : State} {i : Instr} (hop : memRead s s.pc = .ok i.opcode) (hlen : 2 ≤ i.length) :
    fetchAccesses s = readOf s.pc :: readOf (s.pc + 1) :: if i.length = 3 then [readOf (s.pc + 2)] else [] := by
  obtain ⟨row, hrow, hmode⟩ := rowOf_instr i
  have hi : row.mode.length = i.length := congrArg Mode.length hmode
  have hr := rowOf_length hrow
  rw [fetchAccesses_of_row hop hrow, ← hi]
  cases hsh : row.shape with
  | none =>
    rw [hsh] at hr
    omega
  | byte | word =>
    rw [hsh] at hr
    simp only [hr.1, operandReads]
    rfl

/-- Settles O9: the failing read is the first of the fetch's list that the memory does not allow. -/
theorem fetchFaults : Obligations.FetchFaults := by
  intro s s1 hs hi
  refine ⟨fun e he => ?_, fun i e hop hlen he => ?_, fun i b1 e hop hlen h1 he => ?_⟩
  · refine step_of_fetch_error hs hi (fetch_of_firstFailing (e := readOf s1.pc) ?_)
    rw [fetchAccesses_of_error he, firstFailing_of_read_error he]
  · refine step_of_fetch_error hs hi (fetch_of_firstFailing (e := readOf (s1.pc + 1)) ?_)
    rw [fetchAccesses_of_opcode hop hlen, firstFailing_of_read_ok hop, firstFailing_of_read_error he]
  · refine step_of_fetch_error hs hi (fetch_of_firstFailing (e := readOf (s1.pc + 2)) ?_)
    rw [fetchAccesses_of_opcode hop (by omega), if_pos hlen, firstFailing_of_read_ok hop, firstFailing_of_read_ok h1,
      firstFailing_of_read_error he]

/-! A whole step. -/

/-- The accesses of a pending interrupt's entry; none when nothing is pending. -/
def interruptAccesses (s : State) : List Access := (pendingVector s).elim [] (entryAccesses s.sp)

theorem follows_takeInterrupt (s : State) : Follows s.mem (interruptAccesses s) (takeInterrupt s) := by
  unfold interruptAccesses takeInterrupt
  cases pendingVector s with
  | none => exact follows_ok _ s
  | some vector => exact follows_enterHandler s.pc (pushedByInterrupt s.p) vector { s with nmi := false }

theorem stepAccesses_of_interrupt_error {s : State} {e : Access} (hi : takeInterrupt s = .error e) :
    stepAccesses s = interruptAccesses s := by
  unfold stepAccesses interruptAccesses
  cases hp : pendingVector s with
  | none =>
    rw [takeInterrupt_of_none hp] at hi
    cases hi
  | some vector => simp [hi]

theorem stepAccesses_of_interrupt_ok {s s1 : State} (hi : takeInterrupt s = .ok s1) :
    stepAccesses s = interruptAccesses s ++ instrAccesses s1 := by
  unfold stepAccesses interruptAccesses
  cases hp : pendingVector s with
  | none =>
    rw [takeInterrupt_of_none hp] at hi
    cases hi
    rfl
  | some vector => simp [hi]

theorem Reaches.allows {l : List Access} {s t : State} (h : Reaches l s t) (acc : Access) :
    t.mem.allows acc = s.mem.allows acc := by
  obtain ⟨cs, hmem, -⟩ := h.mem
  rw [hmem, putAll_allows]

/-- How the instruction part of a step, taken in `s1`, ends by its access list. -/
theorem step_of_instrAccesses {s s1 : State} (hs : s.faulted = false) (hi : takeInterrupt s = .ok s1) :
    (∀ e, firstFailing s1.mem (instrAccesses s1) = some e → ∃ pc0, step s = .fault (.memoryFault e.addr e.kind pc0)) ∧
    (firstFailing s1.mem (instrAccesses s1) = none →
      (∃ t, step s = .next t) ∨ ∃ op pc0, step s = .fault (.unknownOpcode op pc0) ∧ op ∈ unassignedBytes) := by
  rw [instrAccesses, firstFailing_append]
  cases hff : firstFailing s1.mem (fetchAccesses s1) with
  | some e =>
    refine ⟨fun e' he => ?_, nofun⟩
    cases he
    exact ⟨s1.pc, step_of_fetch_error hs hi (fetch_of_firstFailing hff)⟩
  | none =>
    rcases fetch_of_all_allowed hff with ⟨i, s2, hf⟩ | ⟨op, hop, hf⟩
    · have hmem : s2.mem = s1.mem := by rw [(fetch_ok hf).1, setPc_mem]
      obtain ⟨hfault, hnext⟩ := instructionEndsAsItsAccessesDo i s2
      rw [hmem] at hfault hnext
      simp only [hf, step_of_fetch hs hi hf]
      exact ⟨fun e he => ⟨opcodeAt i s2, hfault e he⟩, fun hno => .inl (hnext hno)⟩
    · simp only [hf, step_of_fetch_error hs hi hf]
      exact ⟨nofun, fun _ => .inr ⟨op, s1.pc, rfl, hop⟩⟩

/-- Settles O14: the interrupt's entry, the fetch and the instruction each end as their part of the list says. -/
theorem stepEndsAsItsAccessesDo : Obligations.StepEndsAsItsAccessesDo := by
  intro s hs
  have hint := follows_takeInterrupt s
  cases hff : firstFailing s.mem (interruptAccesses s) with
  | some e =>
    have hi := hint.error_of_firstFailing hff
    rw [stepAccesses_of_interrupt_error hi, hff]
    refine ⟨fun e' he => ?_, nofun⟩
    cases he
    exact ⟨s.pc, step_of_interrupt_error hs hi⟩
  | none =>
    obtain ⟨s1, hi⟩ := hint.ok_of_firstFailing hff
    rw [stepAccesses_of_interrupt_ok hi, firstFailing_append, hff,
      ← firstFailing_congr (takeInterrupt_reaches hi).allows]
    exact step_of_instrAccesses hs hi

end Sys2Proof.Machine
end

section
/-! The encodings of a mnemonic (R104): they are the rows that the catalog has for it. -/
namespace Sys2Proof.Machine

theorem map_rowOf_catalog : catalog.map (fun r => rowOf r.opcode) = catalog.map some := by
  rfl

/-- The decoder finds each row of the catalog by the row's opcode byte. -/
theorem rowOf_of_mem {r : Row} (hr : r ∈ catalog) : rowOf r.opcode = some r :=
  List.map_inj_left.mp map_rowOf_catalog r hr

/-- Every row of the catalog is the row of some instruction. -/
theorem exists_instr_of_mem_catalog {r : Row} (hr : r ∈ catalog) :
    ∃ i : Instr, i.mnemonic = r.mnemonic ∧ i.mode = r.mode ∧ i.opcode = r.opcode := by
  obtain ⟨bs, -, i, hmakes, -⟩ := shape_makes_of_two_bytes r.shape 0 0
  have hrow := rowOf_of_mem hr
  have hop : i.opcode = r.opcode := (List.cons.inj (encode_of_makes hrow hmakes)).1
  obtain ⟨hm, hmd⟩ := rowOf_pair (hop ▸ hrow)
  exact ⟨i, hm.symm, hmd.symm, hop⟩

/-- The modes and opcode bytes of the catalog's rows for a mnemonic. -/
def catalogEncodings (m : Mnemonic) : List (Mode × Byte) :=
  (catalog.filter fun r => r.mnemonic == m).map fun r => (r.mode, r.opcode)

theorem mem_catalogEncodings {m : Mnemonic} {md : Mode} {op : Byte} :
    (md, op) ∈ catalogEncodings m ↔ ∃ r ∈ catalog, r.mnemonic = m ∧ r.mode = md ∧ r.opcode = op := by
  simp [catalogEncodings, and_assoc]

theorem hasOpcodes_catalogEncodings (m : Mnemonic) : HasOpcodes m (catalogEncodings m) := by
  intro md op
  rw [mem_catalogEncodings]
  constructor
  · rintro ⟨r, hr, rfl, rfl, rfl⟩
    obtain ⟨i, hm, hmd, hop⟩ := exists_instr_of_mem_catalog hr
    exact ⟨i, hm, hmd, i.operand.bytes, by rw [encode, hop]⟩
  · rintro ⟨i, rfl, rfl, bs, henc⟩
    obtain ⟨row, hrow, -⟩ := rowOf_makes i
    obtain ⟨hm, hmd⟩ := rowOf_pair hrow
    have hop : i.opcode = op := (List.cons.inj henc).1
    exact ⟨row, rowOf_mem hrow, hm, hmd, (rowOf_opcode hrow).trans hop⟩

theorem hasOpcodes_of_perm {m : Mnemonic} {codes : List (Mode × Byte)} (h : codes.Perm (catalogEncodings m)) :
    HasOpcodes m codes := fun md op => h.mem_iff.trans (hasOpcodes_catalogEncodings m md op)

end Sys2Proof.Machine
end

section
/-! The instructions that read an operand (R153): each computes its mnemonic's function of the byte read, and faults at the
read that fails. -/
namespace Sys2Proof.Machine

/-! Reading an operand. -/

theorem kind_of_memRead_error {s : State} {a : Word} {e : Access} (h : memRead s a = .error e) : e.kind = .read := by
  obtain ⟨rfl, -⟩ := memRead_error.mp h
  rfl

theorem kind_of_readPair_error {s : State} {lo hi : Word} {e : Access} (h : readPair s lo hi = .error e) :
    e.kind = .read := by
  cases hlo : memRead s lo with
  | error e' =>
    obtain rfl : e' = e := Except.error.inj ((readPair_of_low_error hlo).symm.trans h)
    exact kind_of_memRead_error hlo
  | ok v =>
    cases hhi : memRead s hi with
    | error e' =>
      obtain rfl : e' = e := Except.error.inj ((readPair_of_high_error hlo hhi).symm.trans h)
      exact kind_of_memRead_error hhi
    | ok w => cases (readPair_ok.mpr ⟨v, w, hlo, hhi, rfl⟩).symm.trans h

/-- An effective address is missed only at a pointer read (R150, R151). -/
theorem kind_of_effAddr_error {m : MemArg} {s : State} {e : Access} (h : effAddr m s = .error e) : e.kind = .read := by
  cases m with
  | zp | zpx | zpy | abs | absx | absy => cases h
  | indx b => exact kind_of_readPair_error h
  | indy b =>
    rw [effAddr] at h
    split at h
    next => cases h
    next e' hptr =>
      cases h
      exact kind_of_readPair_error hptr

theorem operandReads_mem_iff {m : MemArg} {s : State} {v : Byte} : OperandReads (.mem m) s v ↔ load m s = .ok v := by
  cases hea : effAddr m s <;> simp [OperandReads, load, hea]

theorem operandFails_mem_iff {m : MemArg} {s : State} {e : Access} :
    OperandFails (.mem m) s e ↔ load m s = .error e := by
  cases hea : effAddr m s <;> simp [OperandFails, load, hea]

theorem kind_of_operandFails {o : Operand} {s : State} {e : Access} (h : OperandFails o s e) : e.kind = .read := by
  cases o with
  | imp | acc | imm | ind | rel => exact h.elim
  | mem m =>
    rcases h with hptr | ⟨ea, -, hread⟩
    · exact kind_of_effAddr_error hptr
    · exact kind_of_memRead_error hread

/-! The instructions. -/

/-- What a mnemonic whose instructions read an operand computes of the byte read. -/
def readFn : Mnemonic → Option (Byte → State → State)
  | .ADC => some adc
  | .SBC => some sbc
  | .AND => some andA
  | .ORA => some oraA
  | .EOR => some eorA
  | .BIT => some bitA
  | .CMP => some cmpA
  | .CPX => some cmpX
  | .CPY => some cmpY
  | .LDA => some writeA
  | .LDX => some writeX
  | .LDY => some writeY
  | _ => none

/-- The shape, with its operand, of an instruction that computes `f` of the byte it reads. -/
inductive ReadsInto (f : Byte → State → State) : Operand → View → Prop
  | imm (v : Byte) : ReadsInto f (.imm v) (.regs (f v))
  | mem (m : MemArg) : ReadsInto f (.mem m) (.read m f)

theorem readsInto_of_readFn {i : Instr} {f : Byte → State → State} (h : readFn i.mnemonic = some f) :
    ReadsInto f i.operand (view i) := by
  cases i <;> cases h <;> constructor

theorem ReadsInto.op_of_reads {f : Byte → State → State} {o : Operand} {w : View} {s : State} {v : Byte}
    (h : ReadsInto f o w) (hv : OperandReads o s v) : w.op s = .ok (f v s) := by
  cases h with
  | imm u =>
    obtain rfl : v = u := hv
    rfl
  | mem m => simp only [View.op, operandReads_mem_iff.mp hv]

theorem ReadsInto.op_of_fails {f : Byte → State → State} {o : Operand} {w : View} {s : State} {e : Access}
    (h : ReadsInto f o w) (he : OperandFails o s e) : w.op s = .error e := by
  cases h with
  | imm u => exact he.elim
  | mem m => simp only [View.op, operandFails_mem_iff.mp he]

/-- A mnemonic follows the rule of reading when what it computes of the byte read has the effect. -/
theorem readRule_of_readFn {m : Mnemonic} {codes : List (Mode × Byte)} {effect : State → Byte → State → Prop}
    {f : Byte → State → State} (hcodes : HasOpcodes m codes) (hf : readFn m = some f)
    (heffect : ∀ s v, effect s v (f v s)) : ReadRule m codes effect := by
  have hreads {i : Instr} (him : i.mnemonic = m) : ReadsInto f i.operand (view i) := readsInto_of_readFn (him.symm ▸ hf)
  refine ⟨hcodes, fun i s v him hv => ⟨f v s, ?_, heffect s v⟩, fun i s e him he => ⟨kind_of_operandFails he, ?_⟩⟩
  · rw [exec_eq_conclude, conclude_next, (hreads him).op_of_reads hv]
  · rw [FaultsAt, exec_eq_conclude, conclude_fault]
    exact ⟨e, (hreads him).op_of_fails he, rfl⟩

end Sys2Proof.Machine
end

section
/-! ADC and SBC (R170, R171): the adder's overflow is that of the signed sum, and subtracting a byte is adding its one's
complement. -/
namespace Sys2Proof

theorem signBit_eq (b : Byte) : b.getLsbD 7 = decide (128 ≤ b.toNat) := by
  simpa [BitVec.msb_eq_getLsbD_last] using BitVec.msb_eq_decide b

theorem signed_eq_toNat (b : Byte) : signed b = if 128 ≤ b.toNat then (b.toNat : Int) - 256 else b.toNat := by
  simp only [signed_eq_ite, signBit_eq, decide_eq_true_eq]

theorem toNat_complement (b : Byte) : (b ^^^ 0xFF).toNat = 255 - b.toNat := by
  rw [show b ^^^ 0xFF = ~~~b from BitVec.xor_allOnes, BitVec.toNat_not]

theorem signed_complement (b : Byte) : signed (b ^^^ 0xFF) = -1 - signed b := by
  have := b.isLt
  rw [signed_eq_toNat, signed_eq_toNat, toNat_complement]
  omega

end Sys2Proof

namespace Sys2Proof.Machine

theorem addWithCarry_carry (a m : Byte) (c : Bool) :
    (addWithCarry a m c).carry = decide (a.toNat + m.toNat + c.toNat > 255) := rfl

theorem addWithCarry_overflow_eq (a m : Byte) (c : Bool) : (addWithCarry a m c).overflow =
    ((a.getLsbD 7 ^^ (addWithCarry a m c).value.getLsbD 7) && (m.getLsbD 7 ^^ (addWithCarry a m c).value.getLsbD 7)) := by
  simp [addWithCarry]

/-- Both operands have the sign that the result has not exactly when the signed sum leaves [-128,127]. -/
theorem addWithCarry_overflow (a m : Byte) (c : Bool) : (addWithCarry a m c).overflow = true ↔
    signed a + signed m + c.toNat < -128 ∨ 127 < signed a + signed m + c.toNat := by
  have ha := a.isLt
  have hm := m.isLt
  have hc := c.toNat_le
  have hr := addWithCarry_value a m c
  simp only [addWithCarry_overflow_eq, signBit_eq, signed_eq_toNat, Bool.and_eq_true, bne_iff_ne, ne_eq, decide_eq_decide]
  omega

theorem znFrom_sumFlags (r : AluSum) (p : Byte) : ZNFrom r.value (sumFlags r p) := by
  simp [ZNFrom, getFlag_sumFlags]

theorem flagsKept_sumFlags (r : AluSum) (p : Byte) : FlagsKept p (sumFlags r p) [.C, .Z, .V, .N] := by
  intro f hf
  simp only [List.mem_cons, List.not_mem_nil, or_false, not_or] at hf
  simp [getFlag_sumFlags, hf]

theorem addEffect_adc (s : State) (v : Byte) : AddEffect s v (adc v s) := by
  refine ⟨addWithCarry_value _ _ _, ?_, ?_, znFrom_sumFlags _ _, flagsKept_sumFlags _ _, rfl⟩
  · simp [adc, getFlag_sumFlags, addWithCarry_carry]
  · simp [adc, getFlag_sumFlags, addWithCarry_overflow]

/-- Adding a byte's one's complement subtracts the byte: A + (255 - v) + C is A - v - (1 - C) + 256. -/
theorem subtractEffect_of_addEffect {s t : State} {v : Byte} (h : AddEffect s (v ^^^ 0xFF) t) : SubtractEffect s v t := by
  obtain ⟨ha, hcarry, hoverflow, hrest⟩ := h
  have hv := v.isLt
  have hc := (getFlag s.p .C).toNat_le
  rw [toNat_complement] at ha hcarry
  rw [signed_complement] at hoverflow
  refine ⟨by omega, ?_, hoverflow.trans ?_, hrest⟩
  · rw [hcarry, decide_eq_true_eq]
    omega
  · omega

/-- Settles O24: the adder's value, carry and overflow are those of the exact sum (`addWithCarry` is the model's adder, so the
theorem has a name of its own). -/
theorem adcAddsWithCarry : Obligations.AddWithCarry :=
  readRule_of_readFn (hasOpcodes_of_perm (by decide)) rfl addEffect_adc

/-- Settles O25: SBC adds the operand's one's complement. -/
theorem subtractWithBorrow : Obligations.SubtractWithBorrow :=
  readRule_of_readFn (hasOpcodes_of_perm (by decide)) rfl
    fun s v => subtractEffect_of_addEffect (addEffect_adc s (v ^^^ 0xFF))

end Sys2Proof.Machine
end

section
/-! The instructions that modify a target in place (R141, R155): each computes its mnemonic's function of the byte read and of
P, and faults at the read that fails or, after it, at the write that does. -/
namespace Sys2Proof.Machine

/-! A target in memory. -/

theorem modifyTarget_ok {m : MemArg} {f : Byte → Byte → Shifted} {s : State} {ea : Word} {v : Byte}
    (hea : effAddr m s = .ok ea) (hv : memRead s ea = .ok v) (hw : s.mem.writable ea.toNat = true) :
    modifyTarget m f s = .ok (setStatus (f v s.p).status (setMem (s.mem.put ea.toNat (f v s.p).value) s)) := by
  simp only [modifyTarget, hea, hv, memWrite_of_writable _ hw]

theorem modifyTarget_of_read_error {m : MemArg} {f : Byte → Byte → Shifted} {s : State} {ea : Word} {e : Access}
    (hea : effAddr m s = .ok ea) (he : memRead s ea = .error e) : modifyTarget m f s = .error e := by
  simp only [modifyTarget, hea, he]

theorem modifyTarget_of_not_writable {m : MemArg} {f : Byte → Byte → Shifted} {s : State} {ea : Word} {v : Byte}
    (hea : effAddr m s = .ok ea) (hv : memRead s ea = .ok v) (hw : s.mem.writable ea.toNat = false) :
    modifyTarget m f s = .error { addr := ea, kind := .write } := by
  simp only [modifyTarget, hea, hv, memWrite_of_not_writable _ hw]

/-! The instructions. -/

/-- What a mnemonic whose instructions modify a target computes of the byte read and of P. -/
def modifyFn : Mnemonic → Option (Byte → Byte → Shifted)
  | .ASL => some shiftLeft
  | .LSR => some shiftRight
  | .ROL => some rotateLeft
  | .ROR => some rotateRight
  | .INC => some incremented
  | .DEC => some decremented
  | _ => none

theorem view_of_modifyFn {i : Instr} {f : Byte → Byte → Shifted} {o : MemArg} (hf : modifyFn i.mnemonic = some f)
    (ho : i.operand = .mem o) : view i = .modify o f := by
  cases i <;> cases hf <;> cases ho <;> rfl

/-- The computation makes `r` of the byte and of the carry in, Z and N from the result and of the other written flags what
`flags` says; it keeps every flag not in `wr`. -/
structure Modifies (f : Byte → Byte → Shifted) (r : Nat → Nat → Nat) (wr : List Flag) (flags : Byte → Byte → Prop) :
    Prop where
  value : ∀ v p, (f v p).value.toNat = r v.toNat (getFlag p .C).toNat % 256
  zn : ∀ v p, ZNFrom (f v p).value (f v p).status
  written : ∀ v p, flags v (f v p).status
  kept : ∀ v p, FlagsKept p (f v p).status wr

/-- A mnemonic follows the rule of modifying when its computation does what the rule says. -/
theorem modifyRule_of_modifyFn {m : Mnemonic} {codes : List (Mode × Byte)} {f : Byte → Byte → Shifted}
    {r : Nat → Nat → Nat} {wr : List Flag} {flags : Byte → Byte → Prop} (hcodes : HasOpcodes m codes)
    (hf : modifyFn m = some f) (h : Modifies f r wr flags) : ModifyRule m codes r wr flags := by
  have hexec {i : Instr} {o : MemArg} (him : i.mnemonic = m) (ho : i.operand = .mem o) (s : State) :
      exec i s = conclude (opcodeAt i s) (modifyTarget o f s) := by
    rw [exec_eq_conclude, view_of_modifyFn (him.symm ▸ hf) ho, View.op]
  refine ⟨hcodes, fun i s o ea v him ho hwf hea hv hw => ?_,
    fun i s o ea him ho hea => ⟨fun e he => ?_, fun v hv hw => ?_⟩⟩
  · have hread (b : Word) := memRead_put (t := setStatus (f v s.p).status (setMem (s.mem.put ea.toNat (f v s.p).value) s))
      (f v s.p).value b rfl hwf hw
    refine ⟨_, (f v s.p).value, ?_, (hread ea).trans (if_pos rfl), h.value v s.p, h.zn v s.p, h.written v s.p, h.kept v s.p,
      fun b hb => (hread b).trans (if_neg fun hbe => hb (List.mem_singleton.mpr hbe)), rfl⟩
    rw [hexec him ho, conclude_next, modifyTarget_ok hea hv hw]
  · refine ⟨(memRead_error.mp he).1, ?_⟩
    rw [FaultsAt, hexec him ho, conclude_fault]
    exact ⟨e, modifyTarget_of_read_error hea he, rfl⟩
  · rw [FaultsAt, hexec him ho, conclude_fault]
    exact ⟨_, modifyTarget_of_not_writable hea hv hw, rfl⟩

end Sys2Proof.Machine
end

section
/-! ASL, LSR, ROL and ROR (R180 to R184): a shift multiplies or divides by 2, and a rotate adds the old carry in the
bit that the shift left clear. -/
namespace Sys2Proof

/-- A bit put where it is clear is added. -/
theorem toNat_or_bit {a : Byte} {k : Nat} (ha : a.getLsbD k = false) (c : Bool) :
    (a ||| (if c then BitVec.twoPow 8 k else 0)).toNat = (a.toNat + 2 ^ k * c.toNat) % 256 := by
  cases c with
  | false => simp [Nat.mod_eq_of_lt a.isLt]
  | true =>
    have hdisjoint : a &&& BitVec.twoPow 8 k = 0 := by simp [BitVec.and_twoPow, ha]
    rw [if_pos rfl, ← BitVec.add_eq_or_of_and_eq_zero _ _ hdisjoint]
    simp

theorem toNat_shiftLeft_one (v : Byte) : (v <<< 1).toNat = v.toNat * 2 % 256 := by
  rw [BitVec.toNat_shiftLeft, Nat.shiftLeft_eq, pow_one]

theorem toNat_shiftRight_one (v : Byte) : (v >>> 1).toNat = v.toNat / 2 := by
  rw [BitVec.toNat_ushiftRight, Nat.shiftRight_eq_div_pow, pow_one]

/-- A left shift leaves bit 0 clear for the carry (R183). -/
theorem toNat_rotatedLeft (v : Byte) (c : Bool) :
    ((v <<< 1) ||| (if c then 0x01 else 0x00)).toNat = (v.toNat * 2 + c.toNat) % 256 := by
  have hclear : (v <<< 1).getLsbD 0 = false := by simp
  have hadd := toNat_or_bit hclear c
  rw [toNat_shiftLeft_one, Nat.mod_add_mod, pow_zero, one_mul] at hadd
  exact hadd

/-- A right shift leaves bit 7 clear for the carry (R184). -/
theorem toNat_rotatedRight (v : Byte) (c : Bool) :
    ((v >>> 1) ||| (if c then 0x80 else 0x00)).toNat = (v.toNat / 2 + 128 * c.toNat) % 256 := by
  have hclear : (v >>> 1).getLsbD 7 = false := by simp
  have hadd := toNat_or_bit hclear c
  rw [toNat_shiftRight_one] at hadd
  exact hadd

end Sys2Proof

namespace Sys2Proof.Machine

theorem znFrom_shifted (r : Byte) (c : Bool) (p : Byte) : ZNFrom r (shifted r c p).status := by
  simp [ZNFrom, getFlag_shifted]

theorem flagsKept_shifted (r : Byte) (c : Bool) (p : Byte) : FlagsKept p (shifted r c p).status [.C, .Z, .N] := by
  intro f hf
  simp only [List.mem_cons, List.not_mem_nil, or_false, not_or] at hf
  simp [getFlag_shifted, hf]

/-- A shift writes C, Z and N; what is its own is the result byte `g`. -/
theorem modifies_shifted {g : Byte → Byte → Byte} {r : Nat → Nat → Nat} (out : Nat)
    (hg : ∀ v p, (g v p).toNat = r v.toNat (getFlag p .C).toNat % 256) :
    Modifies (fun v p => shifted (g v p) (v.getLsbD out) p) r [.C, .Z, .N] (fun v q => getFlag q .C = v.getLsbD out) where
  value := hg
  zn _ _ := znFrom_shifted _ _ _
  written _ _ := by simp [getFlag_shifted]
  kept _ _ := flagsKept_shifted _ _ _

theorem modifies_shiftLeft :
    Modifies shiftLeft (fun v _ => v * 2) [.C, .Z, .N] (fun v q => getFlag q .C = v.getLsbD 7) :=
  modifies_shifted 7 fun v _ => toNat_shiftLeft_one v

theorem modifies_shiftRight :
    Modifies shiftRight (fun v _ => v / 2) [.C, .Z, .N] (fun v q => getFlag q .C = v.getLsbD 0) :=
  modifies_shifted 0 fun v _ => by
    have := v.isLt
    rw [toNat_shiftRight_one]
    omega

theorem modifies_rotateLeft :
    Modifies rotateLeft (fun v c => v * 2 + c) [.C, .Z, .N] (fun v q => getFlag q .C = v.getLsbD 7) :=
  modifies_shifted 7 fun v p => toNat_rotatedLeft v (getFlag p .C)

theorem modifies_rotateRight :
    Modifies rotateRight (fun v c => v / 2 + 128 * c) [.C, .Z, .N] (fun v q => getFlag q .C = v.getLsbD 0) :=
  modifies_shifted 0 fun v p => toNat_rotatedRight v (getFlag p .C)

/-- A shift follows its rule in all its forms: on A it makes the same computation, with A as the target. -/
theorem shiftRule_of_modifyFn {m : Mnemonic} {codes : List (Mode × Byte)} {i : Instr} {f : Byte → Byte → Shifted}
    {r : Nat → Nat → Nat} {out : Nat} (hcodes : HasOpcodes m codes) (hf : modifyFn m = some f) (hi : view i = .modifyA f)
    (h : Modifies f r [.C, .Z, .N] (fun v q => getFlag q .C = v.getLsbD out)) : ShiftRule m codes i r out := by
  refine ⟨modifyRule_of_modifyFn hcodes hf h, fun s => ⟨setAStatus (f s.a s.p).value (f s.a s.p).status s, ?_,
    h.value s.a s.p, h.written s.a s.p, h.zn s.a s.p, h.kept s.a s.p, rfl⟩⟩
  rw [exec_eq_view, hi]
  rfl

/-- Settles O31: each of the four is its shape's computation, whose result byte is the arithmetic one. -/
theorem shiftsAndRotates : Obligations.ShiftsAndRotates :=
  ⟨shiftRule_of_modifyFn (hasOpcodes_of_perm (by decide)) rfl rfl modifies_shiftLeft,
    shiftRule_of_modifyFn (hasOpcodes_of_perm (by decide)) rfl rfl modifies_shiftRight,
    shiftRule_of_modifyFn (hasOpcodes_of_perm (by decide)) rfl rfl modifies_rotateLeft,
    shiftRule_of_modifyFn (hasOpcodes_of_perm (by decide)) rfl rfl modifies_rotateRight⟩

end Sys2Proof.Machine
end

section
/-! AND, ORA, EOR and BIT (R190 to R193): the first three differ in A's new byte alone, and BIT writes no register but P. -/
namespace Sys2Proof.Machine

theorem znFrom_setZN (r p : Byte) : ZNFrom r (setZN r p) := by
  simp [ZNFrom, getFlag_setZN]

theorem flagsKept_setZN (r p : Byte) : FlagsKept p (setZN r p) [.Z, .N] := by
  intro f hf
  simp only [List.mem_cons, List.not_mem_nil, or_false, not_or] at hf
  simp [getFlag_setZN, hf]

theorem flagsKept_bitTestFlags (a m p : Byte) : FlagsKept p (bitTestFlags a m p) [.Z, .N, .V] := by
  intro f hf
  simp only [List.mem_cons, List.not_mem_nil, or_false, not_or] at hf
  simp [getFlag_bitTestFlags, hf]

/-- Writing A has the effect of the logical operation that the new byte is bit by bit. -/
theorem logicEffect_writeA {f : Bool → Bool → Bool} {s : State} {v r : Byte}
    (h : ∀ k, k < 8 → r.getLsbD k = f (s.a.getLsbD k) (v.getLsbD k)) : LogicEffect f s v (writeA r s) :=
  ⟨h, znFrom_setZN _ _, flagsKept_setZN _ _, rfl⟩

theorem logicEffect_andA (s : State) (v : Byte) : LogicEffect and s v (andA v s) :=
  logicEffect_writeA fun _ _ => BitVec.getLsbD_and

theorem logicEffect_oraA (s : State) (v : Byte) : LogicEffect or s v (oraA v s) :=
  logicEffect_writeA fun _ _ => BitVec.getLsbD_or

theorem logicEffect_eorA (s : State) (v : Byte) : LogicEffect xor s v (eorA v s) :=
  logicEffect_writeA fun _ _ => BitVec.getLsbD_xor

/-- Settles O26: each of the three writes to A the byte that the library's bitwise laws give. -/
theorem logicalOperations : Obligations.LogicalOperations :=
  ⟨readRule_of_readFn (hasOpcodes_of_perm (by decide)) rfl logicEffect_andA,
    readRule_of_readFn (hasOpcodes_of_perm (by decide)) rfl logicEffect_oraA,
    readRule_of_readFn (hasOpcodes_of_perm (by decide)) rfl logicEffect_eorA⟩

theorem and_eq_zero_iff (a v : Byte) : a &&& v = 0 ↔ ∀ k, k < 8 → (a.getLsbD k && v.getLsbD k) = false := by
  simp [BitVec.eq_of_getLsbD_eq_iff]

theorem getFlag_bitA_Z (s : State) (v : Byte) :
    getFlag (bitA v s).p .Z = true ↔ ∀ k, k < 8 → (s.a.getLsbD k && v.getLsbD k) = false := by
  rw [← and_eq_zero_iff]
  simp [bitA, getFlag_bitTestFlags]

/-- Settles O27: BIT's Z is that the AND is zero, so that no bit is set in both bytes; N and V are copied from the operand. -/
theorem bitTest : Obligations.BitTest :=
  readRule_of_readFn (hasOpcodes_of_perm (by decide)) rfl fun s v =>
    ⟨getFlag_bitA_Z s v, getFlag_bitTestFlags .N s.a v s.p, getFlag_bitTestFlags .V s.a v s.p,
      flagsKept_bitTestFlags s.a v s.p, rfl⟩

end Sys2Proof.Machine
end

section
/-! CMP, CPX and CPY (R200 to R203): one comparison, of A, X or Y with the operand, whose flags are all that is written. -/
namespace Sys2Proof.Machine

/-- N is bit 7 of `r + (256 - m)` modulo 256, which is the difference. -/
theorem getFlag_compareFlags_N (r m p : Byte) :
    getFlag (compareFlags r m p) .N = true ↔ 128 ≤ (r.toNat + 256 - m.toNat) % 256 := by
  have hm := m.isLt
  rw [getFlag_compareFlags, if_pos rfl, signBit_eq, decide_eq_true_iff, BitVec.toNat_sub]
  omega

theorem flagsKept_compareFlags (r m p : Byte) : FlagsKept p (compareFlags r m p) [.C, .Z, .N] := by
  intro f hf
  simp only [List.mem_cons, List.not_mem_nil, or_false, not_or] at hf
  simp [getFlag_compareFlags, hf]

/-- Writing the comparison's flags has the effect of a compare, whichever register is compared. -/
theorem compareEffect_setStatus (reg : State → Byte) (s : State) (v : Byte) :
    CompareEffect reg s v (setStatus (compareFlags (reg s) v s.p) s) := by
  refine ⟨?_, ?_, getFlag_compareFlags_N _ _ _, flagsKept_compareFlags _ _ _, rfl⟩
  · simp [getFlag_compareFlags]
  · simp [getFlag_compareFlags]

/-- Settles O28: the three differ in the register compared alone. -/
theorem compares : Obligations.Compares :=
  ⟨readRule_of_readFn (hasOpcodes_of_perm (by decide)) rfl (compareEffect_setStatus State.a),
    readRule_of_readFn (hasOpcodes_of_perm (by decide)) rfl (compareEffect_setStatus State.x),
    readRule_of_readFn (hasOpcodes_of_perm (by decide)) rfl (compareEffect_setStatus State.y)⟩

end Sys2Proof.Machine
end

section
/-! INC and DEC on memory, INX, INY, DEX and DEY (R210 to R215): a byte one more, or 255 more, modulo 256, and Z and N from
it. -/
namespace Sys2Proof

/-- One less modulo 256 is 255 more. -/
theorem toNat_sub_one (v : Byte) : (v - 1).toNat = (v.toNat + 255) % 256 := by
  rw [BitVec.toNat_sub, Nat.add_comm]
  rfl

end Sys2Proof

namespace Sys2Proof.Machine

/-- A computation that writes Z and N alone has as its own the result byte `g`. -/
theorem modifies_setZN {g : Byte → Byte} {r : Nat → Nat} (hg : ∀ v, (g v).toNat = r v.toNat % 256) :
    Modifies (fun v p => { value := g v, status := setZN (g v) p }) (fun v _ => r v) [.Z, .N] (fun _ _ => True) where
  value v _ := hg v
  zn _ _ := znFrom_setZN _ _
  written _ _ := trivial
  kept _ _ := flagsKept_setZN _ _

theorem modifies_incremented : Modifies incremented (fun v _ => v + 1) [.Z, .N] (fun _ _ => True) :=
  modifies_setZN fun v => BitVec.toNat_add v 1

theorem modifies_decremented : Modifies decremented (fun v _ => v + 255) [.Z, .N] (fun _ _ => True) :=
  modifies_setZN toNat_sub_one

/-- Settles O32: INC and DEC modify their target, INC by adding 1 and DEC by adding 255. -/
theorem incrementsOnMemory : Obligations.IncrementsOnMemory :=
  ⟨modifyRule_of_modifyFn (hasOpcodes_of_perm (by decide)) rfl modifies_incremented,
    modifyRule_of_modifyFn (hasOpcodes_of_perm (by decide)) rfl modifies_decremented⟩

/-- `setZN(X)` (R12) with the frame. -/
theorem writeX_effect (v : Byte) (s : State) : ZNFrom (writeX v s).x (writeX v s).p ∧
    FlagsKept s.p (writeX v s).p [.Z, .N] ∧ writeX v s = { s with x := (writeX v s).x, p := (writeX v s).p } :=
  ⟨znFrom_setZN _ _, flagsKept_setZN _ _, rfl⟩

/-- `setZN(Y)` (R12) with the frame. -/
theorem writeY_effect (v : Byte) (s : State) : ZNFrom (writeY v s).y (writeY v s).p ∧
    FlagsKept s.p (writeY v s).p [.Z, .N] ∧ writeY v s = { s with y := (writeY v s).y, p := (writeY v s).p } :=
  ⟨znFrom_setZN _ _, flagsKept_setZN _ _, rfl⟩

/-- Settles O33: each writes its index register's new byte, from every state. -/
theorem indexIncrements : Obligations.IndexIncrements := by
  refine ⟨hasOpcodes_of_perm (by decide), hasOpcodes_of_perm (by decide), hasOpcodes_of_perm (by decide),
    hasOpcodes_of_perm (by decide), fun s => ⟨?inx, ?iny, ?dex, ?dey⟩⟩
  case inx => exact ⟨_, exec_eq_view .inx s, BitVec.toNat_add s.x 1, writeX_effect _ s⟩
  case iny => exact ⟨_, exec_eq_view .iny s, BitVec.toNat_add s.y 1, writeY_effect _ s⟩
  case dex => exact ⟨_, exec_eq_view .dex s, toNat_sub_one s.x, writeX_effect _ s⟩
  case dey => exact ⟨_, exec_eq_view .dey s, toNat_sub_one s.y, writeY_effect _ s⟩

end Sys2Proof.Machine
end

section
/-! The eight branches (R220 to R228): they differ in the flag tested and in its wanted value alone. -/
namespace Sys2Proof.Machine

/-- The target of a branch is the signed sum modulo 65536 (R220). -/
theorem add_sext_toNat (w : Word) (d : Byte) :
    ((w + sext d).toNat : Int) = ((w.toNat : Int) + signed d) % 65536 := by
  rw [sext_eq, BitVec.toNat_add, BitVec.toNat_ofInt]
  omega

/-- What a branch does, with its condition as the comparison of the flag with its wanted value. -/
theorem exec_of_view_branch {i : Instr} {f : Flag} {want : Bool} {d : Byte} (hi : view i = .branch f want d) (s : State) :
    exec i s = .next (if getFlag s.p f = want then setPc (s.pc + sext d) s else s) := by
  rw [exec_eq_view, hi]
  cases want with
  | false => simp [View.run, branchIf]
  | true => simp [View.run, branchIf]

/-- Instructions of the branch shape follow the rule of the branches. -/
theorem branchRule_of_view {m : Mnemonic} {op : Byte} {br : Byte → Instr} {f : Flag} {want : Bool}
    (hcodes : HasOpcodes m [(.REL, op)]) (hm : ∀ d, (br d).mnemonic = m) (ho : ∀ d, (br d).operand = .rel d)
    (hv : ∀ d, view (br d) = .branch f want d) : BranchRule m op br f want := by
  refine ⟨hcodes, fun d s => ⟨hm d, ho d, _, exec_of_view_branch (hv d) s, ?_⟩⟩
  by_cases htaken : getFlag s.p f = want
  · rw [if_pos htaken]
    exact ⟨rfl, fun _ => add_sext_toNat s.pc d, fun hne => absurd htaken hne⟩
  · rw [if_neg htaken]
    exact ⟨rfl, fun h => absurd h htaken, fun _ => rfl⟩

/-- Settles O35: each of the eight has the branch shape, with the flag and the value that its rule names. -/
theorem branches : Obligations.Branches := by
  refine ⟨?_, ?_, ?_, ?_, ?_, ?_, ?_, ?_⟩ <;>
    exact branchRule_of_view (hasOpcodes_of_perm (by decide)) (fun _ => rfl) (fun _ => rfl) fun _ => rfl

end Sys2Proof.Machine
end

section
/-! JMP (R229): the absolute form goes to its operand, the indirect form through a pointer. -/
namespace Sys2Proof.Machine

/-- The pointer's high byte is read from the same page or from the next address (R149). -/
theorem pointerHigh_toNat (wrap : Bool) (w : Word) : (pointerHigh wrap w).toNat =
    if wrap then w.toNat / 256 * 256 + (w.toNat + 1) % 256 else (w.toNat + 1) % 65536 := by
  cases wrap with
  | false => exact BitVec.toNat_add w 1
  | true =>
    have hlo : (loByte w + 1).toNat = (w.toNat + 1) % 256 := by
      rw [BitVec.toNat_add, loByte_toNat]
      exact Nat.mod_add_mod _ _ _
    rw [pointerHigh, if_pos rfl, if_pos rfl, word_toNat, hiByte_toNat, hlo]

theorem exec_jmpInd_of_ok {w target : Word} {s : State} (h : indirectTarget w s = .ok target) :
    exec (.jmpInd w) s = .next { s with pc := target } := by
  rw [exec_eq_conclude, conclude_next, view, View.op, jumpIndirect, h]
  rfl

theorem faultsAt_jmpInd_of_error {w : Word} {s : State} {e : Access} (h : indirectTarget w s = .error e) :
    FaultsAt (.jmpInd w) s e := by
  rw [FaultsAt, exec_eq_conclude, conclude_fault, view, View.op, jumpIndirect, h]
  exact ⟨e, rfl, rfl⟩

/-- Settles O36: the indirect form reads its target as a pair, which fails at its first failing byte. -/
theorem jumps : Obligations.Jumps := by
  refine ⟨hasOpcodes_of_perm (by decide), fun w s => ⟨exec_eq_view (.jmpAbs w) s, fun hiAddr haddr => ?_⟩⟩
  obtain rfl : hiAddr = pointerHigh s.cfg.jmpIndPageWrap w :=
    BitVec.eq_of_toNat_eq (haddr.trans (pointerHigh_toNat _ w).symm)
  refine ⟨fun lo hi hlo hhi => ?_, fun e he => ?_, fun lo e hlo he => ?_⟩
  · exact exec_jmpInd_of_ok (readPair_ok.mpr ⟨lo, hi, hlo, hhi, rfl⟩)
  · exact faultsAt_jmpInd_of_error (readPair_of_low_error he)
  · exact faultsAt_jmpInd_of_error (readPair_of_high_error hlo he)

end Sys2Proof.Machine
end

section
/-! How an instruction ends, by its operation or by its access list; and the accesses of the stack by the slots that the
rules name (R157, R240, R241). -/
namespace Sys2Proof.Machine

theorem exec_next_iff {i : Instr} {s t : State} : exec i s = .next t ↔ (view i).op s = .ok t := by
  rw [exec_eq_conclude, conclude_next]

theorem faultsAt_of_op_error {i : Instr} {s : State} {e : Access} (h : (view i).op s = .error e) : FaultsAt i s e := by
  rw [FaultsAt, exec_eq_conclude, h, conclude]

theorem faultsAt_of_firstFailing {i : Instr} {s : State} {e : Access}
    (h : firstFailing s.mem (dataAccesses i s) = some e) : FaultsAt i s e :=
  (instructionEndsAsItsAccessesDo i s).1 e h

/-! Slots. -/

theorem pushSlot_setSp (s : State) (k : Nat) : pushSlot (setSp (s.sp - 1) s) k = pushSlot s (k + 1) := by
  have hsp : s.sp - 1 - BitVec.ofNat 8 k = s.sp - BitVec.ofNat 8 (k + 1) := by
    rw [BitVec.ofNat_add, BitVec.add_comm, ← BitVec.sub_sub]
    rfl
  rw [pushSlot, setSp_sp, hsp, pushSlot]

theorem pullSlot_setSp (s : State) (k : Nat) : pullSlot (setSp (s.sp + 1) s) k = pullSlot s (k + 1) := by
  have hsp : s.sp + 1 + BitVec.ofNat 8 k = s.sp + BitVec.ofNat 8 (k + 1) := by
    rw [BitVec.ofNat_add, BitVec.add_comm (BitVec.ofNat 8 k), ← BitVec.add_assoc]
    rfl
  rw [pullSlot, setSp_sp, hsp, pullSlot]

theorem pushAccesses_eq_slots (s : State) (n : Nat) :
    pushAccesses s.sp n = (List.range n).map fun k => writeOf (pushSlot s k) := by
  induction n generalizing s with
  | zero => rfl
  | succ n ih =>
    rw [pushAccesses, ← pushSlot_zero, List.range_succ_eq_map, List.map_cons, List.map_map]
    have hrest := ih (setSp (s.sp - 1) s)
    simp only [setSp_sp, pushSlot_setSp] at hrest
    rw [hrest]
    rfl

theorem pullAccesses_eq_slots (s : State) (n : Nat) :
    pullAccesses s.sp n = (List.range n).map fun k => readOf (pullSlot s (k + 1)) := by
  induction n generalizing s with
  | zero => rfl
  | succ n ih =>
    rw [pullAccesses, ← pullSlot_one, List.range_succ_eq_map, List.map_cons, List.map_map]
    have hrest := ih (setSp (s.sp + 1) s)
    simp only [setSp_sp, pullSlot_setSp] at hrest
    rw [hrest]
    rfl

/-! A write at the head of an access list. -/

theorem firstFailing_of_writable {m : Memory} {a : Word} (h : m.writable a.toNat = true) (l : List Access) :
    firstFailing m (writeOf a :: l) = firstFailing m l := by
  rw [firstFailing_cons, if_pos (show m.allows (writeOf a) = true from h)]

theorem firstFailing_of_not_writable {m : Memory} {a : Word} (h : m.writable a.toNat = false) (l : List Access) :
    firstFailing m (writeOf a :: l) = some (writeOf a) := by
  rw [firstFailing_cons, show m.allows (writeOf a) = false from h]
  rfl

end Sys2Proof.Machine
end

section
/-! The stack, one byte at a time: Push and Pull, and PHA, PLA, PHP and PLP, which move A and P through them (R240 to R245). -/
namespace Sys2Proof.Machine

/-! Push and Pull. -/

theorem eq_stackAddr_of_toNat {a : Word} {sp : Byte} (h : a.toNat = 256 + sp.toNat) : a = stackAddr sp :=
  BitVec.eq_of_toNat_eq (h.trans (stackAddr_toNat sp).symm)

theorem memRead_pushed_slot {s : State} (v : Byte) (hwf : s.mem.wf = true)
    (hw : s.mem.writable (stackAddr s.sp).toNat = true) : memRead (pushed v s) (stackAddr s.sp) = .ok v := by
  rw [memRead_pushed v _ hwf hw, if_pos rfl]

theorem bytesKept_pushed {s : State} (v : Byte) (hwf : s.mem.wf = true)
    (hw : s.mem.writable (stackAddr s.sp).toNat = true) : BytesKept s (pushed v s) [stackAddr s.sp] := by
  intro a ha
  rw [memRead_pushed v _ hwf hw, if_neg fun h => ha (List.mem_singleton.mpr h)]

/-- Settles O37: the slot of a push is the one that S names, and that of a pull the next one up. -/
theorem stackPrimitives : Obligations.StackPrimitives := by
  intro s v a b ha hb
  obtain rfl : a = stackAddr s.sp := eq_stackAddr_of_toNat ha
  have hnext : (s.sp + 1).toNat = (s.sp.toNat + 1) % 256 := BitVec.toNat_add s.sp 1
  obtain rfl : b = stackAddr (s.sp + 1) := eq_stackAddr_of_toNat (hnext ▸ hb)
  exact ⟨fun hwf hw => ⟨pushed v s, push_of_writable hw, memRead_pushed_slot v hwf hw, toNat_sub_one s.sp,
      bytesKept_pushed v hwf hw, rfl⟩,
    push_of_not_writable, fun r hr => ⟨setSp (s.sp + 1) s, pull_of_ok hr, hnext, rfl⟩, fun e => pull_of_error⟩

/-! Pushing. -/

/-- The status byte of PHP and BRK (R244, R248). -/
theorem pushedByProgram_flags (p : Byte) : FlagsKept p (pushedByProgram p) [.B, .U] ∧
    getFlag (pushedByProgram p) .B = true ∧ getFlag (pushedByProgram p) .U = true := by
  refine ⟨fun f hf => ?_, getFlag_pushedByProgram .B p, getFlag_pushedByProgram .U p⟩
  simp only [List.mem_cons, List.not_mem_nil, or_false] at hf
  rw [getFlag_pushedByProgram, if_neg hf]

/-- An instruction of the pushing shape follows the rule of the pushes, with the byte that it pushes. -/
theorem pushRule_of_view {i : Instr} {f : State → Byte} {val : State → Byte → Prop} (hi : view i = .push f)
    (hval : ∀ s, val s (f s)) : PushRule i val := by
  intro s
  have hop : (view i).op s = push (f s) s := by rw [hi, View.op]
  rw [pushSlot_zero]
  exact ⟨fun hwf hw => ⟨pushed (f s) s, f s, exec_next_iff.mpr (hop.trans (push_of_writable hw)), hval s,
      memRead_pushed_slot _ hwf hw, rfl, bytesKept_pushed _ hwf hw, rfl⟩,
    fun hw => faultsAt_of_op_error (hop.trans (push_of_not_writable hw))⟩

/-- Settles O38: PHA and PHP differ in the byte pushed alone. -/
theorem pushInstructions : Obligations.PushInstructions :=
  ⟨hasOpcodes_of_perm (by decide), hasOpcodes_of_perm (by decide), pushRule_of_view rfl fun _ => rfl,
    pushRule_of_view rfl fun s => pushedByProgram_flags s.p⟩

/-! Pulling. -/

theorem exec_pla_of_ok {s : State} {v : Byte} (h : memRead s (stackAddr (s.sp + 1)) = .ok v) :
    exec .pla s = .next (writeA v (setSp (s.sp + 1) s)) := by
  rw [exec_next_iff, view, View.op, pullA, pull_of_ok h]

theorem exec_plp_of_ok {s : State} {v : Byte} (h : memRead s (stackAddr (s.sp + 1)) = .ok v) :
    exec .plp s = .next (setStatus (pulledStatus v s.p) (setSp (s.sp + 1) s)) := by
  rw [exec_next_iff, view, View.op, pullP, pull_of_ok h]
  rfl

/-- Settles O39: PLA writes the pulled byte to A as a load does. -/
theorem pullAccumulator : Obligations.PullAccumulator := by
  refine ⟨hasOpcodes_of_perm (by decide), fun s => ⟨fun v hv => ?_, fun e he => ?_⟩⟩
  · exact ⟨_, exec_pla_of_ok hv, rfl, rfl, znFrom_setZN v s.p, flagsKept_setZN v s.p, rfl⟩
  · refine faultsAt_of_op_error ?_
    rw [view, View.op, pullA, pull_of_error he]

theorem statusPulled_pulledStatus (v p : Byte) : StatusPulled v p (pulledStatus v p) := by
  refine ⟨fun f hf => ?_, getFlag_pulledStatus .B v p, getFlag_pulledStatus .U v p⟩
  simp only [List.mem_cons, List.not_mem_nil, or_false, not_or] at hf
  rw [getFlag_pulledStatus, if_neg hf.1, if_neg hf.2]

/-- Settles O40: PLP writes to P the pulled byte but for bits 4 and 5. -/
theorem pullStatus : Obligations.PullStatus := by
  refine ⟨hasOpcodes_of_perm (by decide), fun s => ⟨fun v hv => ?_, fun e he => ?_⟩⟩
  · exact ⟨_, exec_plp_of_ok hv, rfl, statusPulled_pulledStatus v s.p, rfl⟩
  · refine faultsAt_of_op_error ?_
    rw [view, View.op, pullP, pull_of_error he]

/-! Pushing, then pulling. -/

/-- PHP's byte differs from P only in the two bits that PLP does not take from it. -/
theorem pulledStatus_pushedByProgram (q p : Byte) : pulledStatus (pushedByProgram q) p = pulledStatus q p := by
  refine status_ext fun f => ?_
  cases f <;> simp [getFlag_pulledStatus, getFlag_pushedByProgram]

/-- A pull's slot after a push is the slot of the push, where the byte pushed still is, whatever became of A and P. -/
theorem memRead_pull_after_push {s : State} (b v q : Byte) (hwf : s.mem.wf = true)
    (hw : s.mem.writable (stackAddr s.sp).toNat = true) :
    memRead { pushed b s with a := v, p := q } (stackAddr (s.sp - 1 + 1)) = .ok b := by
  rw [BitVec.sub_add_cancel]
  exact memRead_pushed_slot b hwf hw

/-- Settles O47: each pull finds the byte pushed, and brings S back. -/
theorem pushThenPullRestores : Obligations.PushThenPullRestores := by
  intro s t v q hwf
  refine ⟨fun ht => ?_, fun ht => ?_⟩
  · obtain ⟨hw, rfl⟩ := push_ok.mp (exec_next_iff.mp ht)
    exact ⟨_, exec_pla_of_ok (memRead_pull_after_push s.a v q hwf hw), rfl, BitVec.sub_add_cancel s.sp 1⟩
  · obtain ⟨hw, rfl⟩ := push_ok.mp (exec_next_iff.mp ht)
    refine ⟨_, exec_plp_of_ok (memRead_pull_after_push _ v q hwf hw), BitVec.sub_add_cancel s.sp 1, ?_⟩
    rw [setStatus_p, pulledStatus_pushedByProgram]
    exact statusPulled_pulledStatus s.p q

end Sys2Proof.Machine
end

section
/-! JSR and RTS (R246, R247): a word pushed high byte first is the word pulled low byte first. -/
namespace Sys2Proof.Machine

/-! Slots. -/

/-- The slots of up to 256 pushes are distinct. -/
theorem pushSlot_ne (s : State) {j k : Nat} (hjk : j ≠ k) (hj : j < 256) (hk : k < 256) : pushSlot s j ≠ pushSlot s k := by
  intro h
  have hsp := congrArg BitVec.toNat (stackAddr_inj.mp h)
  rw [BitVec.toNat_sub, BitVec.toNat_sub, BitVec.toNat_ofNat, BitVec.toNat_ofNat] at hsp
  omega

/-- The `k`-th pull after `n` pushes goes back to the slot of the `k`-th push from the last. -/
theorem pullSlot_eq_pushSlot {s t : State} {n k : Nat} (ht : t.sp = s.sp - BitVec.ofNat 8 n) (hk : k ≤ n) :
    pullSlot t k = pushSlot s (n - k) := by
  have hn : BitVec.ofNat 8 n = BitVec.ofNat 8 (n - k) + BitVec.ofNat 8 k := by
    rw [← BitVec.ofNat_add, Nat.sub_add_cancel hk]
  have hsp : t.sp + BitVec.ofNat 8 k = s.sp - BitVec.ofNat 8 (n - k) := by
    rw [ht, hn, ← BitVec.sub_sub, BitVec.sub_add_cancel]
  rw [pullSlot, hsp, pushSlot]

/-! A word on the stack. -/

/-- The state after a word is pushed. -/
def pushedWord (w : Word) (s : State) : State := pushed (loByte w) (pushed (hiByte w) s)

theorem pushedWord_sp (w : Word) (s : State) : (pushedWord w s).sp = s.sp - 2 := BitVec.sub_sub s.sp 1 1

theorem pushedWord_cfg (w : Word) (s : State) : (pushedWord w s).cfg = s.cfg := rfl

theorem pushWord_ok_iff {w : Word} {s t : State} : pushWord w s = .ok t ↔
    s.mem.writable (pushSlot s 0).toNat = true ∧ s.mem.writable (pushSlot s 1).toNat = true ∧ t = pushedWord w s := by
  rw [pushSlot_zero, pushSlot_one]
  exact pushWord_ok

section
variable {s : State} (w : Word) (hwf : s.mem.wf = true) (h0 : s.mem.writable (pushSlot s 0).toNat = true)
  (h1 : s.mem.writable (pushSlot s 1).toNat = true)
include hwf h0 h1

theorem memRead_pushedWord (a : Word) : memRead (pushedWord w s) a =
    if a = pushSlot s 1 then .ok (loByte w) else if a = pushSlot s 0 then .ok (hiByte w) else memRead s a := by
  rw [pushSlot_zero] at h0 ⊢
  rw [pushedWord, memRead_pushed _ a (pushed_wf hwf) ((Memory.put_writable _ _ _ _).trans h1), memRead_pushed _ a hwf h0]
  rfl

theorem memRead_pushedWord_high : memRead (pushedWord w s) (pushSlot s 0) = .ok (hiByte w) := by
  rw [memRead_pushedWord w hwf h0 h1, if_neg (pushSlot_ne s (by decide) (by decide) (by decide)), if_pos rfl]

theorem memRead_pushedWord_low : memRead (pushedWord w s) (pushSlot s 1) = .ok (loByte w) := by
  rw [memRead_pushedWord w hwf h0 h1, if_pos rfl]

theorem bytesKept_pushedWord : BytesKept s (pushedWord w s) [pushSlot s 0, pushSlot s 1] := by
  intro a ha
  simp only [List.mem_cons, List.not_mem_nil, or_false, not_or] at ha
  rw [memRead_pushedWord w hwf h0 h1, if_neg ha.2, if_neg ha.1]

end

/-! The instructions. -/

/-- When JSR completes, and what it leaves. -/
theorem exec_jsr_next_iff {w : Word} {s t : State} : exec (.jsr w) s = .next t ↔
    s.mem.writable (pushSlot s 0).toNat = true ∧ s.mem.writable (pushSlot s 1).toNat = true ∧
      t = setPc w (pushedWord (returnAddress s.cfg.jsrReturn s.pc) s) := by
  have hcall : callTo w s = .ok t ↔ ∃ u, pushWord (returnAddress s.cfg.jsrReturn s.pc) s = .ok u ∧ t = setPc w u := by
    rw [callTo]
    cases pushWord (returnAddress s.cfg.jsrReturn s.pc) s <;> simp [eq_comm]
  rw [exec_next_iff, view, View.op, hcall]
  simp only [pushWord_ok_iff, and_assoc, exists_and_left, exists_eq_left]

theorem dataAccesses_jsr (w : Word) (s : State) :
    dataAccesses (.jsr w) s = [writeOf (pushSlot s 0), writeOf (pushSlot s 1)] := pushAccesses_eq_slots s 2

/-- Settles O41: JSR pushes its return address as a word, and faults at the first slot that is not writable. -/
theorem jumpToSubroutine : Obligations.JumpToSubroutine := by
  refine ⟨hasOpcodes_of_perm (by decide), fun w ret s hret => ?_⟩
  obtain rfl : ret = returnAddress s.cfg.jsrReturn s.pc := hret
  refine ⟨fun hwf h0 h1 => ?_, fun h0 => ?_, fun h0 h1 => ?_⟩
  · exact ⟨_, exec_jsr_next_iff.mpr ⟨h0, h1, rfl⟩, memRead_pushedWord_high _ hwf h0 h1, memRead_pushedWord_low _ hwf h0 h1,
      pushedWord_sp _ s, rfl, bytesKept_pushedWord _ hwf h0 h1, rfl⟩
  · refine faultsAt_of_firstFailing ?_
    rw [dataAccesses_jsr, firstFailing_of_not_writable h0, writeOf]
  · refine faultsAt_of_firstFailing ?_
    rw [dataAccesses_jsr, firstFailing_of_writable h0, firstFailing_of_not_writable h1, writeOf]

theorem exec_rts_of_ok {s : State} {lo hi : Byte} (hlo : memRead s (pullSlot s 1) = .ok lo)
    (hhi : memRead s (pullSlot s 2) = .ok hi) :
    exec .rts s = .next (setPc (resumeAddress s.cfg.jsrReturn (word hi lo)) (setSp (s.sp + 2) s)) := by
  rw [pullSlot_one] at hlo
  rw [pullSlot_two] at hhi
  have hpull : pullWord s = .ok (word hi lo, setSp (s.sp + 2) s) := by
    refine pullWord_ok.mpr ⟨lo, hi, hlo, hhi, rfl, ?_⟩
    rw [BitVec.add_assoc]
    rfl
  rw [exec_next_iff, view, View.op, returnFromCall, hpull]

theorem dataAccesses_rts (s : State) : dataAccesses .rts s = [readOf (pullSlot s 1), readOf (pullSlot s 2)] :=
  pullAccesses_eq_slots s 2

/-- The address that RTS resumes at (R247), as a number. -/
theorem resumeAddress_toNat (c : ReturnConvention) (hi lo : Byte) : (resumeAddress c (word hi lo)).toNat =
    (hi.toNat * 256 + lo.toNat + match c with | .hw => 1 | .literal => 0) % 65536 := by
  have hw := (word hi lo).isLt
  rw [← word_toNat]
  cases c with
  | hw => exact BitVec.toNat_add _ 1
  | literal => exact (Nat.mod_eq_of_lt hw).symm

/-- Settles O42: RTS pulls a word, and faults at the first slot that does not read. -/
theorem returnFromSubroutine : Obligations.ReturnFromSubroutine := by
  refine ⟨hasOpcodes_of_perm (by decide), fun s => ⟨fun lo hi hlo hhi => ?_, fun e he => ?_, fun lo e hlo he => ?_⟩⟩
  · exact ⟨_, exec_rts_of_ok hlo hhi, rfl, resumeAddress_toNat _ hi lo, rfl⟩
  · obtain ⟨rfl, -⟩ := memRead_error.mp he
    refine faultsAt_of_firstFailing ?_
    rw [dataAccesses_rts, firstFailing_of_read_error he, readOf]
  · obtain ⟨rfl, -⟩ := memRead_error.mp he
    refine faultsAt_of_firstFailing ?_
    rw [dataAccesses_rts, firstFailing_of_read_ok hlo, firstFailing_of_read_error he, readOf]

/-- Under either convention RTS undoes what JSR did to the address. -/
theorem resumeAddress_returnAddress (c : ReturnConvention) (pc : Word) : resumeAddress c (returnAddress c pc) = pc := by
  cases c with
  | hw => exact BitVec.sub_add_cancel pc 1
  | literal => rfl

/-- Settles O45: RTS finds the word that JSR pushed in the slots where it pushed it. -/
theorem callThenReturnResumes : Obligations.CallThenReturnResumes := by
  intro w q s t hwf hcall
  obtain ⟨h0, h1, rfl⟩ := exec_jsr_next_iff.mp hcall
  have hsp := pushedWord_sp (returnAddress s.cfg.jsrReturn s.pc) s
  have hlo := memRead_pushedWord_low (returnAddress s.cfg.jsrReturn s.pc) hwf h0 h1
  have hhi := memRead_pushedWord_high (returnAddress s.cfg.jsrReturn s.pc) hwf h0 h1
  rw [← pullSlot_eq_pushSlot (n := 2) (k := 1) hsp (by decide)] at hlo
  rw [← pullSlot_eq_pushSlot (n := 2) (k := 2) hsp (by decide)] at hhi
  refine (exec_rts_of_ok (s := setPc q (pushedWord (returnAddress s.cfg.jsrReturn s.pc) s)) hlo hhi).trans ?_
  rw [setPc_cfg, pushedWord_cfg, word_hi_lo, resumeAddress_returnAddress, setPc_sp, hsp, BitVec.sub_add_cancel]
  rfl

end Sys2Proof.Machine
end

section
/-! Entering a handler and returning from one: BRK and RTI (R248, R249), and the interrupts of the optional extension
(R310, R311). -/
namespace Sys2Proof.Machine

/-! The entry. -/

theorem entryAccesses_eq_slots (s : State) (vector : Word) : entryAccesses s.sp vector =
    [writeOf (pushSlot s 0), writeOf (pushSlot s 1), writeOf (pushSlot s 2), readOf vector, readOf (vector + 1)] := by
  rw [entryAccesses, pushAccesses_eq_slots s 3]
  rfl

theorem firstFailing_entryAccesses_of_allowed {s : State} {vector : Word} (h : EntryAllowed s vector) :
    firstFailing s.mem (entryAccesses s.sp vector) = none := by
  obtain ⟨h0, h1, h2, hlo, hhi⟩ := h
  rw [entryAccesses_eq_slots, firstFailing_of_writable h0, firstFailing_of_writable h1, firstFailing_of_writable h2,
    firstFailing_cons, if_pos (show s.mem.allows (readOf vector) = true from hlo), firstFailing_cons,
    if_pos (show s.mem.allows (readOf (vector + 1)) = true from hhi), firstFailing_nil]

theorem flagsKept_setFlag (f : Flag) (v : Bool) (p : Byte) : FlagsKept p (setFlag f v p) [f] := by
  intro g hg
  rw [getFlag_setFlag, if_neg fun h => hg (List.mem_singleton.mpr h)]

/-- A read after a word and then a byte are pushed: the byte lies in the third slot. -/
theorem memRead_pushed_pushedWord {s : State} (w : Word) (q : Byte) (a : Word) (hwf : s.mem.wf = true)
    (h2 : s.mem.writable (pushSlot s 2).toNat = true) : memRead (pushed q (pushedWord w s)) a =
      if a = pushSlot s 2 then .ok q else memRead (pushedWord w s) a := by
  rw [pushSlot_two] at h2 ⊢
  exact memRead_pushed q a (pushed_wf (pushed_wf hwf))
    ((Memory.put_writable _ _ _ _).trans ((Memory.put_writable _ _ _ _).trans h2))

/-- What the entry leaves when it completes: the bytes pushed lie in distinct slots, and nothing after the pushes writes
memory. -/
theorem handlerEntered_of_enterHandler {s t : State} {ret vector : Word} {q : Byte} {status : Byte → Prop}
    (hwf : s.mem.wf = true) (hq : status q) (h : enterHandler ret q vector s = .ok t) :
    HandlerEntered s ret status vector t := by
  obtain ⟨h0, h1, h2, lo, hi, hlo, hhi, rfl⟩ := enterHandler_ok.mp h
  rw [← pushSlot_zero] at h0
  rw [← pushSlot_two] at h2
  have hread (a : Word) := memRead_pushed_pushedWord ret q a hwf h2
  have hhigh : memRead (pushed q (pushedWord ret s)) (pushSlot s 0) = .ok (hiByte ret) := by
    rw [hread, if_neg (pushSlot_ne s (by decide) (by decide) (by decide)), memRead_pushedWord_high ret hwf h0 h1]
  have hlow : memRead (pushed q (pushedWord ret s)) (pushSlot s 1) = .ok (loByte ret) := by
    rw [hread, if_neg (pushSlot_ne s (by decide) (by decide) (by decide)), memRead_pushedWord_low ret hwf h0 h1]
  have hstatus : memRead (pushed q (pushedWord ret s)) (pushSlot s 2) = .ok q := by
    rw [hread, if_pos rfl]
  have hkept : BytesKept s (pushed q (pushedWord ret s)) [pushSlot s 0, pushSlot s 1, pushSlot s 2] := by
    intro a ha
    simp only [List.mem_cons, List.not_mem_nil, or_false, not_or] at ha
    obtain ⟨ha0, ha1, ha2⟩ := ha
    rw [hread, if_neg ha2, bytesKept_pushedWord ret hwf h0 h1 a (by simp [ha0, ha1])]
  have hsp : (pushed q (pushedWord ret s)).sp = s.sp - 3 := by
    rw [pushed_sp, pushedWord_sp, BitVec.sub_sub]
    rfl
  exact ⟨q, lo, hi, hhigh, hlow, hstatus, hq, hsp, getFlag_setFlag .I .I true s.p, flagsKept_setFlag .I true s.p, hlo, hhi,
    rfl, hkept, by simp only [setPc, setStatus, pushed, setSp, setMem]⟩

/-- The entry completes when its accesses are allowed. -/
theorem enterHandler_of_allowed {s : State} {vector : Word} (ret : Word) (q : Byte) (h : EntryAllowed s vector) :
    ∃ t, enterHandler ret q vector s = .ok t :=
  (follows_enterHandler ret q vector s).ok_of_firstFailing (firstFailing_entryAccesses_of_allowed h)

/-! BRK and RTI. -/

/-- Settles O43: BRK is the entry with its own return address, status byte and vector. -/
theorem breakEntersHandler : Obligations.BreakEntersHandler := by
  refine ⟨hasOpcodes_of_perm (by decide), fun s hwf hallowed => ?_, fun s e he => faultsAt_of_firstFailing ?_⟩
  · obtain ⟨t, ht⟩ := enterHandler_of_allowed (s.pc + 1) (pushedByProgram s.p) hallowed
    exact ⟨t, exec_next_iff.mpr ht, handlerEntered_of_enterHandler hwf (pushedByProgram_flags s.p) ht⟩
  · rw [← he, ← entryAccesses_eq_slots]
    rfl

theorem exec_rti_of_ok {s : State} {v lo hi : Byte} (hv : memRead s (pullSlot s 1) = .ok v)
    (hlo : memRead s (pullSlot s 2) = .ok lo) (hhi : memRead s (pullSlot s 3) = .ok hi) :
    exec .rti s = .next (setPc (word hi lo) (setStatus (pulledStatus v s.p) (setSp (s.sp + 3) s))) := by
  rw [pullSlot_one] at hv
  rw [pullSlot_two] at hlo
  rw [pullSlot_three] at hhi
  have hsp : s.sp + 1 + 1 + 1 = s.sp + 3 := by
    rw [BitVec.add_assoc, BitVec.add_assoc]
    rfl
  exact exec_next_iff.mpr (returnFromHandler_ok.mpr ⟨v, lo, hi, hv, hlo, hhi, by rw [hsp]⟩)

/-- Settles O44: RTI pulls P and then a word, and faults at the first slot that does not read. -/
theorem returnFromInterrupt : Obligations.ReturnFromInterrupt := by
  refine ⟨hasOpcodes_of_perm (by decide), fun s => ⟨fun v lo hi hv hlo hhi => ?_, fun e he => ?_⟩⟩
  · exact ⟨_, exec_rti_of_ok hv hlo hhi, rfl, statusPulled_pulledStatus v s.p, rfl, rfl⟩
  · have hlist : dataAccesses .rti s = [readOf (pullSlot s 1), readOf (pullSlot s 2), readOf (pullSlot s 3)] :=
      pullAccesses_eq_slots s 3
    exact faultsAt_of_firstFailing (hlist ▸ he)

/-- Pulling a status byte over one with the same B changes nothing else when its bit 5 is 1. -/
theorem pulledStatus_of_same_break {q p : Byte} (hB : getFlag p .B = getFlag q .B) (hU : getFlag q .U = true) :
    pulledStatus q p = q := by
  refine status_ext fun f => ?_
  cases f <;> simp [getFlag_pulledStatus, hB, hU]

/-- Settles O46: RTI finds what BRK pushed in the slots where it pushed it. -/
theorem breakThenReturnResumes : Obligations.BreakThenReturnResumes := by
  intro q s t hwf hU hbrk
  obtain ⟨v, -, -, hhigh, hlow, hstatus, rfl, hsp, -, hkept, -, -, -, -, hframe⟩ :=
    handlerEntered_of_enterHandler (status := (· = pushedByProgram s.p)) hwf rfl (exec_next_iff.mp hbrk)
  rw [← pullSlot_eq_pushSlot (n := 3) (k := 3) hsp (by decide)] at hhigh
  rw [← pullSlot_eq_pushSlot (n := 3) (k := 2) hsp (by decide)] at hlow
  rw [← pullSlot_eq_pushSlot (n := 3) (k := 1) hsp (by decide)] at hstatus
  have hp : pulledStatus (pushedByProgram s.p) t.p = s.p := by
    rw [pulledStatus_pushedByProgram, pulledStatus_of_same_break (hkept .B (by decide)) hU]
  refine (exec_rti_of_ok (s := setPc q t) hstatus hlow hhigh).trans ?_
  rw [word_hi_lo, setPc_p, hp, setPc_sp, hsp, BitVec.sub_add_cancel, hframe]
  rfl

/-! Interrupts. -/

/-- Settles O50: the extension's inputs are asked in order, NMI first. -/
theorem interruptSelection : Obligations.InterruptSelection := by
  intro s
  refine ⟨pendingVector_of_not_hasIrqNmi, fun hext hnmi => ?_, fun hext hnmi hirq hI => ?_, fun hnmi hirq => ?_,
    takeInterrupt_of_none⟩
  · rw [pendingVector, if_pos hext, if_pos hnmi, nmiVector]
  · simp [pendingVector, hext, hnmi, hirq, hI, irqVector]
  · rcases hirq with hirq | hI
    · simp [pendingVector, hnmi, hirq]
    · simp [pendingVector, hnmi, hI]

/-- The status byte of an interrupt's entry (R311). -/
theorem pushedByInterrupt_flags (p : Byte) : FlagsKept p (pushedByInterrupt p) [.B, .U] ∧
    getFlag (pushedByInterrupt p) .B = false ∧ getFlag (pushedByInterrupt p) .U = true := by
  refine ⟨fun f hf => ?_, getFlag_pushedByInterrupt .B p, getFlag_pushedByInterrupt .U p⟩
  simp only [List.mem_cons, List.not_mem_nil, or_false, not_or] at hf
  rw [getFlag_pushedByInterrupt, if_neg hf.1, if_neg hf.2]

theorem takeInterrupt_of_pending {s : State} {vector : Word} (h : pendingVector s = some vector) :
    takeInterrupt s = enterHandler s.pc (pushedByInterrupt s.p) vector { s with nmi := false } := by
  rw [takeInterrupt, h]

/-- Settles O51: a pending interrupt enters its handler as BRK does, from the state with the request cleared. -/
theorem interruptEntry : Obligations.InterruptEntry := by
  intro s vector hpending
  refine ⟨fun hwf hallowed => ?_, fun hrunning e he => ?_⟩
  · obtain ⟨t, ht⟩ := enterHandler_of_allowed (s := { s with nmi := false }) s.pc (pushedByInterrupt s.p) hallowed
    exact ⟨t, (takeInterrupt_of_pending hpending).trans ht,
      handlerEntered_of_enterHandler hwf (pushedByInterrupt_flags s.p) ht⟩
  · refine step_of_interrupt_error hrunning ((follows_takeInterrupt s).error_of_firstFailing ?_)
    rw [interruptAccesses, hpending, Option.elim_some, entryAccesses_eq_slots, he]

end Sys2Proof.Machine
end

section
/-! CLC, SEC, CLI, SEI, CLD, SED, CLV and NOP (R260 to R267). -/
namespace Sys2Proof.Machine

/-- Instructions of the flag shape follow the rule of the flag instructions. -/
theorem flagRule_of_view {m : Mnemonic} {op : Byte} {i : Instr} {f : Flag} {v : Bool}
    (hcodes : HasOpcodes m [(.IMP, op)]) (hi : view i = .flag f v) : FlagRule m op i f v := by
  refine ⟨hcodes, fun s => ⟨setStatus (setFlag f v s.p) s, exec_next_iff.mpr (by rw [hi, View.op]), ?_,
    flagsKept_setFlag f v s.p, rfl⟩⟩
  rw [setStatus_p, getFlag_setFlag, if_pos rfl]

/-- Settles O48: each of the seven has the flag shape, with the flag and the value that its rule names. -/
theorem flagInstructions : Obligations.FlagInstructions := by
  refine ⟨?_, ?_, ?_, ?_, ?_, ?_, ?_⟩ <;> exact flagRule_of_view (hasOpcodes_of_perm (by decide)) rfl

/-- Settles O49: $EA decodes to NOP, whose step is its own execution at the fall-through address. -/
theorem noOperation : Obligations.NoOperation := by
  have hexec (s : State) : exec .nop s = .next s := exec_eq_view .nop s
  refine ⟨hasOpcodes_of_perm (by decide), hexec, fun s s1 hrunning hi hop => ?_⟩
  have hdecode : decode [0xEA] = .ok (.nop, []) := decode_encode .nop []
  refine (stepRunsDecodedInstruction.1 s s1 [0xEA] .nop hrunning hi hdecode fun k b hk => ?_).trans (hexec _)
  obtain ⟨rfl, rfl⟩ : k = 0 ∧ b = 0xEA := by
    cases k with
    | zero => exact ⟨rfl, (Option.some.inj hk).symm⟩
    | succ k => cases hk
  rw [BitVec.ofNat_eq_ofNat, BitVec.add_zero]
  exact hop

end Sys2Proof.Machine
end

section
/-! The loads, the stores and the register transfers (R270 to R281). -/
namespace Sys2Proof.Machine

/-! Loads. -/

/-- `setZN(A)` (R12) with the frame. -/
theorem writeA_effect (v : Byte) (s : State) : ZNFrom (writeA v s).a (writeA v s).p ∧
    FlagsKept s.p (writeA v s).p [.Z, .N] ∧ writeA v s = { s with a := (writeA v s).a, p := (writeA v s).p } :=
  ⟨znFrom_setZN _ _, flagsKept_setZN _ _, rfl⟩

/-- Settles O29: the three write the byte read to their register, each with Z and N from it. -/
theorem loads : Obligations.Loads :=
  ⟨readRule_of_readFn (hasOpcodes_of_perm (by decide)) rfl fun s v => ⟨rfl, writeA_effect v s⟩,
    readRule_of_readFn (hasOpcodes_of_perm (by decide)) rfl fun s v => ⟨rfl, writeX_effect v s⟩,
    readRule_of_readFn (hasOpcodes_of_perm (by decide)) rfl fun s v => ⟨rfl, writeY_effect v s⟩⟩

/-! Stores. -/

/-- The register that a mnemonic whose instructions store a byte stores. -/
def storeReg : Mnemonic → Option (State → Byte)
  | .STA => some State.a
  | .STX => some State.x
  | .STY => some State.y
  | _ => none

theorem view_of_storeReg {i : Instr} {reg : State → Byte} (h : storeReg i.mnemonic = some reg) :
    ∃ o, i.operand = .mem o ∧ view i = .store o reg := by
  cases i <;> cases h <;> exact ⟨_, rfl, rfl⟩

/-- A mnemonic follows the rule of storing with the register that it stores. -/
theorem storeRule_of_storeReg {m : Mnemonic} {codes : List (Mode × Byte)} {reg : State → Byte}
    (hcodes : HasOpcodes m codes) (hreg : storeReg m = some reg) : StoreRule m codes reg := by
  have hop {i : Instr} {o : MemArg} (him : i.mnemonic = m) (ho : i.operand = .mem o) (s : State) :
      (view i).op s = store o (reg s) s := by
    obtain ⟨o', ho', hview⟩ := view_of_storeReg (him.symm ▸ hreg)
    obtain rfl : o' = o := Operand.mem.inj (ho'.symm.trans ho)
    rw [hview, View.op]
  refine ⟨hcodes, fun i s o ea him ho hwf hea hw => ?_, fun i s o him ho => ⟨fun e he => ?_, fun ea hea hw => ?_⟩,
    fun i him => ?_⟩
  · have hread (b : Word) := memRead_put (t := setMem (s.mem.put ea.toNat (reg s)) s) (reg s) b rfl hwf hw
    refine ⟨setMem (s.mem.put ea.toNat (reg s)) s, ?_, (hread ea).trans (if_pos rfl),
      fun b hb => (hread b).trans (if_neg fun hbe => hb (List.mem_singleton.mpr hbe)), rfl⟩
    rw [exec_next_iff, hop him ho, store, hea]
    exact memWrite_of_writable (reg s) hw
  · refine ⟨kind_of_effAddr_error he, faultsAt_of_op_error ?_⟩
    rw [hop him ho, store, he]
  · refine faultsAt_of_op_error ?_
    rw [hop him ho, store, hea]
    exact memWrite_of_not_writable (reg s) hw
  · obtain ⟨o, ho, -⟩ := view_of_storeReg (him.symm ▸ hreg)
    exact ⟨o, ho⟩

/-- Settles O30: the three differ in the register stored alone. -/
theorem stores : Obligations.Stores :=
  ⟨storeRule_of_storeReg (hasOpcodes_of_perm (by decide)) rfl,
    storeRule_of_storeReg (hasOpcodes_of_perm (by decide)) rfl,
    storeRule_of_storeReg (hasOpcodes_of_perm (by decide)) rfl⟩

/-! Transfers. -/

/-- Settles O34: five write their source's byte to a register as a load does; TXS writes S and no flag. -/
theorem transfers : Obligations.Transfers := by
  refine ⟨hasOpcodes_of_perm (by decide), hasOpcodes_of_perm (by decide), hasOpcodes_of_perm (by decide),
    hasOpcodes_of_perm (by decide), hasOpcodes_of_perm (by decide), hasOpcodes_of_perm (by decide),
    fun s => ⟨?tax, ?tay, ?txa, ?tya, ?tsx, ?txs⟩⟩
  case tax => exact ⟨_, exec_eq_view .tax s, rfl, writeX_effect s.a s⟩
  case tay => exact ⟨_, exec_eq_view .tay s, rfl, writeY_effect s.a s⟩
  case txa => exact ⟨_, exec_eq_view .txa s, rfl, writeA_effect s.x s⟩
  case tya => exact ⟨_, exec_eq_view .tya s, rfl, writeA_effect s.y s⟩
  case tsx => exact ⟨_, exec_eq_view .tsx s, rfl, writeX_effect s.sp s⟩
  case txs => exact exec_eq_view .txs s

end Sys2Proof.Machine
end

section
/-! What ends a step or surrounds it: the interrupt inputs of a core without the extension (R310), a fault (R300 to R303) and
`reset()` (R340, R341). -/
namespace Sys2Proof.Machine

/-! The interrupt inputs. -/

/-- No computation of an instruction reads the interrupt inputs. -/
theorem view_commutes_inputs (q n : Bool → Bool) (i : Instr) : (view i).Commutes id q n := by
  cases i with
  | jmpInd | jsr | rts => trivial
  | brk => exact ⟨fun _ => rfl, fun _ => rfl⟩
  | _ => exact fun _ => by intros; rfl

/-- Settles O20: with nothing pending, a step is its fetch and its instruction, which carry the inputs along. -/
theorem interruptInputsIgnoredByDefault : Obligations.InterruptInputsIgnoredByDefault := by
  intro s irq nmi hno
  have hfetch := fetch_relabel id (fun _ => irq) (fun _ => nmi) s
  cases hs : s.faulted with
  | true => rw [step_of_faulted hs, step_of_faulted (s := withInputs irq nmi s) hs, mapNext]
  | false =>
    have hi : takeInterrupt s = .ok s := takeInterrupt_of_none (pendingVector_of_not_hasIrqNmi hno)
    have hi' : takeInterrupt (withInputs irq nmi s) = .ok (withInputs irq nmi s) :=
      takeInterrupt_of_none (pendingVector_of_not_hasIrqNmi hno)
    cases hf : fetch s with
    | error f =>
      rw [hf] at hfetch
      rw [step_of_fetch_error hs hi hf, step_of_fetch_error (s := withInputs irq nmi s) hs hi' hfetch, mapNext]
    | ok r =>
      obtain ⟨i, t⟩ := r
      rw [hf] at hfetch
      rw [step_of_fetch hs hi hf, step_of_fetch (s := withInputs irq nmi s) hs hi' hfetch]
      exact exec_relabel id _ _ i (view_commutes_inputs _ _ i) t

/-! Faults. -/

/-- The free values that a fault leaves are bytes written where the step wrote. -/
theorem reaches_scramble (l : List Access) (n : Nat) (s : State) : Reaches l s (setMem (scramble l n s.mem) s) := by
  induction l generalizing n s with
  | nil => exact .refl s
  | cons acc l ih =>
    obtain ⟨a, kind⟩ := acc
    cases kind with
    | read => exact (ih n s).weaken fun x hx => List.mem_cons_of_mem _ hx
    | write =>
      cases hw : s.mem.writable a.toNat with
      | false =>
        have hmem : scramble (writeOf a :: l) n s.mem = scramble l (n + 1) s.mem := by
          simp [scramble, writeOf, Memory.write, hw]
        exact hmem ▸ (ih (n + 1) s).weaken fun x hx => List.mem_cons_of_mem _ hx
      | true =>
        have hmem : scramble (writeOf a :: l) n s.mem =
            scramble l (n + 1) (s.mem.put a.toNat (Config.freeByte n)) := by
          simp [scramble, writeOf, Memory.write, hw]
        exact hmem ▸ (reaches_memWrite (memWrite_of_writable (Config.freeByte n) hw)).trans (ih (n + 1) _)

theorem Reaches.mem_wf {l : List Access} {s t : State} (h : Reaches l s t) (hwf : s.mem.wf = true) : t.mem.wf = true := by
  obtain ⟨cs, hmem, -⟩ := h.mem
  exact hmem ▸ putAll_wf hwf cs

/-- Settles O11: the core after a fault is marked, and its memory differs by the free values alone. -/
theorem faultHaltsTheCore : Obligations.FaultHaltsTheCore := by
  intro s f hstep
  have hr := reaches_scramble (performed s.mem (stepAccesses s)) (s.freeCount + 5) s
  rw [hostStep_of_fault hstep]
  exact ⟨rfl, rfl, hostSteps_of_faulted rfl, hr.sameHardware, fun hwf => ⟨hr.mem_wf hwf, fun a => hr.memRead_of_not_writes hwf⟩⟩

/-! Reset. -/

/-- A reset whose vector does not read reports the access and halts the core (R341). -/
theorem hostReset_of_firstFailing {s : State} {e : Access}
    (h : firstFailing s.mem [readOf s.cfg.resetVector, readOf (s.cfg.resetVector + 1)] = some e) : hostReset s =
      ({ resetRegisters s with pc := Config.freeWord s.freeCount, faulted := true, freeCount := s.freeCount + 1 }, some e) := by
  have hpair : readPair (resetRegisters s) s.cfg.resetVector (s.cfg.resetVector + 1) = .error e :=
    (follows_readPair (resetRegisters s) _ _).error_of_firstFailing h
  simp only [hostReset, show (resetRegisters s).cfg = s.cfg from rfl, hpair]
  rfl

theorem flagsKept_resetRegisters (s : State) : FlagsKept s.cfg.resetP (resetRegisters s).p [.U] := by
  intro f hf
  rw [getFlag_resetRegisters, if_neg fun h => hf (List.mem_singleton.mpr h)]

/-- Settles O52: the registers are written before the vector is read, and the vector decides PC and the mark. -/
theorem resetOperation : Obligations.ResetOperation := by
  intro s
  have hU : getFlag (resetRegisters s).p .U = true := getFlag_resetRegisters .U s
  exact ⟨fun lo hi hlo hhi => ⟨_, _, hostReset_of_vector hlo hhi, rfl, hU, flagsKept_resetRegisters s⟩,
    fun e he => ⟨_, _, _, hostReset_of_firstFailing he, rfl, hU, flagsKept_resetRegisters s⟩⟩

end Sys2Proof.Machine
end
